-- ==== Sys2Proof/Word.lean ====
section
/-! DEFINITION. The words of the QOI codec engine: 8-bit bytes (the addressable unit of both
spaces and the width of a colour channel, 00_scope.md R7, 20_memory.md R51) and 32-bit header
words (40_bytecursor.md R115). -/

namespace Sys2Proof

/-- One byte of space Q or P, and one colour channel (00_scope.md R7, `CHAN_BITS` = 8). -/
abbrev Byte := BitVec 8

/-- A 32-bit header word: width, height or the magic (00_scope.md R7, `DIM_BITS` = 32). -/
abbrev Word := BitVec 32

end Sys2Proof
end

