-- ==== Sys2Proof/Syntax.lean ====
section
/-! DEFINITION. The six ops of the QOI byte stream, one constructor per row of
spec/opcode_table.json, with the signed unbiased operands of 30_encoding.md R94. -/

namespace Sys2Proof

/-- An op of the engine (30_encoding.md R80, R94). A slot number is one of 64 by its type; the
ranges of the deltas and of the run length are checked by `Instr.wellFormed`. -/
inductive Instr where
  /-- `INDEX i`: the pixel held by cache slot i (R83, R186). -/
  | index (slot : Fin 64)
  /-- `DIFF dr, dg, db`: three small deltas against the previous pixel (R84, R188). -/
  | diff (dr dg db : Int)
  /-- `LUMA dg, drg, dbg`: the green delta, and red and blue relative to it (R85, R189). -/
  | luma (dg drg dbg : Int)
  /-- `RUN n`: n copies of the previous pixel (R86, R187). -/
  | run (n : Nat)
  /-- `RGB r, g, b`: raw colour, alpha unchanged (R87, R185). -/
  | rgb (r g b : Byte)
  /-- `RGBA r, g, b, a`: the raw pixel (R88, R184). -/
  | rgba (r g b a : Byte)
  deriving DecidableEq, Repr

/-- The op's mnemonic as spec/opcode_table.json spells it (30_encoding.md R94). -/
def Instr.mnemonic : Instr → String
  | .index _      => "INDEX"
  | .diff _ _ _   => "DIFF"
  | .luma _ _ _   => "LUMA"
  | .run _        => "RUN"
  | .rgb _ _ _    => "RGB"
  | .rgba _ _ _ _ => "RGBA"

/-- How many bytes the op has: its control byte and its payload (30_encoding.md R80). -/
def Instr.length : Instr → Nat
  | .index _      => 1
  | .diff _ _ _   => 1
  | .luma _ _ _   => 2
  | .run _        => 1
  | .rgb _ _ _    => 4
  | .rgba _ _ _ _ => 5

end Sys2Proof
end

