-- ==== Sys2Proof/WellFormed.lean ====
section
/-! DEFINITION. Which op terms have an encoding: the operand ranges of 30_encoding.md R89. -/

namespace Sys2Proof

/-- `lo ≤ x ≤ hi`, both ends included, as a check that evaluates. -/
def inRange (lo hi x : Int) : Bool := decide (lo ≤ x) && decide (x ≤ hi)

/-- Every operand lies in the range that its field carries (30_encoding.md R89, R94). The slot of
INDEX and the bytes of the literals are in range by their types. -/
def Instr.wellFormed : Instr → Bool
  | .index _          => true
  | .diff dr dg db    => inRange (-2) 1 dr && inRange (-2) 1 dg && inRange (-2) 1 db
  | .luma dg drg dbg  => inRange (-32) 31 dg && inRange (-8) 7 drg && inRange (-8) 7 dbg
  | .run n            => decide (1 ≤ n) && decide (n ≤ 62)
  | .rgb _ _ _        => true
  | .rgba _ _ _ _     => true

end Sys2Proof
end

