-- ==== Sys2Proof/Decode.lean ====
section
/-! DEFINITION. The tag classifier, the decoder from bytes to ops and the encoder from ops to
bytes (30_encoding.md R81 to R91, R97; 40_bytecursor.md R119). -/

namespace Sys2Proof

/-! ### The control byte -/

/-- `c[7:6]`, the tag of a control byte (R81). -/
def tag (c : Byte) : BitVec 2 := c.extractLsb' 6 2

/-- The whole byte 0xFF (40_bytecursor.md R119). -/
def isRGBA (c : Byte) : Bool := c == 0xFF#8

/-- The whole byte 0xFE (40_bytecursor.md R119). -/
def isRGB (c : Byte) : Bool := c == 0xFE#8

/-- Tag `00`: 0x00 .. 0x3F (40_bytecursor.md R119). -/
def isIndex (c : Byte) : Bool := tag c == 0b00#2

/-- Tag `01`: 0x40 .. 0x7F (40_bytecursor.md R119). -/
def isDiff (c : Byte) : Bool := tag c == 0b01#2

/-- Tag `10`: 0x80 .. 0xBF (40_bytecursor.md R119). -/
def isLuma (c : Byte) : Bool := tag c == 0b10#2

/-- Tag `11` without the two literal bytes: 0xC0 .. 0xFD (40_bytecursor.md R119, conflict C9). -/
def isRun (c : Byte) : Bool := tag c == 0b11#2 && c != 0xFE#8 && c != 0xFF#8

/-- The length of the op that a control byte begins (30_encoding.md R90). -/
def opLength (c : Byte) : Nat :=
  if isRGBA c then 5 else if isRGB c then 4 else if isLuma c then 2 else 1

/-! ### Fields -/

/-- The signed value that a biased field stores: the zero-extended field less the bias (R89). -/
def unbias {w : Nat} (bias : Int) (v : BitVec w) : Int := (v.toNat : Int) - bias

/-- The field that stores a signed value: the value plus the bias (R89). -/
def toField (w : Nat) (bias : Int) (d : Int) : BitVec w := BitVec.ofInt w (d + bias)

/-- `idx` of INDEX: bits 5:0, no bias (R83). -/
def slotOf (c : Byte) : Fin 64 := (c.extractLsb' 0 6).toFin

/-- The op of an INDEX byte (R83). -/
def readIndex (c : Byte) : Instr := .index (slotOf c)

/-- The op of a DIFF byte: `dr2`, `dg2`, `db2` in bits 5:4, 3:2, 1:0, each biased +2
(R84, R89; placement decision D1). -/
def readDiff (c : Byte) : Instr :=
  .diff (unbias 2 (c.extractLsb' 4 2)) (unbias 2 (c.extractLsb' 2 2)) (unbias 2 (c.extractLsb' 0 2))

/-- The op of two LUMA bytes: `dg6` in bits 5:0 of the first, biased +32; `drg4` and `dbg4` in bits
7:4 and 3:0 of the second, each biased +8 (R85, R89; placement decision D2). -/
def readLuma (c d : Byte) : Instr :=
  .luma (unbias 32 (c.extractLsb' 0 6)) (unbias 8 (d.extractLsb' 4 4)) (unbias 8 (d.extractLsb' 0 4))

/-- The op of a RUN byte: `run6` in bits 5:0 stores the length less one (R86). -/
def readRun (c : Byte) : Instr := .run ((c.extractLsb' 0 6).toNat + 1)

/-! ### The decoder -/

/-- Why no op can be read from a list of bytes. Every control byte has a meaning (R82, R91), so the
only reasons are missing bytes. -/
inductive Reject where
  /-- There is no control byte. -/
  | noControlByte
  /-- The op the control byte begins, named by its mnemonic, lacks payload bytes. -/
  | cutShort (mnemonic : String)
  deriving DecidableEq, Repr

/-- Reads one op from the front of a list of bytes and gives the bytes that follow it. The tests
stand in the order of 44_decode.md R183 and R199. -/
def decode : List Byte → Except Reject (Instr × List Byte)
  | [] => .error .noControlByte
  | c :: rest =>
    if isRGBA c then
      match rest with
      | r :: g :: b :: a :: rest => .ok (.rgba r g b a, rest)
      | _ => .error (.cutShort "RGBA")
    else if isRGB c then
      match rest with
      | r :: g :: b :: rest => .ok (.rgb r g b, rest)
      | _ => .error (.cutShort "RGB")
    else if isIndex c then .ok (readIndex c, rest)
    else if isRun c then .ok (readRun c, rest)
    else if isDiff c then .ok (readDiff c, rest)
    else
      match rest with
      | d :: rest => .ok (readLuma c d, rest)
      | _ => .error (.cutShort "LUMA")

/-! ### The encoder -/

/-- The bytes of an op, first byte first (30_encoding.md R83 to R88, R94). -/
def encode : Instr → List Byte
  | .index i         => [0b00#2 ++ BitVec.ofNat 6 i.val]
  | .diff dr dg db   => [0b01#2 ++ toField 2 2 dr ++ toField 2 2 dg ++ toField 2 2 db]
  | .luma dg drg dbg => [0b10#2 ++ toField 6 32 dg, toField 4 8 drg ++ toField 4 8 dbg]
  | .run n           => [0b11#2 ++ BitVec.ofNat 6 (n - 1)]
  | .rgb r g b       => [0xFE#8, r, g, b]
  | .rgba r g b a    => [0xFF#8, r, g, b, a]

/-! ### The numbering of spec/opcode_table.json -/

/-- Byte `k` of an instruction whose bits are `w`, bit 0 the least significant bit of byte 0. -/
def tableByte (w k : Nat) : Byte := BitVec.ofNat 8 (w / 2 ^ (8 * k))

/-- The five bytes (the longest op) of an instruction of `nbits` bits, zero above them. -/
def tableBytes (nbits w : Nat) : List Byte :=
  let v := w % 2 ^ nbits
  [tableByte v 0, tableByte v 1, tableByte v 2, tableByte v 3, tableByte v 4]

/-- What the decoder reads from an instruction numbered as spec/opcode_table.json numbers it. -/
def decodeTableWord (nbits w : Nat) : Option Instr :=
  match decode (tableBytes nbits w) with
  | .ok (i, _)  => some i
  | .error _ => none

end Sys2Proof
end

