-- ==== Sys2Proof/Config.lean ====
section
/-! DEFINITION. What an implementation fixes: the constants of 00_scope.md R7, and the two
parameters that R8 leaves open (`TRAILING_BYTES`, `MAX_PIXELS`), which no file of the model
chooses. The two decided parameters of R8 (`CHAN_OVF` = wrap, `RUN_OVERRUN` = fault) have no
name here: they are built into `addWrap` and `execRun` (notes/assumptions/8.md). -/

namespace Sys2Proof

/-- `TRAILING_BYTES` (00_scope.md R8, decision D6): what decode does with bytes that stand after
the end marker. -/
inductive TrailingBytes where
  | ignore
  | fault
  deriving DecidableEq, Repr, Inhabited

/-- The two open parameters of 00_scope.md R8, fixed for one implementation. `maxPixels = none`
says that the implementation has no limit (decision D7). -/
structure Impl where
  trailingBytes : TrailingBytes
  maxPixels     : Option Nat
  deriving DecidableEq, Repr, Inhabited

namespace Config

/-- The open parameters of the machine at power-on. No body: nothing in the model knows them, so
what is proved of a run from reset holds for both values of `TRAILING_BYTES` and for every
`MAX_PIXELS` (decisions D6, D7; notes/assumptions/2.md). -/
opaque impl : Impl

/-- Slots of the colour cache (`CACHE_SIZE`, R7). -/
def cacheSize : Nat := 64

/-- Largest run that one RUN op carries (`RUN_MAX`, R7). -/
def runMax : Nat := 62

/-- Bytes of the header (`HEADER_SIZE`, R7). -/
def headerSize : Nat := 14

/-- Bytes of the end marker (`END_SIZE`, R7). -/
def endSize : Nat := 8

/-- The four characters "qoif" as one big-endian word (42_container.md R141;
PRESUMED, notes/assumptions/10.md). -/
def magic : Word := 0x716F6966#32

end Config

end Sys2Proof
end

