-- ==== Sys2Proof/Machine/State.lean ====
section
/-! DEFINITION. The state of the engine (10_state.md R20), what it holds beside (the two buffers and
the operands of a pass, R21; the open parameters, 00_scope.md R8; the host's launches,
60_exceptions.md R223), the reasons a step can stop, and the state at power-on. -/

namespace Sys2Proof.Machine

/-- A pixel: four 8-bit channels (10_state.md R22, R23; 41_pixelcolor.md R130). Equality is
componentwise (R131). -/
structure Pixel where
  r : Byte
  g : Byte
  b : Byte
  a : Byte
  deriving DecidableEq, Repr

/-- A byte space: the bytes that have a value, addresses strictly rising. An address that is not
listed has no value (notes/assumptions/1.md). -/
abbrev Memory := List Host.Cell

/-- The canonical form: addresses strictly rising. No entry can equal what an unlisted address
reads as, since that is no value. -/
def Memory.wf : Memory → Bool
  | [] => true
  | [_] => true
  | c :: d :: m => decide (c.1 < d.1) && Memory.wf (d :: m)

/-- `CMODE`: the mode of the cursor (10_state.md R32). -/
inductive CMode where
  | read
  | write
  deriving DecidableEq, Repr

/-- `MODE`: which pass runs (10_state.md R34). -/
inductive Mode where
  | enc
  | dec
  deriving DecidableEq, Repr

/-- `PHASE`: how far the pass is (10_state.md R34, 60_exceptions.md R224). -/
inductive Phase where
  | idle
  | head
  | body
  | tail
  | done
  | fault
  deriving DecidableEq, Repr

/-- The causes of `InvalidArgument` (60_exceptions.md R211). -/
inductive ArgCause where
  | width
  | height
  | pixbufShort
  | channels
  | colorspace
  deriving DecidableEq, Repr

/-- The causes of `FormatError` (60_exceptions.md R212, R214). `lumaRange` is reserved and never
raised (R215). -/
inductive FormatCause where
  | magic
  | width
  | height
  | channels
  | colorspace
  | truncated
  | endmarker
  | runOverrun
  | trailing
  | lumaRange
  deriving DecidableEq, Repr

/-- The causes of `FatalAssertion` (60_exceptions.md R213, R214). -/
inductive AssertCause where
  | invalidOperation
  | outOfRange
  deriving DecidableEq, Repr

/-- `ERR`: the fault a pass took, kind and cause, or none (60_exceptions.md R214, R217). -/
inductive Err where
  | none
  | invalidArgument (c : ArgCause)
  | formatError (c : FormatCause)
  | fatalAssertion (c : AssertCause)
  deriving DecidableEq, Repr

/-- The operands of the pass that START gave and that are no register: the four arguments and the
length of the pixel buffer for encode, the length of the stream for decode (10_state.md R21,
43_encode.md R150, 44_decode.md R180). -/
structure Args where
  width      : Word
  height     : Word
  channels   : Byte
  colorspace : Byte
  plen       : Nat
  qlen       : Nat
  deriving DecidableEq, Repr

/-- A host operation (60_exceptions.md R223). The buffer is given whole, so that its length is its
true length (a host duty of 92_eei_decisions.md). -/
inductive Launch where
  | startEncode (pix : List Byte) (width height : Word) (channels colorspace : Byte)
  | startDecode (qoi : List Byte)
  deriving DecidableEq, Repr

/-- The state. The first fifteen fields are the rows of the table of 10_state.md R20; the buffers
and operands are R21's; `impl` and `launches` are the model's own (notes/assumptions/2.md, 3.md). -/
structure State where
  /-- `PREV`, the previous pixel (R22). -/
  prev       : Pixel
  /-- `CACHE[0..63]`, the colour cache (R25). -/
  cache      : Vector Pixel 64
  /-- `RUN`, the pending run length, 6 bits (R28). -/
  run        : BitVec 6
  /-- `WIDTH` (R30). -/
  width      : Word
  /-- `HEIGHT` (R30). -/
  height     : Word
  /-- `CHANNELS` (R30). -/
  channels   : Byte
  /-- `COLORSPACE` (R30). -/
  colorspace : Byte
  /-- `PXN`, the pixels of the image, not truncated (R31). -/
  pxn        : Nat
  /-- `PXI`, the pixels consumed or produced so far (R31). -/
  pxi        : Nat
  /-- `POS`, the cursor position, the program counter (R32, R33). -/
  pos        : Nat
  /-- `LEN`, the cursor's buffer length or capacity (R32). -/
  len        : Nat
  /-- `CMODE` (R32). -/
  cmode      : CMode
  /-- `MODE` (R34). -/
  mode       : Mode
  /-- `PHASE` (R34). -/
  phase      : Phase
  /-- `ERR` (R34). -/
  err        : Err
  /-- Space Q, the QOI byte buffer (20_memory.md R50, R52). -/
  q          : Memory
  /-- Space P, the pixel byte buffer (20_memory.md R50, R53, R54). -/
  p          : Memory
  /-- The operands of the pass (R21). -/
  args       : Args
  /-- The open parameters of the implementation, written by nothing (00_scope.md R8). -/
  impl       : Impl
  /-- The host's launches that no pass has taken yet, oldest first (60_exceptions.md R223). -/
  launches   : List Launch
  deriving DecidableEq, Repr

/-- The reasons the machine stops without a next state. None of them is a fault of the spec: those
are next states with `PHASE = FAULT` (60_exceptions.md R217). -/
inductive Fault where
  /-- Raised by `engineStep` in `IDLE`, `DONE` or `FAULT` when the host has launched no pass: the
  engine has no step there (60_exceptions.md R218, R224). Safe. -/
  | noStep
  /-- Raised by the cursor's reads and by the encoder's pixel fetch at an address that holds no byte:
  one that nothing has written, or one outside the buffer. No pass reaches it. Safe. -/
  | noByte (addr : Nat)
  /-- Raised by `emit` when no pixel is owed: the address lies outside the `PXN*4` bytes of space P
  (44_decode.md R190). No pass reaches it. Safe. -/
  | pastImage
  /-- Raised by the encoder's pixel fetch when `CHANNELS` is neither 3 nor 4: the fetch then has no
  meaning (92_eei_decisions.md D9). No pass reaches it. Safe. -/
  | noPixelLayout
  deriving DecidableEq, Repr

/-- What the spec gives no meaning to. -/
inductive Refusal where
  /-- Raised by exec for an instruction that has no meaning yet. Safe. -/
  | notModelled (mnemonic : String)
  /-- Raised in phase `HEAD` of either pass when `PXN` exceeds `MAX_PIXELS`: the spec's own `refuse`
  (60_exceptions.md R226). Safe. -/
  | overMaxPixels
  /-- Raised by `start` in `HEAD`, `BODY` or `TAIL`: the host has no such move (70_reset_and_hazards.md
  R248). `engineStep` never starts a pass there. Safe. -/
  | startDuringPass
  /-- Raised by `toOutput` on a read cursor, for which it is not defined (40_bytecursor.md R118,
  93_implementation_defined.md U16). Safe. -/
  | toOutputOnReadCursor
  deriving DecidableEq, Repr

/-- The outcome of a step of this machine. -/
abbrev Outcome := Host.Outcome State Fault Refusal

/-- `PREV` at the start of every pass (10_state.md R22). -/
def prevInit : Pixel := ⟨0, 0, 0, 255⟩

/-- A slot of `CACHE` at the start of every pass: transparent black (10_state.md R25). -/
def slotInit : Pixel := ⟨0, 0, 0, 0⟩

/-- The cache at the start of every pass (10_state.md R25). -/
def cacheInit : Vector Pixel 64 := Vector.replicate 64 slotInit

/-- Power-on with the open parameters given. `PHASE` and `ERR` are the spec's (70_reset_and_hazards.md
R241); the spec leaves every other register unspecified and unobservable, and the values here are
the pass-start values of 10_state.md R38 where it gives them, else zero
(DESIGN CHOICE, notes/assumptions/4.md). -/
def State.resetWith (impl : Impl) : State where
  prev       := prevInit
  cache      := cacheInit
  run        := 0
  width      := 0
  height     := 0
  channels   := 0
  colorspace := 0
  pxn        := 0
  pxi        := 0
  pos        := 0
  len        := 0
  cmode      := .read
  mode       := .dec
  phase      := .idle
  err        := .none
  q          := []
  p          := []
  args       := ⟨0, 0, 0, 0, 0, 0⟩
  impl       := impl
  launches   := []

/-- The machine at power-on, before the first pass (70_reset_and_hazards.md R241). -/
def State.reset : State := State.resetWith Config.impl

end Sys2Proof.Machine
end

