-- ==== Sys2Proof/Machine/Operands.lean ====
section
/-! DEFINITION. PixelColor, the arithmetic on pixels that the ops' operands go through
(41_pixelcolor.md). No function of this file can fail. -/

namespace Sys2Proof.Machine

/-- `hash(p)`, the cache slot of a pixel: the sum is formed without truncation, then reduced modulo
64 (41_pixelcolor.md R132). -/
def hash (p : Pixel) : Fin 64 :=
  Fin.ofNat 64 (p.r.toNat * 3 + p.g.toNat * 5 + p.b.toNat * 7 + p.a.toNat * 11)

/-- The signed difference of two pixels (41_pixelcolor.md R134). -/
structure Delta where
  dr : Int
  dg : Int
  db : Int
  da : Int
  deriving DecidableEq, Repr

/-- `delta(cur, prev)`: componentwise, no clamping and no wrap-around (41_pixelcolor.md R134). -/
def delta (cur prev : Pixel) : Delta where
  dr := cur.r.toNat - prev.r.toNat
  dg := cur.g.toNat - prev.g.toNat
  db := cur.b.toNat - prev.b.toNat
  da := cur.a.toNat - prev.a.toNat

/-- One channel plus a signed delta, modulo 256 (41_pixelcolor.md R136, `CHAN_OVF` = wrap,
decision D4). -/
def addChannel (c : Byte) (d : Int) : Byte := BitVec.ofInt 8 (c.toNat + d)

/-- `add_wrap(prev, Δr, Δg, Δb)`: each colour channel on its own, alpha untouched
(41_pixelcolor.md R136). -/
def addWrap (prev : Pixel) (dr dg db : Int) : Pixel where
  r := addChannel prev.r dr
  g := addChannel prev.g dg
  b := addChannel prev.b db
  a := prev.a

/-- The four bytes of a pixel in space P, in the order r, g, b, a (20_memory.md R54, decision D3). -/
def Pixel.bytes (p : Pixel) : List Byte := [p.r, p.g, p.b, p.a]

/-- `PXN`: width times height, not truncated (10_state.md R31). -/
def pixelCount (w h : Word) : Nat := w.toNat * h.toNat

/-- `be32(b0, b1, b2, b3)`, the byte at the lowest address first (00_scope.md section 6). -/
def be32 (b0 b1 b2 b3 : Byte) : Word := b0 ++ b1 ++ b2 ++ b3

/-- `bytes_be32(v)`: the four bytes of a word, most significant first (00_scope.md section 6). -/
def bytesBe32 (v : Word) : List Byte :=
  [v.extractLsb' 24 8, v.extractLsb' 16 8, v.extractLsb' 8 8, v.extractLsb' 0 8]

end Sys2Proof.Machine
end

