-- ==== Sys2Proof/Machine/Flags.lean ====
section
/-! DEFINITION. The engine stores no flag (10_state.md R35). What stands in a flag's place: the tests
of the encoder, functions of the current pixel, `PREV`, one cache slot and the counters, consumed in
the step that computes them; and the numeric codes of `ERR` (60_exceptions.md R214). The decoder's
six tag predicates are in Sys2Proof/Decode.lean. -/

namespace Sys2Proof.Machine

/-- The run test: the pixel equals the previous one, alpha included (43_encode.md R154). -/
def joinsRun (cur prev : Pixel) : Bool := decide (cur = prev)

/-- The last-pixel test, `PXI = PXN - 1` (43_encode.md R154). -/
def lastPixel (pxi pxn : Nat) : Bool := decide (pxi + 1 = pxn)

/-- The flush test after a pixel has joined the run: the run is full, or this is the last pixel
(43_encode.md R154). -/
def mustFlush (run : BitVec 6) (pxi pxn : Nat) : Bool :=
  decide (run.toNat = Config.runMax) || lastPixel pxi pxn

/-- The cache hit: the slot at the pixel's hash holds exactly the pixel (43_encode.md R157). -/
def cacheHit (cur : Pixel) (cache : Vector Pixel 64) : Bool := decide (cache.get (hash cur) = cur)

/-- The DIFF test (43_encode.md R159). -/
def diffFits (d : Delta) : Bool :=
  decide (d.da = 0) && inRange (-2) 1 d.dr && inRange (-2) 1 d.dg && inRange (-2) 1 d.db

/-- The LUMA test (43_encode.md R160). -/
def lumaFits (d : Delta) : Bool :=
  decide (d.da = 0) && inRange (-32) 31 d.dg && inRange (-8) 7 (d.dr - d.dg)
    && inRange (-8) 7 (d.db - d.dg)

/-- `ERR.kind` (60_exceptions.md R214). -/
def kindCode : Err → BitVec 2
  | .none              => 0
  | .invalidArgument _ => 1
  | .formatError _     => 2
  | .fatalAssertion _  => 3

/-- The cause codes within `InvalidArgument` (60_exceptions.md R214). -/
def argCode : ArgCause → BitVec 4
  | .width       => 1
  | .height      => 2
  | .pixbufShort => 3
  | .channels    => 4
  | .colorspace  => 5

/-- The cause codes within `FormatError` (60_exceptions.md R214). -/
def formatCode : FormatCause → BitVec 4
  | .magic      => 1
  | .width      => 2
  | .height     => 3
  | .channels   => 4
  | .colorspace => 5
  | .truncated  => 6
  | .endmarker  => 7
  | .runOverrun => 8
  | .trailing   => 9
  | .lumaRange  => 10

/-- The cause codes within `FatalAssertion` (60_exceptions.md R214). -/
def assertCode : AssertCause → BitVec 4
  | .invalidOperation => 1
  | .outOfRange       => 2

/-- `ERR.cause`, 0 where there is no fault (60_exceptions.md R214; 10_state.md R38). -/
def causeCode : Err → BitVec 4
  | .none              => 0
  | .invalidArgument c => argCode c
  | .formatError c     => formatCode c
  | .fatalAssertion c  => assertCode c

end Sys2Proof.Machine
end

