-- ==== Sys2Proof/Machine/Ops.lean ====
section
/-! DEFINITION. The named operations over memory, the cursor and the registers, and taking a fault,
which every op and both passes are written with (20_memory.md, 40_bytecursor.md, 60_exceptions.md
R213 and R217, 44_decode.md R190). -/

namespace Sys2Proof.Machine

/-! ### Byte spaces -/

/-- The byte at an address, if it has a value (`S[k]`, 00_scope.md section 6). -/
def Memory.read : Memory → Nat → Option Byte
  | [], _ => none
  | c :: m, a => if c.1 = a then some c.2 else Memory.read m a

/-- Stores one byte, keeping addresses rising. -/
def Memory.write : Memory → Nat → Byte → Memory
  | [], a, v => [(a, v)]
  | c :: m, a, v =>
    if a < c.1 then (a, v) :: c :: m
    else if a = c.1 then (a, v) :: m
    else c :: Memory.write m a v

/-- `MemWrite(S, addr, n, bytes)`: the lowest address first (00_scope.md section 6). -/
def Memory.writeBytes : Memory → Nat → List Byte → Memory
  | m, _, [] => m
  | m, a, v :: vs => Memory.writeBytes (m.write a v) (a + 1) vs

/-- `MemRead(S, addr, n)`: the lowest address first; none where a byte has no value
(00_scope.md section 6). -/
def Memory.readBytes : Memory → Nat → Nat → Option (List Byte)
  | _, _, 0 => some []
  | m, a, n + 1 =>
    match m.read a, Memory.readBytes m (a + 1) n with
    | some v, some vs => some (v :: vs)
    | _, _ => none

/-- The space that holds a list of bytes from an address on and nothing else: a buffer the host
supplies (40_bytecursor.md R111). -/
def Memory.ofBytes : Nat → List Byte → Memory
  | _, [] => []
  | a, v :: vs => (a, v) :: Memory.ofBytes (a + 1) vs

/-! ### Registers -/

/-- `PREV <- p`. -/
def setPrev (p : Pixel) (s : State) : State := { s with prev := p }

/-- `CACHE[i]`. -/
def readSlot (i : Fin 64) (s : State) : Pixel := s.cache.get i

/-- `CACHE[i] <- p`: what the slot held is replaced (10_state.md R26). -/
def setSlot (i : Fin 64) (p : Pixel) (s : State) : State :=
  { s with cache := s.cache.set i.val p i.isLt }

/-- `CACHE[hash(p)] <- p` (10_state.md R26). -/
def store (p : Pixel) (s : State) : State := setSlot (hash p) p s

/-- `RUN <- n`. -/
def setRun (n : BitVec 6) (s : State) : State := { s with run := n }

/-- `PXI <- n`. -/
def setPxi (n : Nat) (s : State) : State := { s with pxi := n }

/-- `POS <- n`. -/
def setPos (n : Nat) (s : State) : State := { s with pos := n }

/-- `PHASE <- ph`. -/
def setPhase (ph : Phase) (s : State) : State := { s with phase := ph }

/-- Space Q becomes `m`. -/
def setQ (m : Memory) (s : State) : State := { s with q := m }

/-- Space P becomes `m`. -/
def setP (m : Memory) (s : State) : State := { s with p := m }

/-- The working registers at the start of every pass (70_reset_and_hazards.md R240). -/
def initWork (s : State) : State :=
  { s with prev := prevInit, cache := cacheInit, run := 0, pxi := 0 }

/-! ### How a step ends early, and taking a fault -/

/-- A reason to end the step before its last line. -/
inductive Stop where
  /-- `raise Kind(cause)` (00_scope.md section 6). -/
  | raise (e : Err)
  /-- The machine stops: see `Fault`. -/
  | fault (f : Fault)
  /-- `refuse` (00_scope.md section 6). -/
  | refuse (r : Refusal)
  deriving DecidableEq, Repr

/-- Taking a fault (60_exceptions.md R217): `PHASE <- FAULT`, `ERR <- (kind, cause)`, and the pass has
no result. It is taken from the state before the faulting step, no effect of which survives. The
content of the output buffer is unspecified, so the model leaves no byte of it a value
(notes/assumptions/6.md). There is no return: the way on is a new START (R219). -/
def takeFault (e : Err) (s : State) : State :=
  match s.mode with
  | .enc => { s with phase := .fault, err := e, q := [] }
  | .dec => { s with phase := .fault, err := e, p := [] }

/-- The outcome of a step that began in `s`. -/
def settle (s : State) : Except Stop State → Outcome
  | .ok t => .next t
  | .error (.raise e) => .next (takeFault e s)
  | .error (.fault f) => .fault f
  | .error (.refuse r) => .refused r

/-! ### The cursor -/

/-- The cursor's own conditions (40_bytecursor.md), and the one that plain data adds. -/
inductive CursorFail where
  /-- The primitive does not belong to the cursor's mode (R112). -/
  | invalidOperation
  /-- The bytes asked for do not lie inside the buffer (R113 to R117). -/
  | outOfRange
  /-- The address lies inside the buffer and holds no byte; no supplied buffer has such an address. -/
  | noByte (addr : Nat)
  deriving DecidableEq, Repr

/-- What the engine makes of a failed read (60_exceptions.md R213): running off the end of the input
is `FormatError(TRUNCATED)`. -/
def readStop : CursorFail → Stop
  | .invalidOperation => .raise (.fatalAssertion .invalidOperation)
  | .outOfRange       => .raise (.formatError .truncated)
  | .noByte a         => .fault (.noByte a)

/-- What the engine makes of a failed write (60_exceptions.md R213). -/
def writeStop : CursorFail → Stop
  | .invalidOperation => .raise (.fatalAssertion .invalidOperation)
  | .outOfRange       => .raise (.fatalAssertion .outOfRange)
  | .noByte a         => .fault (.noByte a)

/-- The checks of a read primitive of `n` bytes, mode first (40_bytecursor.md R113 to R115). -/
def checkRead (n : Nat) (s : State) : Except CursorFail Unit :=
  if s.cmode ≠ .read then .error .invalidOperation
  else if s.len < s.pos + n then .error .outOfRange
  else .ok ()

/-- The checks of a write primitive of `n` bytes, mode first (40_bytecursor.md R116, R117). -/
def checkWrite (n : Nat) (s : State) : Except CursorFail Unit :=
  if s.cmode ≠ .write then .error .invalidOperation
  else if s.len < s.pos + n then .error .outOfRange
  else .ok ()

/-- `peek8` (40_bytecursor.md R114): the byte at `POS`; no state changes. -/
def peek8 (s : State) : Except CursorFail Byte :=
  match checkRead 1 s with
  | .error e => .error e
  | .ok () =>
    match s.q.read s.pos with
    | some v => .ok v
    | none => .error (.noByte s.pos)

/-- `read8` (40_bytecursor.md R113): the byte at `POS`, and `POS` advances by one. -/
def read8 (s : State) : Except CursorFail (Byte × State) :=
  match peek8 s with
  | .error e => .error e
  | .ok v => .ok (v, setPos (s.pos + 1) s)

/-- `read32` (40_bytecursor.md R115): four bytes, big-endian; it fails as a whole (decision D17). -/
def read32 (s : State) : Except CursorFail (Word × State) :=
  match checkRead 4 s with
  | .error e => .error e
  | .ok () =>
    match s.q.readBytes s.pos 4 with
    | some [b0, b1, b2, b3] => .ok (be32 b0 b1 b2 b3, setPos (s.pos + 4) s)
    | _ => .error (.noByte s.pos)

/-- `write8(v)` (40_bytecursor.md R116). -/
def write8 (v : Byte) (s : State) : Except CursorFail State :=
  match checkWrite 1 s with
  | .error e => .error e
  | .ok () => .ok (setPos (s.pos + 1) (setQ (s.q.write s.pos v) s))

/-- `write32(v)` (40_bytecursor.md R117): four bytes, big-endian. -/
def write32 (v : Word) (s : State) : Except CursorFail State :=
  match checkWrite 4 s with
  | .error e => .error e
  | .ok () => .ok (setPos (s.pos + 4) (setQ (s.q.writeBytes s.pos (bytesBe32 v)) s))

/-- `toOutput` (40_bytecursor.md R118): the bytes written, positions 0 to `POS`-1. It is not defined
on a read cursor (93_implementation_defined.md U16; notes/assumptions/13.md). -/
def toOutput (s : State) : Except Stop (List Byte) :=
  if s.cmode ≠ .write then .error (.refuse .toOutputOnReadCursor)
  else
    match s.q.readBytes 0 s.pos with
    | some bs => .ok bs
    | none => .error (.fault (.noByte s.pos))

/-- Write-mode construction with a capacity: the buffer's content is unspecified
(40_bytecursor.md R110). -/
def openWrite (cap : Nat) (s : State) : State :=
  { s with cmode := .write, len := cap, pos := 0, q := [] }

/-- Read-mode construction over the supplied buffer of a given length (40_bytecursor.md R111). -/
def openRead (length : Nat) (s : State) : State :=
  { s with cmode := .read, len := length, pos := 0 }

/-! ### The cursor as the passes use it -/

/-- `read8` in a pass (60_exceptions.md R213). -/
def get8 (s : State) : Except Stop (Byte × State) :=
  match read8 s with
  | .ok r => .ok r
  | .error e => .error (readStop e)

/-- `read32` in a pass (60_exceptions.md R213). -/
def get32 (s : State) : Except Stop (Word × State) :=
  match read32 s with
  | .ok r => .ok r
  | .error e => .error (readStop e)

/-- `put(v)`, `write8` in a pass (60_exceptions.md R213). -/
def put8 (v : Byte) (s : State) : Except Stop State :=
  match write8 v s with
  | .ok t => .ok t
  | .error e => .error (writeStop e)

/-- `write32` in a pass (60_exceptions.md R213). -/
def put32 (v : Word) (s : State) : Except Stop State :=
  match write32 v s with
  | .ok t => .ok t
  | .error e => .error (writeStop e)

/-- `n` times `read8`: the bytes in stream order. -/
def getBytes : Nat → State → Except Stop (List Byte × State)
  | 0, s => .ok ([], s)
  | n + 1, s =>
    match get8 s with
    | .error e => .error e
    | .ok (v, t) =>
      match getBytes n t with
      | .error e => .error e
      | .ok (vs, u) => .ok (v :: vs, u)

/-- `put` of each byte in turn. -/
def putBytes : List Byte → State → Except Stop State
  | [], s => .ok s
  | v :: vs, s =>
    match put8 v s with
    | .error e => .error e
    | .ok t => putBytes vs t

/-- The reads that consume an op already classified and decoded: `n` bytes, with the checks of
`read8` (40_bytecursor.md R120). Their values are the op's operands and are not read again, which
gives the same bytes (20_memory.md R60; DEDUCED, notes/assumptions/14.md). -/
def consume (n : Nat) (s : State) : Except Stop State :=
  match checkRead n s with
  | .error e => .error (readStop e)
  | .ok () => .ok (setPos (s.pos + n) s)

/-! ### The decoder's output -/

/-- `emit(p)` (44_decode.md R190): four bytes of space P and one pixel more. It is called only while
a pixel is owed (notes/assumptions/7.md). -/
def emit (p : Pixel) (s : State) : Except Stop State :=
  if s.pxi < s.pxn then
    .ok (setPxi (s.pxi + 1) (setP (s.p.writeBytes (4 * s.pxi) p.bytes) s))
  else .error (.fault .pastImage)

/-- `repeat n times: emit(p)` (44_decode.md R187). -/
def emitMany (p : Pixel) : Nat → State → Except Stop State
  | 0, s => .ok s
  | n + 1, s =>
    match emit p s with
    | .error e => .error e
    | .ok t => emitMany p n t

/-- What DIFF, LUMA, RGB and RGBA share (44_decode.md R184, R185, R188, R189): consume the op, emit
the pixel, overwrite its cache slot, update previous. -/
def produce (n : Nat) (p : Pixel) (s : State) : Except Stop State :=
  match consume n s with
  | .error e => .error e
  | .ok t =>
    match emit p t with
    | .error e => .error e
    | .ok u => .ok (setPrev p (store p u))

end Sys2Proof.Machine
end

