-- ==== Sys2Proof/Machine/DeltaOps.lean ====
section
/-! DEFINITION. DIFF and LUMA: their meanings to the decoder (44_decode.md R188, R189) and their
emission by the encoder (43_encode.md R158 to R160). -/

namespace Sys2Proof.Machine

/-- DIFF (44_decode.md R188): the three deltas are applied to the previous pixel, each sum modulo
256, alpha unchanged (decision D4). -/
def execDiff (dr dg db : Int) (s : State) : Outcome :=
  settle s (produce 1 (addWrap s.prev dr dg db) s)

/-- LUMA (44_decode.md R189): red and blue deltas are relative to the green one. There is no range
check (60_exceptions.md R215). -/
def execLuma (dg drg dbg : Int) (s : State) : Outcome :=
  settle s (produce 2 (addWrap s.prev (dg + drg) dg (dg + dbg)) s)

/-- DIFF emission after a cache miss (43_encode.md R158, R159). -/
def putDiff (d : Delta) (cur : Pixel) (s : State) : Except Stop State :=
  putBytes (encode (.diff d.dr d.dg d.db)) (store cur s)

/-- LUMA emission after a cache miss (43_encode.md R158, R160). -/
def putLuma (d : Delta) (cur : Pixel) (s : State) : Except Stop State :=
  putBytes (encode (.luma d.dg (d.dr - d.dg) (d.db - d.dg))) (store cur s)

end Sys2Proof.Machine
end

