-- ==== Sys2Proof/Machine/IndexOps.lean ====
section
/-! DEFINITION. INDEX: its meaning to the decoder (44_decode.md R186) and its emission by the encoder
(43_encode.md R157). -/

namespace Sys2Proof.Machine

/-- INDEX (44_decode.md R186): emit the pixel of the slot and make it the previous one. The cache is
not written. -/
def execIndex (slot : Fin 64) (s : State) : Outcome :=
  settle s
    (match consume 1 s with
     | .error e => .error e
     | .ok t =>
       let p := readSlot slot t
       match emit p t with
       | .error e => .error e
       | .ok u => .ok (setPrev p u))

/-- INDEX emission (43_encode.md R157): the slot that holds the pixel is not written. -/
def putIndex (cur : Pixel) (s : State) : Except Stop State :=
  putBytes (encode (.index (hash cur))) s

end Sys2Proof.Machine
end

