-- ==== Sys2Proof/Machine/LiteralOps.lean ====
section
/-! DEFINITION. RGB and RGBA: their meanings to the decoder (44_decode.md R184, R185) and their
emission by the encoder (43_encode.md R158, R161, R162). -/

namespace Sys2Proof.Machine

/-- RGB (44_decode.md R185): alpha is the previous pixel's. -/
def execRgb (r g b : Byte) (s : State) : Outcome :=
  settle s (produce 4 ⟨r, g, b, s.prev.a⟩ s)

/-- RGBA (44_decode.md R184). It is executed the same whatever `CHANNELS` is (R194). -/
def execRgba (r g b a : Byte) (s : State) : Outcome :=
  settle s (produce 5 ⟨r, g, b, a⟩ s)

/-- RGB emission after a cache miss, alpha unchanged (43_encode.md R158, R161). -/
def putRgb (cur : Pixel) (s : State) : Except Stop State :=
  putBytes (encode (.rgb cur.r cur.g cur.b)) (store cur s)

/-- RGBA emission after a cache miss, alpha changed (43_encode.md R158, R162). -/
def putRgba (cur : Pixel) (s : State) : Except Stop State :=
  putBytes (encode (.rgba cur.r cur.g cur.b cur.a)) (store cur s)

end Sys2Proof.Machine
end

