-- ==== Sys2Proof/Machine/RunOps.lean ====
section
/-! DEFINITION. RUN: its meaning to the decoder (44_decode.md R187) and its emission by the encoder,
the flush (43_encode.md R155). -/

namespace Sys2Proof.Machine

/-- RUN (44_decode.md R187): n copies of the previous pixel. A run longer than the pixels still owed
is a fault and emits none of them (decision D5); the previous pixel and the cache are untouched. -/
def execRun (n : Nat) (s : State) : Outcome :=
  settle s
    (match consume 1 s with
     | .error e => .error e
     | .ok t =>
       if t.pxn < t.pxi + n then .error (.raise (.formatError .runOverrun))
       else emitMany t.prev n t)

/-- The flush (43_encode.md R155): the pending run becomes a RUN op and the counter is cleared. -/
def flush (s : State) : Except Stop State :=
  match putBytes (encode (.run s.run.toNat)) s with
  | .error e => .error e
  | .ok t => .ok (setRun 0 t)

end Sys2Proof.Machine
end

