-- ==== Sys2Proof/Machine/Container.lean ====
section
/-! DEFINITION. The container around the op stream: the header and the end marker, written by encode
and checked by decode (42_container.md; the pseudo-ops HEADER and END of 30_encoding.md R95). -/

namespace Sys2Proof.Machine

/-- `HEADER w, h, ch, cs`: the 14 bytes of a header (42_container.md R140, 30_encoding.md R95). -/
def headerBytes (w h : Word) (ch cs : Byte) : List Byte :=
  bytesBe32 Config.magic ++ bytesBe32 w ++ bytesBe32 h ++ [ch, cs]

/-- `END`: the 8 bytes of the end marker (42_container.md R145, 30_encoding.md R95). -/
def endBytes : List Byte := [0, 0, 0, 0, 0, 0, 0, 1]

/-- The limit of the implementation: `PXN > MAX_PIXELS` is a refusal, not a fault
(60_exceptions.md R226). -/
def checkLimit (impl : Impl) (n : Nat) : Except Stop Unit :=
  match impl.maxPixels with
  | none => .ok ()
  | some m => if m < n then .error (.refuse .overMaxPixels) else .ok ()

/-- `raise FormatError(c)` where a check of a decoded field fails. -/
def demand (ok : Bool) (c : FormatCause) : Except Stop Unit :=
  if ok then .ok () else .error (.raise (.formatError c))

/-- A channel count the format has (42_container.md R143). -/
def legalChannels (ch : Byte) : Bool := ch == 3#8 || ch == 4#8

/-- A colorspace tag the format has (42_container.md R144). -/
def legalColorspace (cs : Byte) : Bool := cs == 0#8 || cs == 1#8

/-- Writing the header (42_container.md R146). -/
def writeHeader (s : State) : Except Stop State := do
  let s ← put32 Config.magic s
  let s ← put32 s.width s
  let s ← put32 s.height s
  let s ← put8 s.channels s
  put8 s.colorspace s

/-- Appending the end marker (42_container.md R148). -/
def writeEndMarker (s : State) : Except Stop State := putBytes endBytes s

/-- Reading and checking the header, each field as soon as it is read (42_container.md R147,
decision D16). -/
def readHeader (s : State) : Except Stop State := do
  let (m, s) ← get32 s
  demand (m == Config.magic) .magic
  let (w, s) ← get32 s
  demand (w != 0) .width
  let (h, s) ← get32 s
  demand (h != 0) .height
  let (ch, s) ← get8 s
  demand (legalChannels ch) .channels
  let (cs, s) ← get8 s
  demand (legalColorspace cs) .colorspace
  checkLimit s.impl (pixelCount w h)
  return { s with
    width := w, height := h, channels := ch, colorspace := cs, pxn := pixelCount w h }

/-- Comparing the bytes at the cursor with expected ones, one at a time in stream order
(42_container.md R149). -/
def matchBytes : List Byte → State → Except Stop State
  | [], s => .ok s
  | v :: vs, s =>
    match get8 s with
    | .error e => .error e
    | .ok (b, t) =>
      if b ≠ v then .error (.raise (.formatError .endmarker)) else matchBytes vs t

/-- Verifying the end marker, then what may stand after it (42_container.md R149; decision D6 leaves
`TRAILING_BYTES` open). -/
def checkEndMarker (s : State) : Except Stop State :=
  match matchBytes endBytes s with
  | .error e => .error e
  | .ok t =>
    if t.pos ≠ t.len ∧ t.impl.trailingBytes = .fault then
      .error (.raise (.formatError .trailing))
    else .ok t

end Sys2Proof.Machine
end

