-- ==== Sys2Proof/Machine/EncodePass.lean ====
section
/-! DEFINITION. The encode pass, one step for each phase `HEAD` and `TAIL` and one step per pixel in
`BODY` (43_encode.md). -/

namespace Sys2Proof.Machine

/-- `raise InvalidArgument(c)` where a check of the operands fails. -/
def require (ok : Bool) (c : ArgCause) : Except Stop Unit :=
  if ok then .ok () else .error (.raise (.invalidArgument c))

/-- The argument checks, in order (43_encode.md R151; the 22-byte floor is not applied, decision
D20). -/
def checkArgs (impl : Impl) (a : Args) : Except Stop Unit := do
  require (a.width != 0) .width
  require (a.height != 0) .height
  require (legalChannels a.channels) .channels
  require (legalColorspace a.colorspace) .colorspace
  checkLimit impl (pixelCount a.width a.height)
  require (decide (pixelCount a.width a.height * a.channels.toNat ≤ a.plen)) .pixbufShort

/-- The header registers and `PXN` from the operands (43_encode.md R151, last lines). -/
def loadArgs (s : State) : State :=
  { s with
    width := s.args.width, height := s.args.height, channels := s.args.channels,
    colorspace := s.args.colorspace, pxn := pixelCount s.args.width s.args.height }

/-- The capacity of the write cursor (20_memory.md R61). -/
def capacity (pxn : Nat) (ch : Byte) : Nat :=
  pxn * (ch.toNat + 1) + Config.headerSize + Config.endSize

/-- Phase `HEAD` of encode: checks and initialisation (43_encode.md R151, R152). -/
def encHead (s : State) : Except Stop State := do
  checkArgs s.impl s.args
  let s := loadArgs s
  let s ← writeHeader (openWrite (capacity s.pxn s.channels) s)
  return setPhase .body (initWork s)

/-- A byte of the pixel buffer. -/
def pixelByte (s : State) (a : Nat) : Except Stop Byte :=
  match s.p.read a with
  | some v => .ok v
  | none => .error (.fault (.noByte a))

/-- Step 1, the next pixel; with 3 channels its alpha is the previous pixel's (43_encode.md R153,
41_pixelcolor.md R138). -/
def fetchPixel (s : State) : Except Stop Pixel := do
  let o := s.pxi * s.channels.toNat
  if s.channels = 4 then
    let r ← pixelByte s o
    let g ← pixelByte s (o + 1)
    let b ← pixelByte s (o + 2)
    let a ← pixelByte s (o + 3)
    return ⟨r, g, b, a⟩
  else if s.channels = 3 then
    let r ← pixelByte s o
    let g ← pixelByte s (o + 1)
    let b ← pixelByte s (o + 2)
    return ⟨r, g, b, s.prev.a⟩
  else throw (.fault .noPixelLayout)

/-- The op for a pixel that joins no run, and its cache store: index first, then on a miss small diff,
luma diff and literal in strict priority order (43_encode.md R156 to R163). -/
def putPixel (cur : Pixel) (s : State) : Except Stop State :=
  let d := delta cur s.prev
  if cacheHit cur s.cache then putIndex cur s
  else if diffFits d then putDiff d cur s
  else if lumaFits d then putLuma d cur s
  else if d.da = 0 then putRgb cur s
  else putRgba cur s

/-- Step 2, the run path: the run grows, and is flushed when it is full or the pixel is the last
(43_encode.md R154). -/
def runPath (s : State) : Except Stop State :=
  let t := setRun (s.run + 1) s
  if mustFlush t.run t.pxi t.pxn then flush t else .ok t

/-- A pending run is flushed before another op (43_encode.md R156). -/
def flushPending (s : State) : Except Stop State :=
  if s.run ≠ 0 then flush s else .ok s

/-- Step 3, the non-run path (43_encode.md R156). -/
def opPath (cur : Pixel) (s : State) : Except Stop State := do
  let s ← flushPending s
  putPixel cur s

/-- Steps 2 and 3: what the stream gets for a pixel (43_encode.md R154, R156). -/
def emitFor (cur : Pixel) (s : State) : Except Stop State :=
  if joinsRun cur s.prev then runPath s else opPath cur s

/-- Phase `TAIL` follows the last pixel (43_encode.md R164; 44_decode.md R182). -/
def enterTail (s : State) : State :=
  if s.phase = .body ∧ s.pxi = s.pxn then setPhase .tail s else s

/-- Step 4: the previous pixel advances on every path (43_encode.md R164). -/
def advance (cur : Pixel) (s : State) : State :=
  enterTail (setPxi (s.pxi + 1) (setPrev cur s))

/-- One pixel of the encode pass (43_encode.md R153 to R164). -/
def encPixel (s : State) : Except Stop State := do
  let cur ← fetchPixel s
  let t ← emitFor cur s
  return advance cur t

/-- Phase `BODY` of encode: `while PXI < PXN` (43_encode.md R166). -/
def encBody (s : State) : Except Stop State :=
  if s.pxi < s.pxn then encPixel s else .ok (setPhase .tail s)

/-- Phase `TAIL` of encode: the end marker, then `DONE` (43_encode.md R165). -/
def encTail (s : State) : Except Stop State := do
  let s ← writeEndMarker s
  return setPhase .done s

end Sys2Proof.Machine
end

