-- ==== Sys2Proof/Machine/DecodePass.lean ====
section
/-! DEFINITION. The decode pass, one step for each phase `HEAD` and `TAIL` and one step per op in
`BODY` (44_decode.md). -/

namespace Sys2Proof.Machine

/-- Phase `HEAD` of decode: the read cursor, the header, the output buffer of `PXN*4` bytes with no
byte written, and the initial registers (44_decode.md R181). -/
def decHead (s : State) : Except Stop State := do
  let s ← readHeader (openRead s.args.qlen s)
  return setPhase .body (initWork (setP [] s))

/-- The op at `POS`: the control byte is classified with `peek8`, its bytes are read with `read8`, and
the decoder reads the op from them. `POS` has not moved: the op's meaning consumes it
(44_decode.md R183, 40_bytecursor.md R120). -/
def fetchOp (s : State) : Except Stop Instr :=
  match peek8 s with
  | .error e => .error (readStop e)
  | .ok c =>
    match getBytes (opLength c) s with
    | .error e => .error e
    | .ok (bytes, _) =>
      match decode bytes with
      | .ok (i, _) => .ok i
      | .error _ => .error (.raise (.formatError .truncated))

/-- What the step adds around an op: phase `TAIL` once every pixel is produced (44_decode.md R182). -/
def afterOp : Outcome → Outcome
  | .next t => .next (enterTail t)
  | .fault f => .fault f
  | .refused r => .refused r

/-- Phase `BODY` of decode: `while PXI < PXN`, one op (44_decode.md R182, R183). -/
def decBody (s : State) : Outcome :=
  if s.pxi < s.pxn then
    match fetchOp s with
    | .ok i => afterOp (exec i s)
    | .error e => settle s (.error e)
  else .next (setPhase .tail s)

/-- Phase `TAIL` of decode: the end marker, then `DONE` (44_decode.md R191). -/
def decTail (s : State) : Except Stop State := do
  let s ← checkEndMarker s
  return setPhase .done s

end Sys2Proof.Machine
end

