-- ==== Sys2Proof/Machine/HostOps.lean ====
section
/-! DEFINITION. The host's side of the engine: the two START operations, the results it collects, the
engine's step over the phases (60_exceptions.md R223, R224), and how a test places one op. -/

namespace Sys2Proof.Machine

/-- A START is accepted in these phases (60_exceptions.md R223). -/
def startable (ph : Phase) : Bool := ph == .idle || ph == .done || ph == .fault

/-- `START_ENCODE(pix, PLEN, width, height, channels, colorspace)` (60_exceptions.md R223). -/
def startEncode (pix : List Byte) (w h : Word) (ch cs : Byte) (s : State) : State :=
  { s with
    mode := .enc, phase := .head, err := .none, p := Memory.ofBytes 0 pix,
    args := ⟨w, h, ch, cs, pix.length, s.args.qlen⟩ }

/-- `START_DECODE(qoi, QLEN)` (60_exceptions.md R223). -/
def startDecode (qoi : List Byte) (s : State) : State :=
  { s with
    mode := .dec, phase := .head, err := .none, q := Memory.ofBytes 0 qoi,
    args := { s.args with qlen := qoi.length } }

/-- A host operation. During a pass it has no meaning (70_reset_and_hazards.md R248). -/
def start (l : Launch) (s : State) : Except Stop State :=
  if startable s.phase then
    match l with
    | .startEncode pix w h ch cs => .ok (startEncode pix w h ch cs s)
    | .startDecode qoi => .ok (startDecode qoi s)
  else .error (.refuse .startDuringPass)

/-- What the host collects of a pass (60_exceptions.md R223). -/
inductive Result where
  /-- Encode: the bytes of `toOutput` (43_encode.md R165). -/
  | encoded (qoiBytes : List Byte)
  /-- Decode: pixel bytes, width, height, channel count, colorspace tag (44_decode.md R192). -/
  | decoded (pixelBytes : List Byte) (width height : Word) (channels colorspace : Byte)
  deriving DecidableEq, Repr

/-- The result of a pass: none before `DONE` and none at `FAULT` (44_decode.md R192,
70_reset_and_hazards.md R247). -/
def result (s : State) : Option Result :=
  if s.phase = .done then
    match s.mode with
    | .enc =>
      match toOutput s with
      | .ok bs => some (.encoded bs)
      | .error _ => none
    | .dec =>
      match s.p.readBytes 0 (4 * s.pxn) with
      | some bs => some (.decoded bs s.width s.height s.channels s.colorspace)
      | none => none
  else none

/-- No step of the engine is enabled in `IDLE`, `DONE` or `FAULT`; the host's oldest launch, if there
is one, starts a pass (60_exceptions.md R218, R223, R224). -/
def idleStep (s : State) : Outcome :=
  match s.launches with
  | [] => .fault .noStep
  | l :: ls => settle s (start l { s with launches := ls })

/-- One step: exactly one is enabled in `HEAD`, `BODY` and `TAIL` (60_exceptions.md R224). -/
def engineStep (s : State) : Outcome :=
  match s.phase, s.mode with
  | .head, .enc => settle s (encHead s)
  | .body, .enc => settle s (encBody s)
  | .tail, .enc => settle s (encTail s)
  | .head, .dec => settle s (decHead s)
  | .body, .dec => decBody s
  | .tail, .dec => settle s (decTail s)
  | .idle, _ => idleStep s
  | .done, _ => idleStep s
  | .fault, _ => idleStep s

/-- `s` with a decode pass begun over the buffer `HEADER 62, 1, 4, 0` followed by `bytes`, its header
read: phase `BODY`, `POS` = 14, and 62 pixels owed, so that the longest RUN is not an overrun
(notes/assumptions/5.md). -/
def placeOp (s : State) (bytes : List Byte) : State :=
  { s with
    width := 62, height := 1, channels := 4, colorspace := 0, pxn := 62, pxi := 0,
    pos := Config.headerSize, len := Config.headerSize + bytes.length, cmode := .read,
    mode := .dec, phase := .body, err := .none, p := [],
    q := Memory.ofBytes 0 (headerBytes 62 1 4 0 ++ bytes) }

end Sys2Proof.Machine
end

