-- ==== Sys2Proof/Machine/Step.lean ====
section
/-! DEFINITION. The step of the machine, and the placing of one instruction for a test. -/

namespace Sys2Proof.Machine

/-- One step of the engine, or the host's START where no pass runs (60_exceptions.md R224). -/
def step (s : State) : Host.Outcome State Fault Refusal := engineStep s

/-- `s` with the instruction of `nbits` bits `w`, numbered as spec/opcode_table.json numbers it, as
the next op that `step` fetches. -/
def State.withFetchWord (s : State) (nbits w : Nat) : State := placeOp s (tableBytes nbits w)

end Sys2Proof.Machine
end

