-- ==== Sys2Proof/Safety.lean ====
section
/-! DEFINITION. What counts as a safe run: the invariant of the engine, and the words the statements
are made of. Each part of the invariant evaluates on a concrete state. -/

namespace Sys2Proof.Machine

/-! ### Phases -/

/-- A pass runs (60_exceptions.md R224). -/
def running (ph : Phase) : Bool := ph == .head || ph == .body || ph == .tail

/-- The header registers are loaded: the pass is past `HEAD` and has not failed (10_state.md R30). -/
def loaded (ph : Phase) : Bool := ph == .body || ph == .tail || ph == .done

/-- The cursor's mode in a pass (10_state.md R38). -/
def cursorMode : Mode → CMode
  | .enc => .write
  | .dec => .read

/-- The faults a host can meet: `InvalidArgument` from encode and `FormatError` from decode, never
`LUMA_RANGE` (60_exceptions.md R210, R213, R215). -/
def errOf : Mode → Err → Bool
  | _, .none                          => true
  | .enc, .invalidArgument _          => true
  | .dec, .formatError .lumaRange     => false
  | .dec, .formatError _              => true
  | _, _                              => false

/-! ### The invariant -/

/-- Both spaces are in canonical form. -/
abbrev MemoryOk (s : State) : Prop := s.q.wf = true ∧ s.p.wf = true

/-- `ERR` holds a fault exactly in phase `FAULT`, and one of the pass's own kind (10_state.md R34,
60_exceptions.md R210). -/
abbrev ErrOk (s : State) : Prop :=
  (s.err = .none ↔ s.phase ≠ .fault) ∧ errOf s.mode s.err = true

/-- The header registers hold legal values, and `PXN` their product within the limit (10_state.md R30,
R31). -/
abbrev HeaderOk (s : State) : Prop :=
  loaded s.phase = true →
    s.width ≠ 0 ∧ s.height ≠ 0 ∧ legalChannels s.channels = true ∧
    legalColorspace s.colorspace = true ∧ s.pxn = pixelCount s.width s.height ∧
    checkLimit s.impl s.pxn = .ok ()

/-- Pixels are owed in `BODY` and none after it (44_decode.md R182, 43_encode.md R164). -/
abbrev CountOk (s : State) : Prop :=
  (s.phase = .body → s.pxi < s.pxn) ∧ ((s.phase = .tail ∨ s.phase = .done) → s.pxi = s.pxn)

/-- The cursor is the pass's, past the header and inside its buffer (10_state.md R32, R33). -/
abbrev CursorOk (s : State) : Prop :=
  loaded s.phase = true →
    s.cmode = cursorMode s.mode ∧ Config.headerSize ≤ s.pos ∧ s.pos ≤ s.len

/-- Every byte of the pass's input has a value (70_reset_and_hazards.md R243). -/
abbrev InputOk (s : State) : Prop :=
  (s.mode = .enc → s.phase = .head → (s.p.readBytes 0 s.args.plen).isSome = true) ∧
  (s.mode = .enc → loaded s.phase = true →
    (s.p.readBytes 0 (s.pxn * s.channels.toNat)).isSome = true) ∧
  (s.mode = .dec → s.phase = .head → (s.q.readBytes 0 s.args.qlen).isSome = true) ∧
  (s.mode = .dec → loaded s.phase = true → (s.q.readBytes 0 s.len).isSome = true)

/-- Every byte of the output so far has a value: `POS` bytes of a stream, four bytes of each pixel
produced (20_memory.md R63). -/
abbrev OutputOk (s : State) : Prop :=
  loaded s.phase = true →
    (s.mode = .enc → (s.q.readBytes 0 s.pos).isSome = true) ∧
    (s.mode = .dec → (s.p.readBytes 0 (4 * s.pxi)).isSome = true)

/-- Between two encoder steps `RUN` is in 0..61, and no run is pending after the last pixel
(10_state.md R29, 43_encode.md R165). -/
abbrev RunOk (s : State) : Prop :=
  s.mode = .enc → loaded s.phase = true → s.run.toNat ≤ 61 ∧ (s.phase ≠ .body → s.run = 0)

/-- The write buffer has room for the worst case of what is still to come: the pending run, every
pixel left, the end marker (20_memory.md R61, R62). -/
abbrev RoomOk (s : State) : Prop :=
  s.mode = .enc →
    (s.phase = .body →
      s.pos + (if s.run = 0 then 0 else 1) + (s.pxn - s.pxi) * (s.channels.toNat + 1)
        + Config.endSize ≤ s.len) ∧
    (s.phase = .tail → s.pos + Config.endSize ≤ s.len)

/-- With three channels alpha stays 255 throughout an encode (41_pixelcolor.md R138). -/
abbrev AlphaOk (s : State) : Prop :=
  s.mode = .enc → s.phase = .body → s.channels = 3 → s.prev.a = 255

/-- The invariant of the engine. -/
abbrev EngineInv (s : State) : Prop :=
  MemoryOk s ∧ ErrOk s ∧ HeaderOk s ∧ CountOk s ∧ CursorOk s ∧ InputOk s ∧ OutputOk s ∧
  RunOk s ∧ RoomOk s ∧ AlphaOk s

/-! ### Words for what an op does -/

/-- The step from `s` takes the fault `e` (60_exceptions.md R217): `PHASE` and `ERR` are set, the content
of the output buffer is whatever the model makes it, and nothing else changes. -/
def TakesFault (e : Err) (s : State) (o : Outcome) : Prop :=
  ∃ output : Memory,
    (s.mode = .enc → o = .next { s with phase := .fault, err := e, q := output }) ∧
    (s.mode = .dec → o = .next { s with phase := .fault, err := e, p := output })

/-- Pixel `i` of a decoded image (20_memory.md R54). -/
def pixelAt (m : Memory) (i : Nat) : Option (List Byte) := m.readBytes (4 * i) 4

/-- From `s` to `t` the pixels `i` with `s.pxi ≤ i < s.pxi + n` of space P were written, each as `px`,
and every other byte reads as before. -/
def WritesPixels (px : Pixel) (n : Nat) (s t : State) : Prop :=
  (∀ i, s.pxi ≤ i → i < s.pxi + n → pixelAt t.p i = some [px.r, px.g, px.b, px.a]) ∧
  (∀ a, (a < 4 * s.pxi ∨ 4 * (s.pxi + n) ≤ a) → t.p.read a = s.p.read a)

/-- From `s` to `t` slot `i` of the cache became `px` and every other slot is as before. -/
def WritesSlot (i : Fin 64) (px : Pixel) (s t : State) : Prop :=
  t.cache.get i = px ∧ ∀ j, j ≠ i → t.cache.get j = s.cache.get j

/-- The decoder's registers other than `PREV`, `CACHE`, `PXI`, `POS` and space P, all unchanged: what
no op of the decode pass writes. -/
def KeepsTheRest (s t : State) : Prop :=
  t = { s with prev := t.prev, cache := t.cache, pxi := t.pxi, pos := t.pos, p := t.p }

/-- An op of `n` bytes produced the one pixel `px`: it is emitted and becomes the previous pixel. -/
def Produces (n : Nat) (px : Pixel) (s t : State) : Prop :=
  WritesPixels px 1 s t ∧ t.prev = px ∧ t.pxi = s.pxi + 1 ∧ t.pos = s.pos + n ∧ KeepsTheRest s t

/-- The decoder can execute an op of `n` bytes that produces one pixel: the bytes are there and a
pixel is owed (44_decode.md R182, R193). -/
def Ready (n : Nat) (s : State) : Prop := s.cmode = .read ∧ s.pos + n ≤ s.len ∧ s.pxi < s.pxn

/-- A decode pass is about to execute an op. -/
def Decoding (s : State) : Prop :=
  s.phase = .body ∧ s.mode = .dec ∧ s.cmode = .read ∧ s.pxi < s.pxn

/-- An encode pass is about to encode the pixel `cur`, with at least `n` bytes of its buffer left. -/
def Encoding (cur : Pixel) (n : Nat) (s : State) : Prop :=
  s.phase = .body ∧ s.mode = .enc ∧ s.cmode = .write ∧ s.pxi < s.pxn ∧
  fetchPixel s = .ok cur ∧ s.pos + n ≤ s.len

/-- From `s` to `t` the bytes `bs` were written to space Q at `POS`, which moved past them, and every
other byte of Q reads as before. -/
def AppendsBytes (bs : List Byte) (s t : State) : Prop :=
  t.q.readBytes s.pos bs.length = some bs ∧ t.pos = s.pos + bs.length ∧
  ∀ a, (a < s.pos ∨ s.pos + bs.length ≤ a) → t.q.read a = s.q.read a

/-- The encoder's registers other than `PREV`, `CACHE`, `RUN`, `PXI`, `POS`, `PHASE` and space Q, all
unchanged. -/
def EncKeepsTheRest (s t : State) : Prop :=
  t = { s with
    prev := t.prev, cache := t.cache, run := t.run, pxi := t.pxi, pos := t.pos, phase := t.phase,
    q := t.q }

/-- The pixel is consumed: it becomes the previous one, and the pass goes to `TAIL` after the last
(43_encode.md R164). -/
def ConsumesPixel (cur : Pixel) (s t : State) : Prop :=
  t.prev = cur ∧ t.pxi = s.pxi + 1 ∧ t.phase = (if s.pxi + 1 = s.pxn then .tail else .body)

/-- The RUN op that a pixel outside the run flushes first, or nothing (43_encode.md R156). -/
def pendingRun (s : State) : List Byte :=
  if s.run = 0 then [] else [0xC0#8 ||| BitVec.ofNat 8 (s.run.toNat - 1)]

/-- The op of R156 to R163 for a pixel that joins no run: the first that qualifies, in the order index,
small diff, luma diff, literal. -/
def firstFittingOp (cur prev : Pixel) (cache : Vector Pixel 64) : Instr :=
  let d := delta cur prev
  if cache.get (hash cur) = cur then .index (hash cur)
  else if d.da = 0 ∧ (-2 ≤ d.dr ∧ d.dr ≤ 1) ∧ (-2 ≤ d.dg ∧ d.dg ≤ 1) ∧ (-2 ≤ d.db ∧ d.db ≤ 1) then
    .diff d.dr d.dg d.db
  else if d.da = 0 ∧ (-32 ≤ d.dg ∧ d.dg ≤ 31) ∧ (-8 ≤ d.dr - d.dg ∧ d.dr - d.dg ≤ 7) ∧
      (-8 ≤ d.db - d.dg ∧ d.db - d.dg ≤ 7) then
    .luma d.dg (d.dr - d.dg) (d.db - d.dg)
  else if d.da = 0 then .rgb cur.r cur.g cur.b
  else .rgba cur.r cur.g cur.b cur.a

/-- How many pixels an op accounts for (44_decode.md R198). -/
def pixelsOf : Instr → Nat
  | .run n => n
  | .index _ => 1
  | .diff _ _ _ => 1
  | .luma _ _ _ => 1
  | .rgb _ _ _ => 1
  | .rgba _ _ _ _ => 1

/-- The launched pass is over an image of `w` by `h` pixels: by its operands in encode, by the header of
its stream in decode (43_encode.md R151, 42_container.md R140). -/
def LaunchedSize (w h : Word) (s : State) : Prop :=
  (s.mode = .enc → s.args.width = w ∧ s.args.height = h) ∧
  (s.mode = .dec → s.q.readBytes 4 8 = some (bytesBe32 w ++ bytesBe32 h))

/-- The pixels of an input buffer expanded to four channels, alpha 255 where there are three
(44_decode.md R196). -/
def expand (ch : Byte) : List Byte → List Byte
  | r :: g :: b :: rest =>
    if ch = 3 then r :: g :: b :: 255 :: expand ch rest
    else
      match rest with
      | a :: rest => r :: g :: b :: a :: expand ch rest
      | [] => []
  | _ => []

end Sys2Proof.Machine
end

