-- ==== Sys2Proof/Certificates/Slice0/Obligations.lean ====
section
/-! DEFINITION. The statements for the provers. Each docstring names the rule of spec/ it formalises. -/

open Sys2Proof Sys2Proof.Machine

/-! ### Encoding and decoding of ops -/

/-- 30_encoding.md R94 with R89: the encoding of a well-formed op, whatever bytes follow it, decodes to
that op and leaves the bytes that follow. -/
def Obligations.DecodeOfEncodeGivesTheOp : Prop :=
  ∀ (i : Instr) (rest : List Byte), i.wellFormed = true → decode (encode i ++ rest) = .ok (i, rest)

/-- 30_encoding.md R89, R91: whatever op is read from bytes is well formed, has as many bytes as its
control byte says, and its encoding is exactly the bytes read. -/
def Obligations.EncodeOfDecodeGivesTheBytes : Prop :=
  ∀ (c : Byte) (bs rest : List Byte) (i : Instr), decode (c :: bs) = .ok (i, rest) →
    i.wellFormed = true ∧ encode i ++ rest = c :: bs ∧ i.length = opLength c

/-- 30_encoding.md R82, R91: an op is read from any control byte; the decoder rejects a list of bytes
only when payload bytes are missing, or when there is no control byte. -/
def Obligations.DecodeRejectsOnlyMissingBytes : Prop :=
  (∃ e, decode [] = .error e) ∧
  ∀ (c : Byte) (bs : List Byte), (∃ e, decode (c :: bs) = .error e) ↔ bs.length + 1 < opLength c

/-- 30_encoding.md R82: the six conditions on the control byte are the six ranges of byte values, so
exactly one holds of every byte, and the op that is read from bytes is the one of its range. -/
def Obligations.ControlByteRanges : Prop :=
  (∀ c : Byte,
    (isIndex c = decide (c.toNat ≤ 0x3F)) ∧
    (isDiff c = decide (0x40 ≤ c.toNat ∧ c.toNat ≤ 0x7F)) ∧
    (isLuma c = decide (0x80 ≤ c.toNat ∧ c.toNat ≤ 0xBF)) ∧
    (isRun c = decide (0xC0 ≤ c.toNat ∧ c.toNat ≤ 0xFD)) ∧
    (isRGB c = decide (c.toNat = 0xFE)) ∧
    (isRGBA c = decide (c.toNat = 0xFF))) ∧
  ∀ (c : Byte) (bs rest : List Byte) (i : Instr), decode (c :: bs) = .ok (i, rest) →
    i.mnemonic =
      if c.toNat ≤ 0x3F then "INDEX" else if c.toNat ≤ 0x7F then "DIFF"
      else if c.toNat ≤ 0xBF then "LUMA" else if c.toNat ≤ 0xFD then "RUN"
      else if c.toNat = 0xFE then "RGB" else "RGBA"

/-- Words written out from the formats of 30_encoding.md R83 to R88 decode to their ops. -/
def Obligations.SpecWordsDecode : Prop :=
  decodeTableWord 8 0b00010010 = some (.index 18) ∧
  decodeTableWord 8 0b01110010 = some (.diff 1 (-2) 0) ∧
  decodeTableWord 16 0b0101111110110100 = some (.luma 20 (-3) 7) ∧
  decodeTableWord 8 0b11111101 = some (.run 62) ∧
  decodeTableWord 32 0x1EC80AFE = some (.rgb 10 200 30) ∧
  decodeTableWord 40 0x80C89664FF = some (.rgba 100 150 200 128)

/-! ### The six ops of the decode pass -/

/-- 44_decode.md R186: how the byte is read, what INDEX does where a pixel is owed and the byte is there,
and truncation. Everything not named in `Produces` and in the cache clause is unchanged. -/
def Obligations.IndexEmitsTheSlot : Prop :=
  (∀ (c : Byte) (rest : List Byte), c.toNat ≤ 0x3F →
    ∃ slot : Fin 64, decode (c :: rest) = .ok (.index slot, rest) ∧ slot.val = c.toNat) ∧
  ∀ (slot : Fin 64) (s : State),
    (Ready 1 s →
      ∃ t, exec (.index slot) s = .next t ∧ Produces 1 (s.cache.get slot) s t ∧ t.cache = s.cache) ∧
    (s.cmode = .read → s.len < s.pos + 1 →
      TakesFault (.formatError .truncated) s (exec (.index slot) s))

/-- 44_decode.md R188. Each colour channel is the previous one plus its delta modulo 256, alpha is the
previous alpha, and the pixel is stored at its hash. The field places and the wrap are the spec's
decisions D1 and D4. -/
def Obligations.DiffAddsItsDeltas : Prop :=
  (∀ (c : Byte) (rest : List Byte), 0x40 ≤ c.toNat → c.toNat ≤ 0x7F →
    decode (c :: rest) = .ok (.diff ((c.toNat / 16 % 4 : Nat) - 2) ((c.toNat / 4 % 4 : Nat) - 2)
      ((c.toNat % 4 : Nat) - 2), rest)) ∧
  ∀ (dr dg db : Int) (s : State),
    (Ready 1 s →
      ∃ px t, exec (.diff dr dg db) s = .next t ∧ Produces 1 px s t ∧
        WritesSlot (Machine.hash px) px s t ∧
        (px.r.toNat : Int) = (s.prev.r.toNat + dr) % 256 ∧
        (px.g.toNat : Int) = (s.prev.g.toNat + dg) % 256 ∧
        (px.b.toNat : Int) = (s.prev.b.toNat + db) % 256 ∧ px.a = s.prev.a) ∧
    (s.cmode = .read → s.len < s.pos + 1 →
      TakesFault (.formatError .truncated) s (exec (.diff dr dg db) s))

/-- 44_decode.md R189. Red and blue move by the green delta plus their own relative one. The field places
and the wrap are the spec's decisions D2 and D4. -/
def Obligations.LumaAddsItsDeltas : Prop :=
  (∀ (c d : Byte) (rest : List Byte), 0x80 ≤ c.toNat → c.toNat ≤ 0xBF →
    decode (c :: d :: rest) = .ok (.luma ((c.toNat % 64 : Nat) - 32) ((d.toNat / 16 : Nat) - 8)
      ((d.toNat % 16 : Nat) - 8), rest)) ∧
  ∀ (dg drg dbg : Int) (s : State),
    (Ready 2 s →
      ∃ px t, exec (.luma dg drg dbg) s = .next t ∧ Produces 2 px s t ∧
        WritesSlot (Machine.hash px) px s t ∧
        (px.r.toNat : Int) = (s.prev.r.toNat + (dg + drg)) % 256 ∧
        (px.g.toNat : Int) = (s.prev.g.toNat + dg) % 256 ∧
        (px.b.toNat : Int) = (s.prev.b.toNat + (dg + dbg)) % 256 ∧ px.a = s.prev.a) ∧
    (s.cmode = .read → s.len < s.pos + 2 →
      TakesFault (.formatError .truncated) s (exec (.luma dg drg dbg) s))

/-- 44_decode.md R187. A run that fits is emitted whole; one that does not is a fault; the previous
pixel and the cache are untouched. The overrun fault is the spec's decision D5. -/
def Obligations.RunRepeatsPreviousOrOverruns : Prop :=
  (∀ (c : Byte) (rest : List Byte), 0xC0 ≤ c.toNat → c.toNat ≤ 0xFD →
    decode (c :: rest) = .ok (.run (c.toNat % 64 + 1), rest)) ∧
  ∀ (n : Nat) (s : State),
    (s.cmode = .read → s.pos + 1 ≤ s.len → s.pxi + n ≤ s.pxn →
      ∃ t, exec (.run n) s = .next t ∧ WritesPixels s.prev n s t ∧ t.prev = s.prev ∧
        t.cache = s.cache ∧ t.pxi = s.pxi + n ∧ t.pos = s.pos + 1 ∧ KeepsTheRest s t) ∧
    (s.cmode = .read → s.pos + 1 ≤ s.len → s.pxn < s.pxi + n →
      TakesFault (.formatError .runOverrun) s (exec (.run n) s)) ∧
    (s.cmode = .read → s.len < s.pos + 1 →
      TakesFault (.formatError .truncated) s (exec (.run n) s))

/-- 44_decode.md R185. Alpha is the previous pixel's. -/
def Obligations.RgbEmitsRawColour : Prop :=
  (∀ (r g b : Byte) (rest : List Byte),
    decode (0xFE :: r :: g :: b :: rest) = .ok (.rgb r g b, rest)) ∧
  ∀ (r g b : Byte) (s : State),
    (Ready 4 s →
      ∃ t, exec (.rgb r g b) s = .next t ∧ Produces 4 ⟨r, g, b, s.prev.a⟩ s t ∧
        WritesSlot (Machine.hash ⟨r, g, b, s.prev.a⟩) ⟨r, g, b, s.prev.a⟩ s t) ∧
    (s.cmode = .read → s.len < s.pos + 4 →
      TakesFault (.formatError .truncated) s (exec (.rgb r g b) s))

/-- 44_decode.md R184. -/
def Obligations.RgbaEmitsTheRawPixel : Prop :=
  (∀ (r g b a : Byte) (rest : List Byte),
    decode (0xFF :: r :: g :: b :: a :: rest) = .ok (.rgba r g b a, rest)) ∧
  ∀ (r g b a : Byte) (s : State),
    (Ready 5 s →
      ∃ t, exec (.rgba r g b a) s = .next t ∧ Produces 5 ⟨r, g, b, a⟩ s t ∧
        WritesSlot (Machine.hash ⟨r, g, b, a⟩) ⟨r, g, b, a⟩ s t) ∧
    (s.cmode = .read → s.len < s.pos + 5 →
      TakesFault (.formatError .truncated) s (exec (.rgba r g b a) s))

/-- 10_state.md R24, R26, R21: what no op of the decode pass writes, whether it completes or takes a
fault. RUN keeps the previous pixel and the cache, INDEX keeps the cache, and space Q, the input, is
never written. -/
def Obligations.OpsLeaveTheRestAlone : Prop :=
  ∀ (i : Instr) (s t : State), exec i s = .next t →
    t.run = s.run ∧ t.width = s.width ∧ t.height = s.height ∧ t.channels = s.channels ∧
    t.colorspace = s.colorspace ∧ t.pxn = s.pxn ∧ t.len = s.len ∧ t.cmode = s.cmode ∧
    t.mode = s.mode ∧ t.args = s.args ∧ t.impl = s.impl ∧ t.launches = s.launches ∧
    (s.mode = .dec → t.q = s.q) ∧
    (t.phase = s.phase ∧ t.err = s.err ∨ t.phase = .fault ∧ t.err ≠ .none) ∧
    (∀ n, i = .run n → t.prev = s.prev ∧ t.cache = s.cache) ∧
    (∀ slot, i = .index slot → t.cache = s.cache)

/-- 40_bytecursor.md R112, 60_exceptions.md R213: an op executed on a write cursor takes the fatal
assertion, whatever the op. -/
def Obligations.OpOnWriteCursorIsAFatalAssertion : Prop :=
  ∀ (i : Instr) (s : State), s.cmode = .write →
    TakesFault (.fatalAssertion .invalidOperation) s (exec i s)

/-- 44_decode.md R190. The stop is the model's (notes/assumptions/7.md): with no pixel owed, an op that
produces one pixel has no address to write and the machine stops. -/
def Obligations.OnePixelOpPastTheImageStops : Prop :=
  ∀ (i : Instr) (s : State), (∀ n, i ≠ .run n) → s.cmode = .read → s.pos + i.length ≤ s.len →
    s.pxn ≤ s.pxi → exec i s = .fault .pastImage

/-! ### The body of the decode pass -/

/-- 44_decode.md R183, 40_bytecursor.md R120: a body step executes the op that the bytes at `POS`
decode to; around it the step only enters phase `TAIL` when the last pixel has been produced
(R182). -/
def Obligations.StepExecutesTheDecodedOp : Prop :=
  ∀ (s : State) (bs : List Byte) (i : Instr), Decoding s → s.pos + bs.length ≤ s.len →
    s.q.readBytes s.pos bs.length = some bs → decode bs = .ok (i, []) →
    step s =
      match exec i s with
      | .next t => .next (if t.phase = .body ∧ t.pxi = t.pxn then setPhase .tail t else t)
      | .fault f => .fault f
      | .refused r => .refused r

/-- 44_decode.md R193: where the bytes left in the buffer are too few to hold an op, the body step
raises `FormatError(TRUNCATED)`. -/
def Obligations.TruncatedOpRaisesTruncated : Prop :=
  ∀ (s : State) (bs : List Byte), Decoding s → s.pos ≤ s.len →
    s.q.readBytes s.pos (s.len - s.pos) = some bs → (∃ e, decode bs = .error e) →
    TakesFault (.formatError .truncated) s (step s)

/-- 44_decode.md R198, R182: a body step that does not fault emits 1 to 62 pixels, never past the
image, and the pass is in `TAIL` exactly when all are produced. -/
def Obligations.DecodeStepEmits1To62Pixels : Prop :=
  ∀ s t : State, Decoding s → step s = .next t → t.phase ≠ .fault →
    s.pxi + 1 ≤ t.pxi ∧ t.pxi ≤ s.pxi + 62 ∧ t.pxi ≤ t.pxn ∧
    t.phase = (if t.pxi = t.pxn then .tail else .body)

/-- 44_decode.md R194: `CHANNELS` does not steer the decoder. A body or tail step with another channel
count does the same and keeps that count. -/
def Obligations.ChannelsDoNotSteerTheDecoder : Prop :=
  ∀ (s t : State) (c : Byte), s.mode = .dec → (s.phase = .body ∨ s.phase = .tail) →
    step s = .next t → step { s with channels := c } = .next { t with channels := c }

/-! ### Cursor and pixel arithmetic -/

/-- 40_bytecursor.md R113, R114: `read8` and `peek8` fail alike and return the same byte; `read8` moves
`POS` by one and `peek8` returns no new state. The bound is the spec's decision D17. -/
def Obligations.PeekAndReadReturnTheSameByte : Prop :=
  ∀ s : State,
    (s.cmode = .write → read8 s = .error .invalidOperation ∧ peek8 s = .error .invalidOperation) ∧
    (s.cmode = .read → s.len < s.pos + 1 →
      read8 s = .error .outOfRange ∧ peek8 s = .error .outOfRange) ∧
    (∀ v, s.cmode = .read → s.pos + 1 ≤ s.len → s.q.read s.pos = some v →
      read8 s = .ok (v, { s with pos := s.pos + 1 }) ∧ peek8 s = .ok v)

/-- 40_bytecursor.md R115: four bytes, most significant first, as an unsigned number; with fewer left
the read fails whole (the spec's decision D17). -/
def Obligations.Read32IsBigEndian : Prop :=
  ∀ s : State,
    (s.cmode = .write → read32 s = .error .invalidOperation) ∧
    (s.cmode = .read → s.len < s.pos + 4 → read32 s = .error .outOfRange) ∧
    (∀ b0 b1 b2 b3, s.cmode = .read → s.pos + 4 ≤ s.len →
      s.q.readBytes s.pos 4 = some [b0, b1, b2, b3] →
      ∃ w, read32 s = .ok (w, { s with pos := s.pos + 4 }) ∧
        w.toNat = b0.toNat * 2 ^ 24 + b1.toNat * 2 ^ 16 + b2.toNat * 2 ^ 8 + b3.toNat)

/-- 40_bytecursor.md R117: the four bytes are stored most significant first, and nothing else of space
Q changes. The bound is the spec's decision D18. -/
def Obligations.Write32IsBigEndian : Prop :=
  ∀ (v : Word) (s : State),
    (s.cmode = .read → write32 v s = .error .invalidOperation) ∧
    (s.cmode = .write → s.len < s.pos + 4 → write32 v s = .error .outOfRange) ∧
    (s.cmode = .write → s.pos + 4 ≤ s.len →
      ∃ t b0 b1 b2 b3, write32 v s = .ok t ∧ AppendsBytes [b0, b1, b2, b3] s t ∧
        t = { s with q := t.q, pos := t.pos } ∧
        b0.toNat = v.toNat / 2 ^ 24 ∧ b1.toNat = v.toNat / 2 ^ 16 % 256 ∧
        b2.toNat = v.toNat / 2 ^ 8 % 256 ∧ b3.toNat = v.toNat % 256)

/-- 40_bytecursor.md R116: the byte is stored at `POS`, which moves by one, and nothing else changes. The
bound is the spec's decision D18. -/
def Obligations.Write8StoresAtPos : Prop :=
  ∀ (v : Byte) (s : State),
    (s.cmode = .read → write8 v s = .error .invalidOperation) ∧
    (s.cmode = .write → s.len < s.pos + 1 → write8 v s = .error .outOfRange) ∧
    (s.cmode = .write → s.pos + 1 ≤ s.len →
      ∃ t, write8 v s = .ok t ∧ AppendsBytes [v] s t ∧ t = { s with q := t.q, pos := t.pos })

/-- 40_bytecursor.md R118: on a write cursor `toOutput` gives the first `POS` bytes of Q and no more. -/
def Obligations.ToOutputGivesTheBytesWritten : Prop :=
  ∀ (s : State) (bs : List Byte), s.cmode = .write → s.q.readBytes 0 s.pos = some bs →
    toOutput s = .ok bs ∧ bs.length = s.pos

/-- 41_pixelcolor.md R132: the hash of a pixel, and the bound of its sum. -/
def Obligations.HashIsTheWeightedSum : Prop :=
  ∀ p : Pixel, (Machine.hash p).val =
      (p.r.toNat * 3 + p.g.toNat * 5 + p.b.toNat * 7 + p.a.toNat * 11) % 64 ∧
    p.r.toNat * 3 + p.g.toNat * 5 + p.b.toNat * 7 + p.a.toNat * 11 ≤ 6630

/-- 41_pixelcolor.md R134, R136, R137: a delta lies in -255..255 in every channel, and adding it to the
pixel it was formed against gives the current pixel back wherever alpha is unchanged: no sum wraps. -/
def Obligations.AddingTheDeltaGivesThePixelBack : Prop :=
  ∀ cur prev : Pixel,
    (∀ x, (x = (delta cur prev).dr ∨ x = (delta cur prev).dg ∨ x = (delta cur prev).db ∨
      x = (delta cur prev).da) → -255 ≤ x ∧ x ≤ 255) ∧
    (cur.a = prev.a ↔ (delta cur prev).da = 0) ∧
    (cur.a = prev.a →
      addWrap prev (delta cur prev).dr (delta cur prev).dg (delta cur prev).db = cur)

/-! ### Faults -/

/-- 60_exceptions.md R217: taking a fault sets `PHASE` and `ERR` and leaves no result, and the input
buffer and every other register are unchanged. That no byte of the output buffer keeps a value is the
model's choice (notes/assumptions/6.md). -/
def Obligations.TakingAFault : Prop :=
  ∀ (e : Err) (s : State),
    (takeFault e s).phase = .fault ∧ (takeFault e s).err = e ∧ result (takeFault e s) = none ∧
    (s.mode = .enc → takeFault e s = { s with phase := .fault, err := e, q := [] }) ∧
    (s.mode = .dec → takeFault e s = { s with phase := .fault, err := e, p := [] })

/-- 60_exceptions.md R214: the numeric codes of kinds and causes, which are the spec's decision D11. -/
def Obligations.FaultCodes : Prop :=
  kindCode .none = 0 ∧ causeCode .none = 0 ∧ (∀ c, kindCode (.invalidArgument c) = 1) ∧
  (∀ c, kindCode (.formatError c) = 2) ∧ (∀ c, kindCode (.fatalAssertion c) = 3) ∧
  causeCode (.invalidArgument .width) = 1 ∧ causeCode (.invalidArgument .height) = 2 ∧
  causeCode (.invalidArgument .pixbufShort) = 3 ∧ causeCode (.invalidArgument .channels) = 4 ∧
  causeCode (.invalidArgument .colorspace) = 5 ∧
  causeCode (.formatError .magic) = 1 ∧ causeCode (.formatError .width) = 2 ∧
  causeCode (.formatError .height) = 3 ∧ causeCode (.formatError .channels) = 4 ∧
  causeCode (.formatError .colorspace) = 5 ∧ causeCode (.formatError .truncated) = 6 ∧
  causeCode (.formatError .endmarker) = 7 ∧ causeCode (.formatError .runOverrun) = 8 ∧
  causeCode (.formatError .trailing) = 9 ∧ causeCode (.formatError .lumaRange) = 10 ∧
  causeCode (.fatalAssertion .invalidOperation) = 1 ∧ causeCode (.fatalAssertion .outOfRange) = 2

/-! ### The head and the tail of the decode pass -/

/-- 42_container.md R147, 44_decode.md R181: the header fields are checked in stream order, each as soon
as it is read, and the first that fails decides the cause; a header that passes loads the registers,
and the pass enters `BODY` with its working registers at their initial values and no output byte
written. The order of the checks is the spec's decision D16. -/
def Obligations.DecodeHeaderChecksInOrder : Prop :=
  ∀ (s : State) (m w h : Word) (ch cs : Byte),
    s.phase = .head → s.mode = .dec → 14 ≤ s.args.qlen →
    s.q.readBytes 0 14 = some (bytesBe32 m ++ bytesBe32 w ++ bytesBe32 h ++ [ch, cs]) →
    if m ≠ 0x716F6966#32 then TakesFault (.formatError .magic) s (step s)
    else if w = 0 then TakesFault (.formatError .width) s (step s)
    else if h = 0 then TakesFault (.formatError .height) s (step s)
    else if ch ≠ 3 ∧ ch ≠ 4 then TakesFault (.formatError .channels) s (step s)
    else if cs ≠ 0 ∧ cs ≠ 1 then TakesFault (.formatError .colorspace) s (step s)
    else if ∃ k, s.impl.maxPixels = some k ∧ k < w.toNat * h.toNat then
      step s = .refused .overMaxPixels
    else
      step s = .next { s with
        prev := ⟨0, 0, 0, 255⟩, cache := Vector.replicate 64 ⟨0, 0, 0, 0⟩, run := 0,
        width := w, height := h, channels := ch, colorspace := cs,
        pxn := w.toNat * h.toNat, pxi := 0, pos := 14, len := s.args.qlen, cmode := .read,
        phase := .body, p := [] }

/-- 42_container.md R147, 44_decode.md R193: a buffer that ends inside the header faults at the first
defect in stream order, a field's shortage before its value (the spec's decisions D10 and D16). -/
def Obligations.ShortHeaderFaultsInOrder : Prop :=
  ∀ (s : State) (bs : List Byte), s.phase = .head → s.mode = .dec → bs.length = s.args.qlen →
    bs.length < 14 → s.q.readBytes 0 s.args.qlen = some bs →
    if bs.length < 4 then TakesFault (.formatError .truncated) s (step s)
    else if bs.take 4 ≠ [0x71, 0x6F, 0x69, 0x66] then TakesFault (.formatError .magic) s (step s)
    else if bs.length < 8 then TakesFault (.formatError .truncated) s (step s)
    else if (bs.drop 4).take 4 = [0, 0, 0, 0] then TakesFault (.formatError .width) s (step s)
    else if bs.length < 12 then TakesFault (.formatError .truncated) s (step s)
    else if (bs.drop 8).take 4 = [0, 0, 0, 0] then TakesFault (.formatError .height) s (step s)
    else if bs.length < 13 then TakesFault (.formatError .truncated) s (step s)
    else if bs[12]? ≠ some 3 ∧ bs[12]? ≠ some 4 then TakesFault (.formatError .channels) s (step s)
    else TakesFault (.formatError .truncated) s (step s)

/-- 42_container.md R149, 44_decode.md R191, R193: the bytes left are compared with the end marker one
at a time, so a byte that differs decides before a shortage; then bytes after it fault where
`TRAILING_BYTES` says so, and else the pass is `DONE`. The order is the spec's decision D16, and the
last check its open parameter D6. -/
def Obligations.EndMarkerIsVerified : Prop :=
  ∀ (s : State) (bs : List Byte), s.phase = .tail → s.mode = .dec → s.cmode = .read →
    s.pos ≤ s.len → s.q.readBytes s.pos (s.len - s.pos) = some bs →
    if bs.take 8 ≠ [0, 0, 0, 0, 0, 0, 0, 1].take bs.length then
      TakesFault (.formatError .endmarker) s (step s)
    else if bs.length < 8 then TakesFault (.formatError .truncated) s (step s)
    else if bs.length ≠ 8 ∧ s.impl.trailingBytes = .fault then
      TakesFault (.formatError .trailing) s (step s)
    else step s = .next { s with pos := s.pos + 8, phase := .done }

/-! ### The encode pass -/

/-- 43_encode.md R151, R152, 42_container.md R146: the arguments are checked in order, before any byte
is written; when they pass, the registers are loaded, the header is written and the pass enters
`BODY` with its working registers at their initial values. The checks of channels and colorspace, and
the missing floor, are the spec's decisions D9 and D20. -/
def Obligations.EncodeArgumentsCheckedInOrder : Prop :=
  ∀ s : State, s.phase = .head → s.mode = .enc →
    if s.args.width = 0 then TakesFault (.invalidArgument .width) s (step s)
    else if s.args.height = 0 then TakesFault (.invalidArgument .height) s (step s)
    else if s.args.channels ≠ 3 ∧ s.args.channels ≠ 4 then
      TakesFault (.invalidArgument .channels) s (step s)
    else if s.args.colorspace ≠ 0 ∧ s.args.colorspace ≠ 1 then
      TakesFault (.invalidArgument .colorspace) s (step s)
    else if ∃ k, s.impl.maxPixels = some k ∧ k < s.args.width.toNat * s.args.height.toNat then
      step s = .refused .overMaxPixels
    else if s.args.plen < s.args.width.toNat * s.args.height.toNat * s.args.channels.toNat then
      TakesFault (.invalidArgument .pixbufShort) s (step s)
    else
      ∃ t, step s = .next t ∧
        t.q.readBytes 0 14 = some ([0x71, 0x6F, 0x69, 0x66] ++ bytesBe32 s.args.width ++
          bytesBe32 s.args.height ++ [s.args.channels, s.args.colorspace]) ∧
        t = { s with
          prev := ⟨0, 0, 0, 255⟩, cache := Vector.replicate 64 ⟨0, 0, 0, 0⟩, run := 0,
          width := s.args.width, height := s.args.height, channels := s.args.channels,
          colorspace := s.args.colorspace, pxn := s.args.width.toNat * s.args.height.toNat,
          pxi := 0, pos := 14,
          len := s.args.width.toNat * s.args.height.toNat * (s.args.channels.toNat + 1) + 22,
          cmode := .write, phase := .body, q := t.q }

/-- 43_encode.md R153: the pixel fetched; with three channels its alpha is the previous pixel's, which
is always 255. -/
def Obligations.PixelFetch : Prop :=
  ∀ (s : State) (r g b a : Byte),
    (s.channels = 4 → s.p.readBytes (s.pxi * 4) 4 = some [r, g, b, a] →
      fetchPixel s = .ok ⟨r, g, b, a⟩) ∧
    (s.channels = 3 → s.p.readBytes (s.pxi * 3) 3 = some [r, g, b] →
      fetchPixel s = .ok ⟨r, g, b, s.prev.a⟩) ∧
    (EngineInv s → s.phase = .body → s.mode = .enc → s.channels = 3 → s.prev.a = 255)

/-- 43_encode.md R154, R155, R164: a pixel equal to `PREV` lengthens the run and touches neither cache
nor, unless the run is full or the pixel is the last, the stream; then one RUN byte is written and
the counter cleared. -/
def Obligations.EncoderRunPixel : Prop :=
  ∀ s : State, Encoding s.prev 1 s → s.run.toNat ≤ 61 →
    ∃ t, step s = .next t ∧ ConsumesPixel s.prev s t ∧ t.cache = s.cache ∧ EncKeepsTheRest s t ∧
      if s.run.toNat + 1 = 62 ∨ s.pxi = s.pxn - 1 then
        AppendsBytes [0xC0#8 ||| BitVec.ofNat 8 (s.run.toNat + 1 - 1)] s t ∧ t.run = 0
      else t.q = s.q ∧ t.pos = s.pos ∧ t.run.toNat = s.run.toNat + 1

/-- 43_encode.md R156, R157: a pixel found in its slot becomes an INDEX op after the pending run is
flushed, and the cache is not written. -/
def Obligations.EncoderIndexPixel : Prop :=
  ∀ (cur : Pixel) (s : State), Encoding cur 2 s → cur ≠ s.prev →
    s.cache.get (Machine.hash cur) = cur →
    ∃ t, step s = .next t ∧ ConsumesPixel cur s t ∧ EncKeepsTheRest s t ∧ t.cache = s.cache ∧
      t.run = 0 ∧ AppendsBytes (pendingRun s ++ [BitVec.ofNat 8 (Machine.hash cur).val]) s t

/-- 43_encode.md R156, R158, R159: a miss with small deltas and alpha unchanged becomes a DIFF op. -/
def Obligations.EncoderDiffPixel : Prop :=
  ∀ (cur : Pixel) (s : State) (dr dg db : Int), Encoding cur 2 s → cur ≠ s.prev →
    s.cache.get (Machine.hash cur) ≠ cur → delta cur s.prev = ⟨dr, dg, db, 0⟩ →
    -2 ≤ dr → dr ≤ 1 → -2 ≤ dg → dg ≤ 1 → -2 ≤ db → db ≤ 1 →
    ∃ t, step s = .next t ∧ ConsumesPixel cur s t ∧ EncKeepsTheRest s t ∧
      WritesSlot (Machine.hash cur) cur s t ∧ t.run = 0 ∧
      AppendsBytes
        (pendingRun s ++ [BitVec.ofInt 8 (0x40 + (dr + 2) * 16 + (dg + 2) * 4 + (db + 2))]) s t

/-- 43_encode.md R156, R158, R160: a miss that DIFF does not fit, with alpha unchanged and the three
luma ranges met, becomes a LUMA op. -/
def Obligations.EncoderLumaPixel : Prop :=
  ∀ (cur : Pixel) (s : State) (dr dg db : Int), Encoding cur 3 s → cur ≠ s.prev →
    s.cache.get (Machine.hash cur) ≠ cur → delta cur s.prev = ⟨dr, dg, db, 0⟩ →
    ¬ (-2 ≤ dr ∧ dr ≤ 1 ∧ -2 ≤ dg ∧ dg ≤ 1 ∧ -2 ≤ db ∧ db ≤ 1) →
    -32 ≤ dg → dg ≤ 31 → -8 ≤ dr - dg → dr - dg ≤ 7 → -8 ≤ db - dg → db - dg ≤ 7 →
    ∃ t, step s = .next t ∧ ConsumesPixel cur s t ∧ EncKeepsTheRest s t ∧
      WritesSlot (Machine.hash cur) cur s t ∧ t.run = 0 ∧
      AppendsBytes (pendingRun s ++
        [BitVec.ofInt 8 (0x80 + (dg + 32)), BitVec.ofInt 8 ((dr - dg + 8) * 16 + (db - dg + 8))]) s t

/-- 43_encode.md R156, R158, R161, R162: a miss that neither DIFF nor LUMA fits becomes a literal: RGB
where alpha is unchanged, RGBA where it changed. -/
def Obligations.EncoderLiteralPixel : Prop :=
  ∀ (cur : Pixel) (s : State) (dr dg db da : Int), Encoding cur 6 s → cur ≠ s.prev →
    s.cache.get (Machine.hash cur) ≠ cur → delta cur s.prev = ⟨dr, dg, db, da⟩ →
    ¬ (da = 0 ∧ -2 ≤ dr ∧ dr ≤ 1 ∧ -2 ≤ dg ∧ dg ≤ 1 ∧ -2 ≤ db ∧ db ≤ 1) →
    ¬ (da = 0 ∧ -32 ≤ dg ∧ dg ≤ 31 ∧ -8 ≤ dr - dg ∧ dr - dg ≤ 7 ∧ -8 ≤ db - dg ∧ db - dg ≤ 7) →
    ∃ t, step s = .next t ∧ ConsumesPixel cur s t ∧ EncKeepsTheRest s t ∧
      WritesSlot (Machine.hash cur) cur s t ∧ t.run = 0 ∧
      AppendsBytes (pendingRun s ++
        (if da = 0 then [0xFE, cur.r, cur.g, cur.b] else [0xFF, cur.r, cur.g, cur.b, cur.a])) s t

/-- 43_encode.md R165, 42_container.md R148: `TAIL` appends the end marker and the pass is `DONE`. -/
def Obligations.EncodeTailAppendsEndMarker : Prop :=
  ∀ s : State, s.phase = .tail → s.mode = .enc → s.cmode = .write → s.pos + 8 ≤ s.len →
    ∃ t, step s = .next t ∧ AppendsBytes [0, 0, 0, 0, 0, 0, 0, 1] s t ∧
      t = { s with q := t.q, pos := s.pos + 8, phase := .done }

/-- 43_encode.md R169: one body step of encode that does not fault writes 0 to 6 bytes, all of them in
space Q from the old `POS` up to the new one, and consumes one pixel. -/
def Obligations.EncodeStepWritesAtMostSixBytes : Prop :=
  ∀ s t : State, s.phase = .body → s.mode = .enc → s.pxi < s.pxn → step s = .next t →
    t.phase ≠ .fault →
    s.pos ≤ t.pos ∧ t.pos ≤ s.pos + 6 ∧ t.pxi = s.pxi + 1 ∧
    (∀ a, (a < s.pos ∨ t.pos ≤ a) → t.q.read a = s.q.read a)

/-- 43_encode.md R156, R163: a pixel that joins no run writes the pending run and then the first op
that qualifies, in the fixed order index, DIFF, LUMA, literal. -/
def Obligations.EncoderEmitsTheFirstFittingOp : Prop :=
  ∀ (cur : Pixel) (s : State), Encoding cur 6 s → cur ≠ s.prev →
    ∃ t, step s = .next t ∧ ConsumesPixel cur s t ∧ t.run = 0 ∧
      AppendsBytes (pendingRun s ++ encode (firstFittingOp cur s.prev s.cache)) s t

/-- 43_encode.md R168 (b), (c), 41_pixelcolor.md R138: the op that the encoder writes for a pixel other
than `PREV`, after the pending run, is no RUN, no DIFF or LUMA of zero deltas, and with three channels
no RGBA. -/
def Obligations.OpOutsideARunIsNoRunNoZeroDeltaNoThreeChannelRgba : Prop :=
  ∀ (cur : Pixel) (s t : State), Encoding cur 6 s → cur ≠ s.prev → step s = .next t →
    ∃ i : Instr, i.wellFormed = true ∧ AppendsBytes (pendingRun s ++ encode i) s t ∧
      i ≠ .diff 0 0 0 ∧ i ≠ .luma 0 0 0 ∧ (∀ n, i ≠ .run n) ∧
      (s.channels = 3 → ∀ r g b a, i ≠ .rgba r g b a)

/-- 43_encode.md R168 (a), R154, R156: what any one pixel adds to the op stream. A RUN shorter than 62 is
written only at the last pixel, where the ops end, or directly before an op that is no RUN, so no RUN
follows it. -/
def Obligations.ARunShorterThan62IsFollowedByNoRun : Prop :=
  ∀ (cur : Pixel) (s t : State), Encoding cur 6 s → s.run.toNat ≤ 61 → step s = .next t →
    ∃ ops : List Instr, (∀ i ∈ ops, i.wellFormed = true) ∧ AppendsBytes (ops.flatMap encode) s t ∧
      (ops = [] ∨ ops = [.run 62] ∨ (∃ n, ops = [.run n] ∧ t.phase = .tail) ∨
        ∃ i, (∀ n, i ≠ .run n) ∧ (ops = [i] ∨ ∃ n, ops = [.run n, i]))

/-! ### The host -/

/-- 60_exceptions.md R223: a START is taken in `IDLE`, `DONE` and `FAULT`, and sets the mode, the phase,
a clear `ERR` and the operands. That a step takes the oldest of a queue of launches is the model's choice
(notes/assumptions/3.md), for R224 gives the engine no step there; that every other register and the
old output buffer stay as they were until `HEAD` is the model's reading (notes/assumptions/19.md). -/
def Obligations.StartBeginsAPass : Prop :=
  ∀ (s : State) (l : Launch) (ls : List Launch),
    (s.phase = .idle ∨ s.phase = .done ∨ s.phase = .fault) → s.launches = l :: ls →
    match l with
    | .startEncode pix w h ch cs =>
      step s = .next { s with
        mode := .enc, phase := .head, err := .none, p := Memory.ofBytes 0 pix,
        args := ⟨w, h, ch, cs, pix.length, s.args.qlen⟩, launches := ls } ∧
      (Memory.ofBytes 0 pix).readBytes 0 pix.length = some pix
    | .startDecode qoi =>
      step s = .next { s with
        mode := .dec, phase := .head, err := .none, q := Memory.ofBytes 0 qoi,
        args := { s.args with qlen := qoi.length }, launches := ls } ∧
      (Memory.ofBytes 0 qoi).readBytes 0 qoi.length = some qoi

/-- 60_exceptions.md R224, R218: the engine has no step in `IDLE`, `DONE` and `FAULT` while nothing is
launched. The fault's name is the model's (notes/assumptions/3.md). -/
def Obligations.NoStepWithoutAPass : Prop :=
  ∀ s : State, (s.phase = .idle ∨ s.phase = .done ∨ s.phase = .fault) → s.launches = [] →
    step s = .fault .noStep

/-- 70_reset_and_hazards.md R248, 93_implementation_defined.md U15, U16: a START during a pass and
`toOutput` on a read cursor have no meaning. The refusals' names are the model's
(notes/assumptions/3.md, 13.md). -/
def Obligations.MovesWithoutAMeaningAreRefused : Prop :=
  ∀ (s : State) (l : Launch),
    ((s.phase = .head ∨ s.phase = .body ∨ s.phase = .tail) →
      start l s = .error (.refuse .startDuringPass)) ∧
    (s.cmode = .read → toOutput s = .error (.refuse .toOutputOnReadCursor))

/-- 20_memory.md R63, 44_decode.md R192: there is no result before `DONE` and none at `FAULT`; at `DONE`
the result of encode is the bytes Q[0..`POS`-1], and that of decode is the `PXN*4` bytes of P with the
header fields. That the result is a function of the state is the model's reading
(notes/assumptions/19.md). -/
def Obligations.ResultExactlyAtDone : Prop :=
  ∀ s : State,
    (s.phase ≠ .done → result s = none) ∧
    (EngineInv s → s.phase = .done → s.mode = .enc →
      ∃ bs, result s = some (.encoded bs) ∧ s.q.readBytes 0 s.pos = some bs ∧ bs.length = s.pos) ∧
    (EngineInv s → s.phase = .done → s.mode = .dec →
      ∃ bs, result s = some (.decoded bs s.width s.height s.channels s.colorspace) ∧
        s.p.readBytes 0 (4 * s.pxn) = some bs ∧ bs.length = s.pxn * 4)

/-! ### Whole-machine rules -/

/-- 70_reset_and_hazards.md R241, 10_state.md R38: at power-on `PHASE` is `IDLE` and `ERR` is none, and
the engine meets its invariant. The other registers' power-on values are the model's
(notes/assumptions/4.md) and are not spoken of. -/
def Obligations.PowerOn : Prop :=
  State.reset.phase = .idle ∧ State.reset.err = .none ∧ EngineInv State.reset

/-- Every step keeps the invariant of the engine: canonical memories, legal header registers, the counts
and the cursor in their bounds, room for the worst case (20_memory.md R62), `RUN` within R29, `ERR`
of the pass's own kind and never `FatalAssertion` or `LUMA_RANGE` (60_exceptions.md R213, R215). -/
def Obligations.EveryStepKeepsTheInvariant : Prop :=
  ∀ s t : State, EngineInv s → step s = .next t → EngineInv t

/-- 43_encode.md R167: once the checks of R151 have passed, no step of an encode pass faults: from `BODY`
and `TAIL` the step answers a next state that is not `FAULT`. -/
def Obligations.EncodeCannotFaultPastItsChecks : Prop :=
  ∀ s : State, EngineInv s → s.mode = .enc → (s.phase = .body ∨ s.phase = .tail) →
    ∃ t, step s = .next t ∧ t.phase ≠ .fault

/-- 60_exceptions.md R224, R226: in `HEAD`, `BODY` and `TAIL` a step is enabled; the only launch it gives
no meaning to is one whose image, by its operands or by the header of its stream, exceeds
`MAX_PIXELS`. -/
def Obligations.AStepIsEnabledDuringAPass : Prop :=
  ∀ s : State, EngineInv s → running s.phase = true →
    (∃ t, step s = .next t) ∨
    (s.phase = .head ∧ step s = .refused .overMaxPixels ∧
      ∃ (w h : Word) (limit : Nat), LaunchedSize w h s ∧ s.impl.maxPixels = some limit ∧
        limit < w.toNat * h.toNat)

/-- 70_reset_and_hazards.md R250, 44_decode.md R182, 43_encode.md R167: every pass ends. From `BODY` the
machine reaches `DONE` or `FAULT` within the pixels still owed and one step more, and an encode pass
reaches `DONE` after exactly that many. The division into the steps counted is the spec's decision
D12. -/
def Obligations.EveryPassEnds : Prop :=
  ∀ s : State, EngineInv s → s.phase = .body →
    (∃ (k : Nat) (t : State), k ≤ s.pxn - s.pxi + 1 ∧ Host.Core.run Sys2Proof.core k s = .next t ∧
      (t.phase = .done ∨ t.phase = .fault)) ∧
    (s.mode = .enc →
      ∃ t : State, Host.Core.run Sys2Proof.core (s.pxn - s.pxi + 1) s = .next t ∧ t.phase = .done)

/-- 10_state.md R37, 70_reset_and_hazards.md R240: a pass never reads what an earlier pass left. Two
machines in `HEAD` of the same pass, with the same operands, parameters and input, whatever their
registers hold, are in the same state after it, but for the launches still to come. -/
def Obligations.HeadErasesThePast : Prop :=
  ∀ s u t : State, s.phase = .head → u.phase = .head → u.mode = s.mode → u.args = s.args →
    u.impl = s.impl → u.err = s.err → (s.mode = .enc → u.p = s.p) → (s.mode = .dec → u.q = s.q) →
    step s = .next t → t.phase = .body → step u = .next { t with launches := u.launches }

/-- 20_memory.md R64, R67, 10_state.md R21: during a pass the input buffer is never written, so a decode
pass cannot modify its own op stream; the operands and the parameters do not change. -/
def Obligations.APassNeverWritesItsInput : Prop :=
  ∀ s t : State, running s.phase = true → step s = .next t →
    (s.mode = .enc → t.p = s.p) ∧ (s.mode = .dec → t.q = s.q) ∧
    t.args = s.args ∧ t.impl = s.impl ∧ t.launches = s.launches

/-- 40_bytecursor.md R112, 60_exceptions.md R222, 10_state.md R33: `MODE` is fixed for the pass, `CMODE`
for the life of the cursor, and `POS` never decreases. -/
def Obligations.ModesAreFixedAndPosOnlyAdvances : Prop :=
  ∀ s t : State, step s = .next t →
    (running s.phase = true → t.mode = s.mode) ∧
    ((s.phase = .body ∨ s.phase = .tail) →
      t.cmode = s.cmode ∧ s.pos ≤ t.pos ∧ t.len = s.len ∧ t.pxn = s.pxn ∧ t.width = s.width ∧
      t.height = s.height ∧ t.channels = s.channels ∧ t.colorspace = s.colorspace)

/-! ### Encoder and decoder together -/

/-- 44_decode.md R196 (c): where the decoder's `PREV` and `CACHE` equal the encoder's, the op that the
encoder emits for a pixel that joins no run, executed by the decoder, emits that pixel and leaves
its `PREV` and `CACHE` equal to the encoder's again. -/
def Obligations.DecoderFollowsTheEncoder : Prop :=
  ∀ (cur : Pixel) (e e' d : State), Encoding cur 6 e → cur ≠ e.prev → step e = .next e' →
    d.prev = e.prev → d.cache = e.cache → Ready 5 d →
    ∃ (i : Instr) (d' : State), i.wellFormed = true ∧ AppendsBytes (pendingRun e ++ encode i) e e' ∧
      exec i d = .next d' ∧ pixelAt d'.p d.pxi = some [cur.r, cur.g, cur.b, cur.a] ∧
      d'.pxi = d.pxi + 1 ∧ d'.prev = e'.prev ∧ d'.cache = e'.cache

/-- 44_decode.md R196 (a): encoding valid operands ends in `DONE` with a stream, and decoding that stream
on a machine in any startable state, of the same implementation, ends in `DONE` with the original
pixels expanded to four channels and the original width, height, channel count and colorspace. That a
step takes a launch is the model's choice (notes/assumptions/3.md). -/
def Obligations.DecodeInvertsEncode : Prop :=
  ∀ (s : State) (pix : List Byte) (w h : Word) (ch cs : Byte),
    startable s.phase = true → s.launches = [.startEncode pix w h ch cs] → w ≠ 0 → h ≠ 0 →
    legalChannels ch = true → legalColorspace cs = true →
    checkLimit s.impl (w.toNat * h.toNat) = .ok () →
    w.toNat * h.toNat * ch.toNat ≤ pix.length →
    ∃ (n : Nat) (t : State) (stream : List Byte),
      Host.Core.run Sys2Proof.core n s = .next t ∧ t.phase = .done ∧
      result t = some (.encoded stream) ∧
      ∀ u : State, startable u.phase = true → u.launches = [.startDecode stream] →
        u.impl = s.impl →
        ∃ (k : Nat) (v : State), Host.Core.run Sys2Proof.core k u = .next v ∧ v.phase = .done ∧
          result v = some (.decoded
            (expand ch (pix.take (w.toNat * h.toNat * ch.toNat))) w h ch cs)

/-- 44_decode.md R195, 30_encoding.md R92: any sequence of well-formed ops that accounts for exactly the
pixels of the image, after a legal header and before the end marker, decodes without fault, whether or
not an encoder would have written it. Of the count of steps, one for each op and one each for `HEAD` and
`TAIL` are R198 (the spec's decision D12; notes/assumptions/18.md), and the one that takes the launch is
the model's choice (notes/assumptions/3.md). -/
def Obligations.AnyOpStreamOfTheRightSizeDecodes : Prop :=
  ∀ (s : State) (ops : List Instr) (w h : Word) (ch cs : Byte),
    startable s.phase = true →
    s.launches = [.startDecode (headerBytes w h ch cs ++ ops.flatMap encode ++ endBytes)] →
    w ≠ 0 → h ≠ 0 → legalChannels ch = true → legalColorspace cs = true →
    checkLimit s.impl (w.toNat * h.toNat) = .ok () →
    (∀ i ∈ ops, i.wellFormed = true) → (ops.map pixelsOf).sum = w.toNat * h.toNat →
    ∃ (t : State) (pixels : List Byte),
      Host.Core.run Sys2Proof.core (ops.length + 3) s = .next t ∧ t.phase = .done ∧
      result t = some (.decoded pixels w h ch cs) ∧ pixels.length = w.toNat * h.toNat * 4
end

