-- ==== Sys2Proof/Laws/Flags.lean ====
section
/-! SUPPORT. What each test of the encoder says, as a proposition, so that no proof unfolds a test. -/

namespace Sys2Proof.Machine

theorem inRange_eq_true {lo hi x : Int} : inRange lo hi x = true ↔ lo ≤ x ∧ x ≤ hi := by
  simp [inRange]

theorem joinsRun_eq_true {cur prev : Pixel} : joinsRun cur prev = true ↔ cur = prev := by
  simp [joinsRun]

theorem lastPixel_eq_true {pxi pxn : Nat} : lastPixel pxi pxn = true ↔ pxi + 1 = pxn := by
  simp [lastPixel]

theorem mustFlush_eq_true {run : BitVec 6} {pxi pxn : Nat} :
    mustFlush run pxi pxn = true ↔ run.toNat = 62 ∨ pxi + 1 = pxn := by
  simp only [mustFlush, Bool.or_eq_true, decide_eq_true_eq, lastPixel_eq_true]
  exact Iff.rfl

theorem cacheHit_eq_true {cur : Pixel} {cache : Vector Pixel 64} :
    cacheHit cur cache = true ↔ cache.get (hash cur) = cur := by
  simp [cacheHit]

theorem diffFits_eq_true {d : Delta} :
    diffFits d = true ↔
      d.da = 0 ∧ (-2 ≤ d.dr ∧ d.dr ≤ 1) ∧ (-2 ≤ d.dg ∧ d.dg ≤ 1) ∧ (-2 ≤ d.db ∧ d.db ≤ 1) := by
  simp [diffFits, inRange_eq_true, and_assoc]

theorem lumaFits_eq_true {d : Delta} :
    lumaFits d = true ↔
      d.da = 0 ∧ (-32 ≤ d.dg ∧ d.dg ≤ 31) ∧ (-8 ≤ d.dr - d.dg ∧ d.dr - d.dg ≤ 7) ∧
        (-8 ≤ d.db - d.dg ∧ d.db - d.dg ≤ 7) := by
  simp [lumaFits, inRange_eq_true, and_assoc]

theorem delta_da_eq_zero {cur prev : Pixel} : (delta cur prev).da = 0 ↔ cur.a = prev.a := by
  simp only [delta]
  constructor
  · intro h; exact BitVec.eq_of_toNat_eq (by omega)
  · intro h; rw [h]; exact Int.sub_self _

/-- A channel after an addition, as a number (41_pixelcolor.md R136). -/
theorem addChannel_toNat (c : Byte) (d : Int) :
    ((addChannel c d).toNat : Int) = (c.toNat + d) % 256 := by
  unfold addChannel
  rw [BitVec.toNat_ofInt]
  omega

/-- A biased field reads back as the value stored, where the value is in the field's range
(30_encoding.md R89). -/
theorem unbias_toField {w : Nat} {b x : Int} (h0 : 0 ≤ x + b) (h1 : x + b < 2 ^ w) :
    unbias b (toField w b x) = x := by
  unfold unbias toField
  rw [BitVec.toNat_ofInt]
  have h2 : ((2 : Int) ^ w) = ((2 ^ w : Nat) : Int) := by norm_cast
  rw [Int.emod_eq_of_lt h0 (by omega)]
  omega

/-- What a biased field reads as lies in the field's range (30_encoding.md R89). -/
theorem unbias_bounds {w : Nat} (b : Int) (v : BitVec w) :
    -b ≤ unbias b v ∧ unbias b v < ((2 ^ w : Nat) : Int) - b := by
  have h := v.isLt
  unfold unbias
  omega

end Sys2Proof.Machine
end

