-- ==== Sys2Proof/Laws/Memory.lean ====
section
/-! SUPPORT. The laws of a byte space: a read after a write, what a write leaves alone, and that every
operation keeps the canonical form. -/

namespace Sys2Proof.Machine

/-! ### Reads after writes -/

@[simp] theorem Memory.read_nil (a : Nat) : Memory.read [] a = none := rfl

theorem Memory.read_write (m : Memory) (a b : Nat) (v : Byte) :
    (m.write a v).read b = if b = a then some v else m.read b := by
  induction m with
  | nil =>
    by_cases h : b = a
    · simp [Memory.write, Memory.read, h]
    · simp [Memory.write, Memory.read, h, show ¬ a = b from fun e => h e.symm]
  | cons c m ih =>
    by_cases h : b = a
    · subst h
      by_cases h1 : b < c.1
      · simp [Memory.write, Memory.read, h1]
      · by_cases h2 : b = c.1
        · simp [Memory.write, Memory.read, h2]
        · simp [Memory.write, Memory.read, h1, h2, show ¬ c.1 = b from fun e => h2 e.symm, ih]
    · have h' : ¬ a = b := fun e => h e.symm
      by_cases h1 : a < c.1
      · simp [Memory.write, Memory.read, h1, h, h']
      · by_cases h2 : a = c.1
        · simp [Memory.write, Memory.read, h2, show ¬ c.1 = b by omega, show ¬ b = c.1 by omega]
        · simp only [Memory.write, if_neg h1, if_neg h2, Memory.read, ih, if_neg h]

@[simp] theorem Memory.read_write_same (m : Memory) (a : Nat) (v : Byte) :
    (m.write a v).read a = some v := by simp [Memory.read_write]

theorem Memory.read_write_ne (m : Memory) {a b : Nat} (v : Byte) (h : b ≠ a) :
    (m.write a v).read b = m.read b := by simp [Memory.read_write, h]

theorem Memory.read_writeBytes_outside (vs : List Byte) :
    ∀ (m : Memory) (a b : Nat), (b < a ∨ a + vs.length ≤ b) →
      (m.writeBytes a vs).read b = m.read b := by
  induction vs with
  | nil => intros; rfl
  | cons v vs ih =>
    intro m a b h
    simp only [List.length_cons] at h
    have hb : b ≠ a := by omega
    simp only [Memory.writeBytes]
    rw [ih _ _ _ (by omega), Memory.read_write_ne _ _ hb]

theorem Memory.read_writeBytes_inside (vs : List Byte) :
    ∀ (m : Memory) (a k : Nat) (h : k < vs.length),
      (m.writeBytes a vs).read (a + k) = some (vs[k]) := by
  induction vs with
  | nil => intro m a k h; simp at h
  | cons v vs ih =>
    intro m a k h
    simp only [Memory.writeBytes]
    match k with
    | 0 => simp [Memory.read_writeBytes_outside vs _ (a + 1) a (by omega)]
    | k + 1 =>
      have := ih (m.write a v) (a + 1) k (by simpa using h)
      simpa [Nat.add_assoc, Nat.add_comm 1 k] using this

theorem Memory.readBytes_congr (n : Nat) :
    ∀ (m m' : Memory) (a : Nat), (∀ k, k < n → m'.read (a + k) = m.read (a + k)) →
      m'.readBytes a n = m.readBytes a n := by
  induction n with
  | zero => intros; rfl
  | succ n ih =>
    intro m m' a h
    have h0 : m'.read a = m.read a := by simpa using h 0 (by omega)
    have h1 : m'.readBytes (a + 1) n = m.readBytes (a + 1) n :=
      ih m m' (a + 1) fun k hk => by
        have := h (k + 1) (by omega)
        simpa [Nat.add_assoc, Nat.add_comm 1 k] using this
    simp only [Memory.readBytes, h0, h1]

theorem Memory.readBytes_eq_some (n : Nat) :
    ∀ (m : Memory) (a : Nat) (bs : List Byte),
      m.readBytes a n = some bs ↔
        bs.length = n ∧ ∀ k (h : k < bs.length), m.read (a + k) = some (bs[k]) := by
  induction n with
  | zero =>
    intro m a bs
    constructor
    · intro h
      have : bs = [] := by simpa [Memory.readBytes] using h.symm
      subst this; simp
    · rintro ⟨h, -⟩
      have : bs = [] := by simpa using h
      subst this; rfl
  | succ n ih =>
    intro m a bs
    cases bs with
    | nil =>
      simp only [Memory.readBytes]
      split <;> simp
    | cons v vs =>
      have key := ih m (a + 1) vs
      constructor
      · intro h
        simp only [Memory.readBytes] at h
        split at h
        next w ws hw hws =>
          obtain ⟨rfl, rfl⟩ : w = v ∧ ws = vs := by simpa using h
          obtain ⟨hl, hk⟩ := key.mp hws
          refine ⟨by simp [hl], fun k hk' => ?_⟩
          match k with
          | 0 => simpa using hw
          | k + 1 =>
            have := hk k (by simpa using hk')
            simpa [Nat.add_assoc, Nat.add_comm 1 k] using this
        next => simp at h
      · rintro ⟨hl, hk⟩
        have h0 : m.read a = some v := hk 0 (Nat.succ_pos _)
        have h1 : m.readBytes (a + 1) n = some vs := key.mpr ⟨by simpa using hl, fun k hk' => by
          have := hk (k + 1) (by simpa using hk')
          simpa [Nat.add_assoc, Nat.add_comm 1 k] using this⟩
        simp [Memory.readBytes, h0, h1]

theorem Memory.readBytes_isSome (n : Nat) :
    ∀ (m : Memory) (a : Nat),
      (m.readBytes a n).isSome = true ↔ ∀ k, k < n → (m.read (a + k)).isSome = true := by
  induction n with
  | zero => intro m a; simp [Memory.readBytes]
  | succ n ih =>
    intro m a
    have key := ih m (a + 1)
    constructor
    · intro h
      simp only [Memory.readBytes] at h
      split at h
      next w ws hw hws =>
        intro k hk
        match k with
        | 0 => simp [hw]
        | k + 1 =>
          have := key.mp (by simp [hws]) k (by omega)
          simpa [Nat.add_assoc, Nat.add_comm 1 k] using this
      next => simp at h
    · intro h
      have h0 : (m.read a).isSome = true := by simpa using h 0 (by omega)
      have h1 : (m.readBytes (a + 1) n).isSome = true := key.mpr fun k hk => by
        have := h (k + 1) (by omega)
        simpa [Nat.add_assoc, Nat.add_comm 1 k] using this
      obtain ⟨v, hv⟩ := Option.isSome_iff_exists.mp h0
      obtain ⟨vs, hvs⟩ := Option.isSome_iff_exists.mp h1
      simp [Memory.readBytes, hv, hvs]

theorem Memory.readBytes_length {m : Memory} {a n : Nat} {bs : List Byte}
    (h : m.readBytes a n = some bs) : bs.length = n :=
  ((Memory.readBytes_eq_some n m a bs).mp h).1

theorem Memory.readBytes_writeBytes (m : Memory) (a : Nat) (vs : List Byte) :
    (m.writeBytes a vs).readBytes a vs.length = some vs :=
  (Memory.readBytes_eq_some _ _ _ _).mpr
    ⟨rfl, fun k h => Memory.read_writeBytes_inside vs m a k h⟩

theorem Memory.readBytes_append {m : Memory} {a n k : Nat} {bs cs : List Byte}
    (h : m.readBytes a n = some bs) (h' : m.readBytes (a + n) k = some cs) :
    m.readBytes a (n + k) = some (bs ++ cs) := by
  obtain ⟨hl, hb⟩ := (Memory.readBytes_eq_some _ _ _ _).mp h
  obtain ⟨hl', hc⟩ := (Memory.readBytes_eq_some _ _ _ _).mp h'
  refine (Memory.readBytes_eq_some _ _ _ _).mpr ⟨by simp [hl, hl'], fun i hi => ?_⟩
  by_cases hn : i < bs.length
  · rw [List.getElem_append_left hn]; exact hb i hn
  · rw [List.getElem_append_right (by omega)]
    have := hc (i - bs.length) (by simp at hi; omega)
    rw [← this]
    congr 1
    omega

theorem Memory.writeBytes_append (vs ws : List Byte) :
    ∀ (m : Memory) (a : Nat),
      m.writeBytes a (vs ++ ws) = (m.writeBytes a vs).writeBytes (a + vs.length) ws := by
  induction vs with
  | nil => intros; rfl
  | cons v vs ih =>
    intro m a
    simp only [List.cons_append, Memory.writeBytes, ih, List.length_cons]
    congr 1
    omega

/-! ### A supplied buffer -/

theorem Memory.read_ofBytes_below (vs : List Byte) :
    ∀ (a b : Nat), b < a → (Memory.ofBytes a vs).read b = none := by
  induction vs with
  | nil => intros; rfl
  | cons v vs ih =>
    intro a b h
    have : ¬ a = b := by omega
    simp [Memory.ofBytes, Memory.read, this, ih (a + 1) b (by omega)]

theorem Memory.read_ofBytes (vs : List Byte) :
    ∀ (a k : Nat), (Memory.ofBytes a vs).read (a + k) = vs[k]? := by
  induction vs with
  | nil => intros; rfl
  | cons v vs ih =>
    intro a k
    match k with
    | 0 => simp [Memory.ofBytes, Memory.read]
    | k + 1 =>
      have := ih (a + 1) k
      simpa [Memory.ofBytes, Memory.read, Nat.add_assoc, Nat.add_comm 1 k] using this

theorem Memory.readBytes_ofBytes (vs : List Byte) :
    (Memory.ofBytes 0 vs).readBytes 0 vs.length = some vs :=
  (Memory.readBytes_eq_some _ _ _ _).mpr
    ⟨rfl, fun k h => by rw [Memory.read_ofBytes]; exact List.getElem?_eq_getElem h⟩

/-! ### The canonical form -/

theorem Memory.wf_cons {c : Host.Cell} {m : Memory} :
    Memory.wf (c :: m) = true ↔ (∀ d ∈ m.head?, c.1 < d.1) ∧ Memory.wf m = true := by
  cases m <;> simp [Memory.wf]

theorem Memory.head_write (m : Memory) (a : Nat) (v : Byte) :
    ∀ d ∈ (m.write a v).head?, d.1 = a ∨ ∃ e ∈ m.head?, d.1 = e.1 := by
  cases m with
  | nil => simp [Memory.write]
  | cons c m =>
    simp only [Memory.write]
    split
    · simp
    · split <;> simp

theorem Memory.write_wf {m : Memory} (a : Nat) (v : Byte) (h : m.wf = true) :
    (m.write a v).wf = true := by
  induction m with
  | nil => rfl
  | cons c m ih =>
    obtain ⟨hc, hm⟩ := Memory.wf_cons.mp h
    simp only [Memory.write]
    split
    next hlt => exact Memory.wf_cons.mpr ⟨by simpa using hlt, h⟩
    next hlt =>
      split
      next heq =>
        refine Memory.wf_cons.mpr ⟨?_, hm⟩
        intro d hd
        have := hc d hd
        simpa [heq] using this
      next hne =>
        refine Memory.wf_cons.mpr ⟨?_, ih hm⟩
        intro d hd
        rcases Memory.head_write m a v d hd with h1 | ⟨e, he, h1⟩
        · omega
        · have := hc e he
          omega

theorem Memory.writeBytes_wf (vs : List Byte) :
    ∀ {m : Memory} (a : Nat), m.wf = true → (m.writeBytes a vs).wf = true := by
  induction vs with
  | nil => intro m a h; exact h
  | cons v vs ih => intro m a h; exact ih (a + 1) (Memory.write_wf a v h)

theorem Memory.ofBytes_wf (vs : List Byte) : ∀ a : Nat, (Memory.ofBytes a vs).wf = true := by
  induction vs with
  | nil => intro; rfl
  | cons v vs ih =>
    intro a
    refine Memory.wf_cons.mpr ⟨?_, ih (a + 1)⟩
    cases vs with
    | nil => simp [Memory.ofBytes]
    | cons w ws => simp [Memory.ofBytes]

theorem reset_memory_wf : State.reset.q.wf = true ∧ State.reset.p.wf = true := ⟨rfl, rfl⟩

end Sys2Proof.Machine
end

