-- ==== Sys2Proof/Laws/State.lean ====
section
/-! SUPPORT. What each named update of the state does to each field: one lemma per field per update,
so that no later proof unfolds a record update. -/

namespace Sys2Proof.Machine

/-! ### `setPrev` -/

@[simp] theorem setPrev_prev (v : Pixel) (s : State) : (setPrev v s).prev = v := rfl
@[simp] theorem setPrev_cache (v : Pixel) (s : State) : (setPrev v s).cache = s.cache := rfl
@[simp] theorem setPrev_run (v : Pixel) (s : State) : (setPrev v s).run = s.run := rfl
@[simp] theorem setPrev_width (v : Pixel) (s : State) : (setPrev v s).width = s.width := rfl
@[simp] theorem setPrev_height (v : Pixel) (s : State) : (setPrev v s).height = s.height := rfl
@[simp] theorem setPrev_channels (v : Pixel) (s : State) : (setPrev v s).channels = s.channels := rfl
@[simp] theorem setPrev_colorspace (v : Pixel) (s : State) : (setPrev v s).colorspace = s.colorspace := rfl
@[simp] theorem setPrev_pxn (v : Pixel) (s : State) : (setPrev v s).pxn = s.pxn := rfl
@[simp] theorem setPrev_pxi (v : Pixel) (s : State) : (setPrev v s).pxi = s.pxi := rfl
@[simp] theorem setPrev_pos (v : Pixel) (s : State) : (setPrev v s).pos = s.pos := rfl
@[simp] theorem setPrev_len (v : Pixel) (s : State) : (setPrev v s).len = s.len := rfl
@[simp] theorem setPrev_cmode (v : Pixel) (s : State) : (setPrev v s).cmode = s.cmode := rfl
@[simp] theorem setPrev_mode (v : Pixel) (s : State) : (setPrev v s).mode = s.mode := rfl
@[simp] theorem setPrev_phase (v : Pixel) (s : State) : (setPrev v s).phase = s.phase := rfl
@[simp] theorem setPrev_err (v : Pixel) (s : State) : (setPrev v s).err = s.err := rfl
@[simp] theorem setPrev_q (v : Pixel) (s : State) : (setPrev v s).q = s.q := rfl
@[simp] theorem setPrev_p (v : Pixel) (s : State) : (setPrev v s).p = s.p := rfl
@[simp] theorem setPrev_args (v : Pixel) (s : State) : (setPrev v s).args = s.args := rfl
@[simp] theorem setPrev_impl (v : Pixel) (s : State) : (setPrev v s).impl = s.impl := rfl
@[simp] theorem setPrev_launches (v : Pixel) (s : State) : (setPrev v s).launches = s.launches := rfl

/-! ### `setRun` -/

@[simp] theorem setRun_prev (v : BitVec 6) (s : State) : (setRun v s).prev = s.prev := rfl
@[simp] theorem setRun_cache (v : BitVec 6) (s : State) : (setRun v s).cache = s.cache := rfl
@[simp] theorem setRun_run (v : BitVec 6) (s : State) : (setRun v s).run = v := rfl
@[simp] theorem setRun_width (v : BitVec 6) (s : State) : (setRun v s).width = s.width := rfl
@[simp] theorem setRun_height (v : BitVec 6) (s : State) : (setRun v s).height = s.height := rfl
@[simp] theorem setRun_channels (v : BitVec 6) (s : State) : (setRun v s).channels = s.channels := rfl
@[simp] theorem setRun_colorspace (v : BitVec 6) (s : State) : (setRun v s).colorspace = s.colorspace := rfl
@[simp] theorem setRun_pxn (v : BitVec 6) (s : State) : (setRun v s).pxn = s.pxn := rfl
@[simp] theorem setRun_pxi (v : BitVec 6) (s : State) : (setRun v s).pxi = s.pxi := rfl
@[simp] theorem setRun_pos (v : BitVec 6) (s : State) : (setRun v s).pos = s.pos := rfl
@[simp] theorem setRun_len (v : BitVec 6) (s : State) : (setRun v s).len = s.len := rfl
@[simp] theorem setRun_cmode (v : BitVec 6) (s : State) : (setRun v s).cmode = s.cmode := rfl
@[simp] theorem setRun_mode (v : BitVec 6) (s : State) : (setRun v s).mode = s.mode := rfl
@[simp] theorem setRun_phase (v : BitVec 6) (s : State) : (setRun v s).phase = s.phase := rfl
@[simp] theorem setRun_err (v : BitVec 6) (s : State) : (setRun v s).err = s.err := rfl
@[simp] theorem setRun_q (v : BitVec 6) (s : State) : (setRun v s).q = s.q := rfl
@[simp] theorem setRun_p (v : BitVec 6) (s : State) : (setRun v s).p = s.p := rfl
@[simp] theorem setRun_args (v : BitVec 6) (s : State) : (setRun v s).args = s.args := rfl
@[simp] theorem setRun_impl (v : BitVec 6) (s : State) : (setRun v s).impl = s.impl := rfl
@[simp] theorem setRun_launches (v : BitVec 6) (s : State) : (setRun v s).launches = s.launches := rfl

/-! ### `setPxi` -/

@[simp] theorem setPxi_prev (v : Nat) (s : State) : (setPxi v s).prev = s.prev := rfl
@[simp] theorem setPxi_cache (v : Nat) (s : State) : (setPxi v s).cache = s.cache := rfl
@[simp] theorem setPxi_run (v : Nat) (s : State) : (setPxi v s).run = s.run := rfl
@[simp] theorem setPxi_width (v : Nat) (s : State) : (setPxi v s).width = s.width := rfl
@[simp] theorem setPxi_height (v : Nat) (s : State) : (setPxi v s).height = s.height := rfl
@[simp] theorem setPxi_channels (v : Nat) (s : State) : (setPxi v s).channels = s.channels := rfl
@[simp] theorem setPxi_colorspace (v : Nat) (s : State) : (setPxi v s).colorspace = s.colorspace := rfl
@[simp] theorem setPxi_pxn (v : Nat) (s : State) : (setPxi v s).pxn = s.pxn := rfl
@[simp] theorem setPxi_pxi (v : Nat) (s : State) : (setPxi v s).pxi = v := rfl
@[simp] theorem setPxi_pos (v : Nat) (s : State) : (setPxi v s).pos = s.pos := rfl
@[simp] theorem setPxi_len (v : Nat) (s : State) : (setPxi v s).len = s.len := rfl
@[simp] theorem setPxi_cmode (v : Nat) (s : State) : (setPxi v s).cmode = s.cmode := rfl
@[simp] theorem setPxi_mode (v : Nat) (s : State) : (setPxi v s).mode = s.mode := rfl
@[simp] theorem setPxi_phase (v : Nat) (s : State) : (setPxi v s).phase = s.phase := rfl
@[simp] theorem setPxi_err (v : Nat) (s : State) : (setPxi v s).err = s.err := rfl
@[simp] theorem setPxi_q (v : Nat) (s : State) : (setPxi v s).q = s.q := rfl
@[simp] theorem setPxi_p (v : Nat) (s : State) : (setPxi v s).p = s.p := rfl
@[simp] theorem setPxi_args (v : Nat) (s : State) : (setPxi v s).args = s.args := rfl
@[simp] theorem setPxi_impl (v : Nat) (s : State) : (setPxi v s).impl = s.impl := rfl
@[simp] theorem setPxi_launches (v : Nat) (s : State) : (setPxi v s).launches = s.launches := rfl

/-! ### `setPos` -/

@[simp] theorem setPos_prev (v : Nat) (s : State) : (setPos v s).prev = s.prev := rfl
@[simp] theorem setPos_cache (v : Nat) (s : State) : (setPos v s).cache = s.cache := rfl
@[simp] theorem setPos_run (v : Nat) (s : State) : (setPos v s).run = s.run := rfl
@[simp] theorem setPos_width (v : Nat) (s : State) : (setPos v s).width = s.width := rfl
@[simp] theorem setPos_height (v : Nat) (s : State) : (setPos v s).height = s.height := rfl
@[simp] theorem setPos_channels (v : Nat) (s : State) : (setPos v s).channels = s.channels := rfl
@[simp] theorem setPos_colorspace (v : Nat) (s : State) : (setPos v s).colorspace = s.colorspace := rfl
@[simp] theorem setPos_pxn (v : Nat) (s : State) : (setPos v s).pxn = s.pxn := rfl
@[simp] theorem setPos_pxi (v : Nat) (s : State) : (setPos v s).pxi = s.pxi := rfl
@[simp] theorem setPos_pos (v : Nat) (s : State) : (setPos v s).pos = v := rfl
@[simp] theorem setPos_len (v : Nat) (s : State) : (setPos v s).len = s.len := rfl
@[simp] theorem setPos_cmode (v : Nat) (s : State) : (setPos v s).cmode = s.cmode := rfl
@[simp] theorem setPos_mode (v : Nat) (s : State) : (setPos v s).mode = s.mode := rfl
@[simp] theorem setPos_phase (v : Nat) (s : State) : (setPos v s).phase = s.phase := rfl
@[simp] theorem setPos_err (v : Nat) (s : State) : (setPos v s).err = s.err := rfl
@[simp] theorem setPos_q (v : Nat) (s : State) : (setPos v s).q = s.q := rfl
@[simp] theorem setPos_p (v : Nat) (s : State) : (setPos v s).p = s.p := rfl
@[simp] theorem setPos_args (v : Nat) (s : State) : (setPos v s).args = s.args := rfl
@[simp] theorem setPos_impl (v : Nat) (s : State) : (setPos v s).impl = s.impl := rfl
@[simp] theorem setPos_launches (v : Nat) (s : State) : (setPos v s).launches = s.launches := rfl

/-! ### `setPhase` -/

@[simp] theorem setPhase_prev (v : Phase) (s : State) : (setPhase v s).prev = s.prev := rfl
@[simp] theorem setPhase_cache (v : Phase) (s : State) : (setPhase v s).cache = s.cache := rfl
@[simp] theorem setPhase_run (v : Phase) (s : State) : (setPhase v s).run = s.run := rfl
@[simp] theorem setPhase_width (v : Phase) (s : State) : (setPhase v s).width = s.width := rfl
@[simp] theorem setPhase_height (v : Phase) (s : State) : (setPhase v s).height = s.height := rfl
@[simp] theorem setPhase_channels (v : Phase) (s : State) : (setPhase v s).channels = s.channels := rfl
@[simp] theorem setPhase_colorspace (v : Phase) (s : State) : (setPhase v s).colorspace = s.colorspace := rfl
@[simp] theorem setPhase_pxn (v : Phase) (s : State) : (setPhase v s).pxn = s.pxn := rfl
@[simp] theorem setPhase_pxi (v : Phase) (s : State) : (setPhase v s).pxi = s.pxi := rfl
@[simp] theorem setPhase_pos (v : Phase) (s : State) : (setPhase v s).pos = s.pos := rfl
@[simp] theorem setPhase_len (v : Phase) (s : State) : (setPhase v s).len = s.len := rfl
@[simp] theorem setPhase_cmode (v : Phase) (s : State) : (setPhase v s).cmode = s.cmode := rfl
@[simp] theorem setPhase_mode (v : Phase) (s : State) : (setPhase v s).mode = s.mode := rfl
@[simp] theorem setPhase_phase (v : Phase) (s : State) : (setPhase v s).phase = v := rfl
@[simp] theorem setPhase_err (v : Phase) (s : State) : (setPhase v s).err = s.err := rfl
@[simp] theorem setPhase_q (v : Phase) (s : State) : (setPhase v s).q = s.q := rfl
@[simp] theorem setPhase_p (v : Phase) (s : State) : (setPhase v s).p = s.p := rfl
@[simp] theorem setPhase_args (v : Phase) (s : State) : (setPhase v s).args = s.args := rfl
@[simp] theorem setPhase_impl (v : Phase) (s : State) : (setPhase v s).impl = s.impl := rfl
@[simp] theorem setPhase_launches (v : Phase) (s : State) : (setPhase v s).launches = s.launches := rfl

/-! ### `setQ` -/

@[simp] theorem setQ_prev (v : Memory) (s : State) : (setQ v s).prev = s.prev := rfl
@[simp] theorem setQ_cache (v : Memory) (s : State) : (setQ v s).cache = s.cache := rfl
@[simp] theorem setQ_run (v : Memory) (s : State) : (setQ v s).run = s.run := rfl
@[simp] theorem setQ_width (v : Memory) (s : State) : (setQ v s).width = s.width := rfl
@[simp] theorem setQ_height (v : Memory) (s : State) : (setQ v s).height = s.height := rfl
@[simp] theorem setQ_channels (v : Memory) (s : State) : (setQ v s).channels = s.channels := rfl
@[simp] theorem setQ_colorspace (v : Memory) (s : State) : (setQ v s).colorspace = s.colorspace := rfl
@[simp] theorem setQ_pxn (v : Memory) (s : State) : (setQ v s).pxn = s.pxn := rfl
@[simp] theorem setQ_pxi (v : Memory) (s : State) : (setQ v s).pxi = s.pxi := rfl
@[simp] theorem setQ_pos (v : Memory) (s : State) : (setQ v s).pos = s.pos := rfl
@[simp] theorem setQ_len (v : Memory) (s : State) : (setQ v s).len = s.len := rfl
@[simp] theorem setQ_cmode (v : Memory) (s : State) : (setQ v s).cmode = s.cmode := rfl
@[simp] theorem setQ_mode (v : Memory) (s : State) : (setQ v s).mode = s.mode := rfl
@[simp] theorem setQ_phase (v : Memory) (s : State) : (setQ v s).phase = s.phase := rfl
@[simp] theorem setQ_err (v : Memory) (s : State) : (setQ v s).err = s.err := rfl
@[simp] theorem setQ_q (v : Memory) (s : State) : (setQ v s).q = v := rfl
@[simp] theorem setQ_p (v : Memory) (s : State) : (setQ v s).p = s.p := rfl
@[simp] theorem setQ_args (v : Memory) (s : State) : (setQ v s).args = s.args := rfl
@[simp] theorem setQ_impl (v : Memory) (s : State) : (setQ v s).impl = s.impl := rfl
@[simp] theorem setQ_launches (v : Memory) (s : State) : (setQ v s).launches = s.launches := rfl

/-! ### `setP` -/

@[simp] theorem setP_prev (v : Memory) (s : State) : (setP v s).prev = s.prev := rfl
@[simp] theorem setP_cache (v : Memory) (s : State) : (setP v s).cache = s.cache := rfl
@[simp] theorem setP_run (v : Memory) (s : State) : (setP v s).run = s.run := rfl
@[simp] theorem setP_width (v : Memory) (s : State) : (setP v s).width = s.width := rfl
@[simp] theorem setP_height (v : Memory) (s : State) : (setP v s).height = s.height := rfl
@[simp] theorem setP_channels (v : Memory) (s : State) : (setP v s).channels = s.channels := rfl
@[simp] theorem setP_colorspace (v : Memory) (s : State) : (setP v s).colorspace = s.colorspace := rfl
@[simp] theorem setP_pxn (v : Memory) (s : State) : (setP v s).pxn = s.pxn := rfl
@[simp] theorem setP_pxi (v : Memory) (s : State) : (setP v s).pxi = s.pxi := rfl
@[simp] theorem setP_pos (v : Memory) (s : State) : (setP v s).pos = s.pos := rfl
@[simp] theorem setP_len (v : Memory) (s : State) : (setP v s).len = s.len := rfl
@[simp] theorem setP_cmode (v : Memory) (s : State) : (setP v s).cmode = s.cmode := rfl
@[simp] theorem setP_mode (v : Memory) (s : State) : (setP v s).mode = s.mode := rfl
@[simp] theorem setP_phase (v : Memory) (s : State) : (setP v s).phase = s.phase := rfl
@[simp] theorem setP_err (v : Memory) (s : State) : (setP v s).err = s.err := rfl
@[simp] theorem setP_q (v : Memory) (s : State) : (setP v s).q = s.q := rfl
@[simp] theorem setP_p (v : Memory) (s : State) : (setP v s).p = v := rfl
@[simp] theorem setP_args (v : Memory) (s : State) : (setP v s).args = s.args := rfl
@[simp] theorem setP_impl (v : Memory) (s : State) : (setP v s).impl = s.impl := rfl
@[simp] theorem setP_launches (v : Memory) (s : State) : (setP v s).launches = s.launches := rfl

/-! ### `setSlot` and `store` -/

@[simp] theorem setSlot_prev (i : Fin 64) (v : Pixel) (s : State) : (setSlot i v s).prev = s.prev := rfl
@[simp] theorem store_prev (v : Pixel) (s : State) : (store v s).prev = s.prev := rfl
@[simp] theorem setSlot_run (i : Fin 64) (v : Pixel) (s : State) : (setSlot i v s).run = s.run := rfl
@[simp] theorem store_run (v : Pixel) (s : State) : (store v s).run = s.run := rfl
@[simp] theorem setSlot_width (i : Fin 64) (v : Pixel) (s : State) : (setSlot i v s).width = s.width := rfl
@[simp] theorem store_width (v : Pixel) (s : State) : (store v s).width = s.width := rfl
@[simp] theorem setSlot_height (i : Fin 64) (v : Pixel) (s : State) : (setSlot i v s).height = s.height := rfl
@[simp] theorem store_height (v : Pixel) (s : State) : (store v s).height = s.height := rfl
@[simp] theorem setSlot_channels (i : Fin 64) (v : Pixel) (s : State) : (setSlot i v s).channels = s.channels := rfl
@[simp] theorem store_channels (v : Pixel) (s : State) : (store v s).channels = s.channels := rfl
@[simp] theorem setSlot_colorspace (i : Fin 64) (v : Pixel) (s : State) : (setSlot i v s).colorspace = s.colorspace := rfl
@[simp] theorem store_colorspace (v : Pixel) (s : State) : (store v s).colorspace = s.colorspace := rfl
@[simp] theorem setSlot_pxn (i : Fin 64) (v : Pixel) (s : State) : (setSlot i v s).pxn = s.pxn := rfl
@[simp] theorem store_pxn (v : Pixel) (s : State) : (store v s).pxn = s.pxn := rfl
@[simp] theorem setSlot_pxi (i : Fin 64) (v : Pixel) (s : State) : (setSlot i v s).pxi = s.pxi := rfl
@[simp] theorem store_pxi (v : Pixel) (s : State) : (store v s).pxi = s.pxi := rfl
@[simp] theorem setSlot_pos (i : Fin 64) (v : Pixel) (s : State) : (setSlot i v s).pos = s.pos := rfl
@[simp] theorem store_pos (v : Pixel) (s : State) : (store v s).pos = s.pos := rfl
@[simp] theorem setSlot_len (i : Fin 64) (v : Pixel) (s : State) : (setSlot i v s).len = s.len := rfl
@[simp] theorem store_len (v : Pixel) (s : State) : (store v s).len = s.len := rfl
@[simp] theorem setSlot_cmode (i : Fin 64) (v : Pixel) (s : State) : (setSlot i v s).cmode = s.cmode := rfl
@[simp] theorem store_cmode (v : Pixel) (s : State) : (store v s).cmode = s.cmode := rfl
@[simp] theorem setSlot_mode (i : Fin 64) (v : Pixel) (s : State) : (setSlot i v s).mode = s.mode := rfl
@[simp] theorem store_mode (v : Pixel) (s : State) : (store v s).mode = s.mode := rfl
@[simp] theorem setSlot_phase (i : Fin 64) (v : Pixel) (s : State) : (setSlot i v s).phase = s.phase := rfl
@[simp] theorem store_phase (v : Pixel) (s : State) : (store v s).phase = s.phase := rfl
@[simp] theorem setSlot_err (i : Fin 64) (v : Pixel) (s : State) : (setSlot i v s).err = s.err := rfl
@[simp] theorem store_err (v : Pixel) (s : State) : (store v s).err = s.err := rfl
@[simp] theorem setSlot_q (i : Fin 64) (v : Pixel) (s : State) : (setSlot i v s).q = s.q := rfl
@[simp] theorem store_q (v : Pixel) (s : State) : (store v s).q = s.q := rfl
@[simp] theorem setSlot_p (i : Fin 64) (v : Pixel) (s : State) : (setSlot i v s).p = s.p := rfl
@[simp] theorem store_p (v : Pixel) (s : State) : (store v s).p = s.p := rfl
@[simp] theorem setSlot_args (i : Fin 64) (v : Pixel) (s : State) : (setSlot i v s).args = s.args := rfl
@[simp] theorem store_args (v : Pixel) (s : State) : (store v s).args = s.args := rfl
@[simp] theorem setSlot_impl (i : Fin 64) (v : Pixel) (s : State) : (setSlot i v s).impl = s.impl := rfl
@[simp] theorem store_impl (v : Pixel) (s : State) : (store v s).impl = s.impl := rfl
@[simp] theorem setSlot_launches (i : Fin 64) (v : Pixel) (s : State) : (setSlot i v s).launches = s.launches := rfl
@[simp] theorem store_launches (v : Pixel) (s : State) : (store v s).launches = s.launches := rfl

@[simp] theorem setSlot_cache_same (i : Fin 64) (v : Pixel) (s : State) :
    (setSlot i v s).cache.get i = v := by
  simp [setSlot, Vector.get_eq_getElem]

theorem setSlot_cache_ne {i j : Fin 64} (v : Pixel) (s : State) (h : j ≠ i) :
    (setSlot i v s).cache.get j = s.cache.get j := by
  have h' : i.val ≠ j.val := fun e => h (Fin.ext e.symm)
  simp [setSlot, Vector.get_eq_getElem, h']

@[simp] theorem store_cache_same (v : Pixel) (s : State) : (store v s).cache.get (hash v) = v :=
  setSlot_cache_same _ _ _

theorem store_cache_ne {j : Fin 64} (v : Pixel) (s : State) (h : j ≠ hash v) :
    (store v s).cache.get j = s.cache.get j :=
  setSlot_cache_ne _ _ h

/-! ### `takeFault`: every register but `PHASE`, `ERR` and the output buffer -/

@[simp] theorem takeFault_prev (e : Err) (s : State) : (takeFault e s).prev = s.prev := by
  unfold takeFault; split <;> rfl
@[simp] theorem takeFault_cache (e : Err) (s : State) : (takeFault e s).cache = s.cache := by
  unfold takeFault; split <;> rfl
@[simp] theorem takeFault_run (e : Err) (s : State) : (takeFault e s).run = s.run := by
  unfold takeFault; split <;> rfl
@[simp] theorem takeFault_width (e : Err) (s : State) : (takeFault e s).width = s.width := by
  unfold takeFault; split <;> rfl
@[simp] theorem takeFault_height (e : Err) (s : State) : (takeFault e s).height = s.height := by
  unfold takeFault; split <;> rfl
@[simp] theorem takeFault_channels (e : Err) (s : State) : (takeFault e s).channels = s.channels := by
  unfold takeFault; split <;> rfl
@[simp] theorem takeFault_colorspace (e : Err) (s : State) : (takeFault e s).colorspace = s.colorspace := by
  unfold takeFault; split <;> rfl
@[simp] theorem takeFault_pxn (e : Err) (s : State) : (takeFault e s).pxn = s.pxn := by
  unfold takeFault; split <;> rfl
@[simp] theorem takeFault_pxi (e : Err) (s : State) : (takeFault e s).pxi = s.pxi := by
  unfold takeFault; split <;> rfl
@[simp] theorem takeFault_pos (e : Err) (s : State) : (takeFault e s).pos = s.pos := by
  unfold takeFault; split <;> rfl
@[simp] theorem takeFault_len (e : Err) (s : State) : (takeFault e s).len = s.len := by
  unfold takeFault; split <;> rfl
@[simp] theorem takeFault_cmode (e : Err) (s : State) : (takeFault e s).cmode = s.cmode := by
  unfold takeFault; split <;> rfl
@[simp] theorem takeFault_mode (e : Err) (s : State) : (takeFault e s).mode = s.mode := by
  unfold takeFault; split <;> rfl
@[simp] theorem takeFault_args (e : Err) (s : State) : (takeFault e s).args = s.args := by
  unfold takeFault; split <;> rfl
@[simp] theorem takeFault_impl (e : Err) (s : State) : (takeFault e s).impl = s.impl := by
  unfold takeFault; split <;> rfl
@[simp] theorem takeFault_launches (e : Err) (s : State) : (takeFault e s).launches = s.launches := by
  unfold takeFault; split <;> rfl
@[simp] theorem takeFault_phase (e : Err) (s : State) : (takeFault e s).phase = .fault := by
  unfold takeFault; split <;> rfl
@[simp] theorem takeFault_err (e : Err) (s : State) : (takeFault e s).err = e := by
  unfold takeFault; split <;> rfl
theorem takeFault_q (e : Err) (s : State) :
    (takeFault e s).q = if s.mode = .enc then [] else s.q := by
  unfold takeFault; split <;> simp_all
theorem takeFault_p (e : Err) (s : State) :
    (takeFault e s).p = if s.mode = .dec then [] else s.p := by
  unfold takeFault; split <;> simp_all

end Sys2Proof.Machine
end

