-- ==== Sys2Proof/Laws/Ops.lean ====
section
/-! SUPPORT. For each shared operation one lemma that says once what it can do: when it answers, and
with which state. Later proofs cite these instead of unfolding the operation. -/

namespace Sys2Proof.Machine

/-! ### How a step ends -/

@[simp] theorem settle_ok (s t : State) : settle s (.ok t) = .next t := rfl

@[simp] theorem settle_raise (s : State) (e : Err) :
    settle s (.error (.raise e)) = .next (takeFault e s) := rfl

@[simp] theorem settle_fault (s : State) (f : Fault) : settle s (.error (.fault f)) = .fault f := rfl

@[simp] theorem settle_refuse (s : State) (r : Refusal) :
    settle s (.error (.refuse r)) = .refused r := rfl

/-- A step that answers a next state either ran to its last line or took a fault. -/
theorem settle_eq_next {s t : State} {r : Except Stop State} (h : settle s r = .next t) :
    r = .ok t ∨ ∃ e, r = .error (.raise e) ∧ t = takeFault e s := by
  match r, h with
  | .ok u, h => exact .inl (by simpa [settle] using h)
  | .error (.raise e), h => exact .inr ⟨e, rfl, by simpa [settle] using h.symm⟩
  | .error (.fault f), h => simp [settle] at h
  | .error (.refuse f), h => simp [settle] at h

/-- A chain that answers: each link answered. -/
theorem bind_eq_ok {α β : Type} {x : Except Stop α} {f : α → Except Stop β} {b : β} :
    (x >>= f) = .ok b ↔ ∃ a, x = .ok a ∧ f a = .ok b := by
  cases x <;> simp [bind, Except.bind]

/-- A chain that ends early: the first link did, or it answered and the rest did. -/
theorem bind_eq_error {α β : Type} {x : Except Stop α} {f : α → Except Stop β} {e : Stop} :
    (x >>= f) = .error e ↔ x = .error e ∨ ∃ a, x = .ok a ∧ f a = .error e := by
  cases x <;> simp [bind, Except.bind]

@[simp] theorem ok_bind {α β : Type} (a : α) (f : α → Except Stop β) :
    ((Except.ok a : Except Stop α) >>= f) = f a := rfl

@[simp] theorem error_bind {α β : Type} (e : Stop) (f : α → Except Stop β) :
    ((Except.error e : Except Stop α) >>= f) = .error e := rfl

@[simp] theorem pure_ok {α : Type} (a : α) : (pure a : Except Stop α) = .ok a := rfl

/-! ### The cursor's checks -/

theorem checkRead_eq_ok {n : Nat} {s : State} :
    checkRead n s = .ok () ↔ s.cmode = .read ∧ s.pos + n ≤ s.len := by
  unfold checkRead
  split
  · simp_all
  · split <;> simp_all

theorem checkWrite_eq_ok {n : Nat} {s : State} :
    checkWrite n s = .ok () ↔ s.cmode = .write ∧ s.pos + n ≤ s.len := by
  unfold checkWrite
  split
  · simp_all
  · split <;> simp_all

theorem checkRead_short {n : Nat} {s : State} (hm : s.cmode = .read) (h : s.len < s.pos + n) :
    checkRead n s = .error .outOfRange := by
  simp [checkRead, hm, h]

theorem checkRead_write {n : Nat} {s : State} (hm : s.cmode = .write) :
    checkRead n s = .error .invalidOperation := by
  simp [checkRead, hm]

/-! ### Reads -/

theorem get8_eq_ok {s t : State} {v : Byte} :
    get8 s = .ok (v, t) ↔
      s.cmode = .read ∧ s.pos + 1 ≤ s.len ∧ s.q.read s.pos = some v ∧ t = setPos (s.pos + 1) s := by
  rw [← and_assoc, ← checkRead_eq_ok]
  unfold get8 read8 peek8
  cases hc : checkRead 1 s <;> cases hq : s.q.read s.pos <;> simp [eq_comm]

theorem get32_eq_ok {s t : State} {w : Word} :
    get32 s = .ok (w, t) ↔
      s.cmode = .read ∧ s.pos + 4 ≤ s.len ∧
      (∃ b0 b1 b2 b3, s.q.readBytes s.pos 4 = some [b0, b1, b2, b3] ∧ w = be32 b0 b1 b2 b3) ∧
      t = setPos (s.pos + 4) s := by
  rw [← and_assoc, ← checkRead_eq_ok]
  unfold get32 read32
  cases hc : checkRead 4 s with
  | error e => simp
  | ok u =>
    cases hq : s.q.readBytes s.pos 4 with
    | none => simp
    | some bs =>
      match bs, Memory.readBytes_length hq with
      | [b0, b1, b2, b3], _ =>
        simp only [Except.ok.injEq, Prod.mk.injEq, Option.some.injEq, List.cons.injEq, and_true,
          true_and]
        constructor
        · rintro ⟨rfl, rfl⟩; exact ⟨⟨b0, b1, b2, b3, ⟨rfl, rfl, rfl, rfl⟩, rfl⟩, rfl⟩
        · rintro ⟨⟨c0, c1, c2, c3, ⟨rfl, rfl, rfl, rfl⟩, rfl⟩, rfl⟩; exact ⟨rfl, rfl⟩

theorem getBytes_eq_ok (n : Nat) :
    ∀ {s t : State} {bs : List Byte}, n ≠ 0 →
      (getBytes n s = .ok (bs, t) ↔
        s.cmode = .read ∧ s.pos + n ≤ s.len ∧ s.q.readBytes s.pos n = some bs ∧
        t = setPos (s.pos + n) s) := by
  induction n with
  | zero => intro _ _ _ h; exact absurd rfl h
  | succ n ih =>
    intro s t bs _
    constructor
    · intro h
      simp only [getBytes] at h
      split at h
      next => simp at h
      next v u hu =>
        obtain ⟨hm, hl, hv, rfl⟩ := get8_eq_ok.mp hu
        split at h
        next => simp at h
        next vs w hw =>
          obtain ⟨rfl, rfl⟩ : v :: vs = bs ∧ w = t := by simpa using h
          by_cases hn : n = 0
          · subst hn
            obtain ⟨rfl, rfl⟩ : [] = vs ∧ setPos (s.pos + 1) s = w := by simpa [getBytes] using hw
            exact ⟨hm, hl, by simp [Memory.readBytes, hv], rfl⟩
          · obtain ⟨_, hl', hvs, rfl⟩ := (ih hn).mp hw
            simp only [setPos_pos, setPos_len, setPos_q] at hl' hvs
            refine ⟨hm, by omega, by simp [Memory.readBytes, hv, hvs], ?_⟩
            simp [setPos, Nat.add_assoc, Nat.add_comm 1 n]
    · rintro ⟨hm, hl, hq, rfl⟩
      simp only [Memory.readBytes] at hq
      split at hq
      next v vs hv hvs =>
        obtain rfl : v :: vs = bs := by simpa using hq
        have h1 : get8 s = .ok (v, setPos (s.pos + 1) s) :=
          get8_eq_ok.mpr ⟨hm, by omega, hv, rfl⟩
        simp only [getBytes, h1]
        by_cases hn : n = 0
        · subst hn
          obtain rfl : [] = vs := by simpa [Memory.readBytes] using hvs
          simp [getBytes]
        · have h2 : getBytes n (setPos (s.pos + 1) s) =
              .ok (vs, setPos (s.pos + 1 + n) (setPos (s.pos + 1) s)) :=
            (ih hn).mpr ⟨hm, by simp only [setPos_pos, setPos_len]; omega, hvs, rfl⟩
          rw [h2]
          simp [setPos, Nat.add_assoc, Nat.add_comm 1 n]
      next => simp at hq

theorem consume_eq_ok {n : Nat} {s t : State} :
    consume n s = .ok t ↔ s.cmode = .read ∧ s.pos + n ≤ s.len ∧ t = setPos (s.pos + n) s := by
  rw [← and_assoc, ← checkRead_eq_ok]
  unfold consume
  cases checkRead n s <;> simp [eq_comm]

/-! ### Writes -/

theorem put8_eq_ok {v : Byte} {s t : State} :
    put8 v s = .ok t ↔
      s.cmode = .write ∧ s.pos + 1 ≤ s.len ∧
      t = setPos (s.pos + 1) (setQ (s.q.write s.pos v) s) := by
  rw [← and_assoc, ← checkWrite_eq_ok]
  unfold put8 write8
  cases checkWrite 1 s <;> simp [eq_comm]

theorem put32_eq_ok {v : Word} {s t : State} :
    put32 v s = .ok t ↔
      s.cmode = .write ∧ s.pos + 4 ≤ s.len ∧
      t = setPos (s.pos + 4) (setQ (s.q.writeBytes s.pos (bytesBe32 v)) s) := by
  rw [← and_assoc, ← checkWrite_eq_ok]
  unfold put32 write32
  cases checkWrite 4 s <;> simp [eq_comm]

theorem putBytes_eq_ok (vs : List Byte) :
    ∀ {s t : State}, vs ≠ [] →
      (putBytes vs s = .ok t ↔
        s.cmode = .write ∧ s.pos + vs.length ≤ s.len ∧
        t = setPos (s.pos + vs.length) (setQ (s.q.writeBytes s.pos vs) s)) := by
  induction vs with
  | nil => intro _ _ h; exact absurd rfl h
  | cons v vs ih =>
    intro s t _
    by_cases hm : s.cmode = .write ∧ s.pos + 1 ≤ s.len
    · have h1 : put8 v s = .ok (setPos (s.pos + 1) (setQ (s.q.write s.pos v) s)) :=
        put8_eq_ok.mpr ⟨hm.1, hm.2, rfl⟩
      simp only [putBytes, h1]
      cases vs with
      | nil => simp [putBytes, hm, Memory.writeBytes, eq_comm]
      | cons w ws =>
        rw [ih (by simp)]
        simp only [setPos_cmode, setQ_cmode, setPos_pos, setPos_len, setQ_len, setPos_q, setQ_q,
          List.length_cons, Memory.writeBytes]
        have e : s.pos + 1 + (ws.length + 1) = s.pos + (ws.length + 1 + 1) := by omega
        rw [e]
        exact Iff.rfl
    · constructor
      · intro h
        simp only [putBytes] at h
        split at h
        next => simp at h
        next u hu => exact absurd ⟨(put8_eq_ok.mp hu).1, (put8_eq_ok.mp hu).2.1⟩ hm
      · rintro ⟨h1, h2, -⟩
        exact absurd ⟨h1, by simp only [List.length_cons] at h2; omega⟩ hm

/-! ### The decoder's output -/

theorem emit_eq_ok {p : Pixel} {s t : State} :
    emit p s = .ok t ↔
      s.pxi < s.pxn ∧ t = setPxi (s.pxi + 1) (setP (s.p.writeBytes (4 * s.pxi) p.bytes) s) := by
  unfold emit
  split <;> simp_all [eq_comm]

/-- A run is emitted as one write of all its bytes. -/
theorem emitMany_eq_ok (p : Pixel) (n : Nat) :
    ∀ {s : State}, s.pxi + n ≤ s.pxn →
      emitMany p n s =
        .ok (setPxi (s.pxi + n)
          (setP (s.p.writeBytes (4 * s.pxi) (List.replicate n p.bytes).flatten) s)) := by
  induction n with
  | zero => intro s _; rfl
  | succ n ih =>
    intro s h
    have h1 : emit p s = .ok (setPxi (s.pxi + 1) (setP (s.p.writeBytes (4 * s.pxi) p.bytes) s)) :=
      emit_eq_ok.mpr ⟨by omega, rfl⟩
    simp only [emitMany, h1]
    rw [ih (by simp only [setPxi_pxi, setPxi_pxn, setP_pxn]; omega)]
    have e : 4 * s.pxi + p.bytes.length = 4 * (s.pxi + 1) := by simp [Pixel.bytes]; omega
    simp only [setPxi, setP, List.replicate_succ, List.flatten_cons, Memory.writeBytes_append, e]
    rw [show s.pxi + 1 + n = s.pxi + (n + 1) by omega]

theorem produce_eq_ok {n : Nat} {p : Pixel} {s t : State} :
    produce n p s = .ok t ↔
      s.cmode = .read ∧ s.pos + n ≤ s.len ∧ s.pxi < s.pxn ∧
      t = setPrev p (store p (setPxi (s.pxi + 1)
        (setP (s.p.writeBytes (4 * s.pxi) p.bytes) (setPos (s.pos + n) s)))) := by
  unfold produce
  by_cases hc : s.cmode = .read ∧ s.pos + n ≤ s.len
  · have h1 : consume n s = .ok (setPos (s.pos + n) s) := consume_eq_ok.mpr ⟨hc.1, hc.2, rfl⟩
    simp only [h1]
    by_cases hp : s.pxi < s.pxn
    · have h2 : emit p (setPos (s.pos + n) s) = .ok (setPxi (s.pxi + 1)
          (setP (s.p.writeBytes (4 * s.pxi) p.bytes) (setPos (s.pos + n) s))) :=
        emit_eq_ok.mpr ⟨hp, rfl⟩
      simp [h2, hc, hp, eq_comm]
    · have h2 : emit p (setPos (s.pos + n) s) = .error (.fault .pastImage) := by
        simp [emit, hp]
      simp [h2, hp]
  · constructor
    · intro h
      cases hk : consume n s with
      | error e => rw [hk] at h; simp at h
      | ok u => exact absurd ⟨(consume_eq_ok.mp hk).1, (consume_eq_ok.mp hk).2.1⟩ hc
    · rintro ⟨h1, h2, -⟩
      exact absurd ⟨h1, h2⟩ hc

/-! ### The container -/

theorem demand_eq_ok {ok : Bool} {c : FormatCause} : demand ok c = .ok () ↔ ok = true := by
  unfold demand; split <;> simp_all

theorem matchBytes_eq_ok (vs : List Byte) :
    ∀ {s t : State}, vs ≠ [] →
      (matchBytes vs s = .ok t ↔
        s.cmode = .read ∧ s.pos + vs.length ≤ s.len ∧ s.q.readBytes s.pos vs.length = some vs ∧
        t = setPos (s.pos + vs.length) s) := by
  induction vs with
  | nil => intro _ _ h; exact absurd rfl h
  | cons v vs ih =>
    intro s t _
    constructor
    · intro h
      simp only [matchBytes] at h
      split at h
      next => simp at h
      next b u hu =>
        obtain ⟨hm, hl, hv, rfl⟩ := get8_eq_ok.mp hu
        split at h
        next => simp at h
        next hb =>
          obtain rfl : b = v := by simpa using hb
          cases vs with
          | nil =>
            obtain rfl : setPos (s.pos + 1) s = t := by simpa [matchBytes] using h
            exact ⟨hm, hl, by simp [Memory.readBytes, hv], rfl⟩
          | cons w ws =>
            obtain ⟨_, hl', hq, rfl⟩ := (ih (by simp)).mp h
            simp only [setPos_pos, setPos_len, setPos_q, List.length_cons] at hl' hq
            refine ⟨hm, by simp only [List.length_cons]; omega, ?_, ?_⟩
            · rw [List.length_cons, Memory.readBytes, hv, List.length_cons, hq]
            · simp [setPos]; omega
    · rintro ⟨hm, hl, hq, rfl⟩
      simp only [List.length_cons] at hl hq ⊢
      simp only [Memory.readBytes] at hq
      split at hq
      next x xs hx hxs =>
        obtain ⟨rfl, rfl⟩ : x = v ∧ xs = vs := by simpa using hq
        have h1 : get8 s = .ok (x, setPos (s.pos + 1) s) :=
          get8_eq_ok.mpr ⟨hm, by omega, hx, rfl⟩
        simp only [matchBytes, h1]
        cases xs with
        | nil => simp [matchBytes]
        | cons w ws =>
          have h2 := (ih (s := setPos (s.pos + 1) s)
            (t := setPos (s.pos + 1 + (w :: ws).length) (setPos (s.pos + 1) s)) (by simp)).mpr
              ⟨hm, by simp only [setPos_pos, setPos_len, List.length_cons] at hl ⊢; omega, hxs, rfl⟩
          rw [if_neg (by simp), h2]
          simp [setPos]; omega
      next => simp at hq

end Sys2Proof.Machine
end

