-- ==== Sys2Proof/Laws/Passes.lean ====
section
/-! SUPPORT. What can end an operation of a pass early, said once; the inversion of an op of the decode
pass; and what the encoder's flush and header do. -/

namespace Sys2Proof.Machine

/-! ### Reads that fail -/

/-- The faults that a failed read can raise: a truncated input, or the fatal assertion on a write
cursor. -/
def ReadFault (s : State) (e : Err) : Prop :=
  e = .formatError .truncated ∨ (e = .fatalAssertion .invalidOperation ∧ s.cmode = .write)

/-- How a failed read ends a step: at a byte without a value, or with a fault of the spec. -/
def ReadStop (s : State) (x : Stop) : Prop :=
  (∃ a, x = .fault (.noByte a)) ∨ ∃ e, x = .raise e ∧ ReadFault s e

theorem checkRead_eq_error {n : Nat} {s : State} {f : CursorFail} (h : checkRead n s = .error f) :
    ∃ e, readStop f = .raise e ∧ ReadFault s e := by
  unfold checkRead at h
  split at h
  · next hm =>
    obtain rfl := by simpa using h
    exact ⟨_, rfl, .inr ⟨rfl, by cases hc : s.cmode <;> simp_all⟩⟩
  · split at h
    · obtain rfl := by simpa using h
      exact ⟨_, rfl, .inl rfl⟩
    · simp at h

theorem consume_eq_error {n : Nat} {s : State} {x : Stop} (h : consume n s = .error x) :
    ∃ e, x = .raise e ∧ ReadFault s e := by
  unfold consume at h
  split at h
  · next hc =>
    obtain rfl := by simpa using h
    exact checkRead_eq_error hc
  · simp at h

theorem peek8_eq_error {s : State} {f : CursorFail} (h : peek8 s = .error f) :
    ReadStop s (readStop f) := by
  unfold peek8 at h
  split at h
  · next hc =>
    obtain rfl := by simpa using h
    exact .inr (checkRead_eq_error hc)
  · split at h
    · simp at h
    · obtain rfl := by simpa using h
      exact .inl ⟨_, rfl⟩

theorem get8_eq_error {s : State} {x : Stop} (h : get8 s = .error x) : ReadStop s x := by
  unfold get8 read8 at h
  split at h
  · simp at h
  · next hr =>
    split at hr
    · next hp =>
      obtain rfl := by simpa using hr
      obtain rfl := by simpa using h
      exact peek8_eq_error hp
    · simp at hr

theorem get32_eq_error {s : State} {x : Stop} (h : get32 s = .error x) : ReadStop s x := by
  unfold get32 read32 at h
  split at h
  · simp at h
  · next hr =>
    split at hr
    · next hc =>
      obtain rfl := by simpa using hr
      obtain rfl := by simpa using h
      exact .inr (checkRead_eq_error hc)
    · split at hr
      · simp at hr
      · obtain rfl := by simpa using hr
        obtain rfl := by simpa using h
        exact .inl ⟨_, rfl⟩

theorem getBytes_eq_error (n : Nat) :
    ∀ {s : State} {x : Stop}, getBytes n s = .error x → ReadStop s x := by
  induction n with
  | zero => intro s x h; simp [getBytes] at h
  | succ n ih =>
    intro s x h
    simp only [getBytes] at h
    split at h
    · next hg =>
      obtain rfl := by simpa using h
      exact get8_eq_error hg
    · next v t ht =>
      obtain ⟨-, -, -, rfl⟩ := get8_eq_ok.mp ht
      split at h
      · next hg =>
        obtain rfl := by simpa using h
        simpa [ReadStop, ReadFault] using ih hg
      · simp at h

theorem matchBytes_eq_error (vs : List Byte) :
    ∀ {s : State} {x : Stop}, matchBytes vs s = .error x →
      ReadStop s x ∨ x = .raise (.formatError .endmarker) := by
  induction vs with
  | nil => intro s x h; simp [matchBytes] at h
  | cons v vs ih =>
    intro s x h
    simp only [matchBytes] at h
    split at h
    · next hg =>
      obtain rfl := by simpa using h
      exact .inl (get8_eq_error hg)
    · next b t ht =>
      obtain ⟨-, -, -, rfl⟩ := get8_eq_ok.mp ht
      split at h
      · obtain rfl := by simpa using h
        exact .inr rfl
      · simpa [ReadStop, ReadFault] using ih h

/-- How the fetch of an op fails. -/
theorem fetchOp_eq_error {s : State} {x : Stop} (h : fetchOp s = .error x) : ReadStop s x := by
  unfold fetchOp at h
  split at h
  · next hp =>
    obtain rfl := by simpa using h
    exact peek8_eq_error hp
  · split at h
    · next hg =>
      obtain rfl := by simpa using h
      exact getBytes_eq_error _ hg
    · split at h
      · simp at h
      · obtain rfl := by simpa using h
        exact .inr ⟨_, rfl, .inl rfl⟩

/-! ### An op of the decode pass -/

/-- The shape of every op that completes: `n` pixels in `bs`, `k` bytes consumed. -/
def OpCompletes (n k : Nat) (s t : State) : Prop :=
  ∃ prev cache bs, bs.length = 4 * n ∧ s.cmode = .read ∧ s.pos + k ≤ s.len ∧ s.pxi + n ≤ s.pxn ∧
    t = { s with
      prev := prev, cache := cache, pxi := s.pxi + n, pos := s.pos + k,
      p := s.p.writeBytes (4 * s.pxi) bs }

theorem produce_eq_next {n : Nat} {p : Pixel} {s t : State} (h : settle s (produce n p s) = .next t) :
    (∃ e, t = takeFault e s ∧ ReadFault s e) ∨ OpCompletes 1 n s t := by
  rcases settle_eq_next h with h | ⟨e, hr, rfl⟩
  · obtain ⟨hm, hl, hp, rfl⟩ := produce_eq_ok.mp h
    exact .inr ⟨_, _, p.bytes, rfl, hm, hl, hp, rfl⟩
  · refine .inl ⟨e, rfl, ?_⟩
    clear h
    unfold produce at hr
    split at hr
    · next hc =>
      obtain ⟨x, rfl, hx⟩ := consume_eq_error hc
      obtain rfl : x = e := by simpa using hr
      exact hx
    · split at hr
      · next he => simp only [emit] at he; split at he <;> simp_all
      · simp at hr

/-- An op that answers took a fault of a read, took the overrun fault of RUN, or completed. -/
theorem exec_eq_next {i : Instr} {s t : State} (h : exec i s = .next t) :
    (∃ e, t = takeFault e s ∧ (ReadFault s e ∨ e = .formatError .runOverrun)) ∨
    ∃ n, OpCompletes n i.length s t ∧ ((∀ k, i ≠ .run k) → n = 1) ∧ ∀ k, i = .run k → n = k := by
  have one : ∀ {j : Instr} {k : Nat}, (∀ m, j ≠ .run m) →
      ((∃ e, t = takeFault e s ∧ ReadFault s e) ∨ OpCompletes 1 k s t) →
      (∃ e, t = takeFault e s ∧ (ReadFault s e ∨ e = .formatError .runOverrun)) ∨
      ∃ n, OpCompletes n k s t ∧ ((∀ k, j ≠ .run k) → n = 1) ∧ ∀ k, j = .run k → n = k := by
    rintro j k hj (⟨e, he, hx⟩ | hc)
    · exact .inl ⟨e, he, .inl hx⟩
    · exact .inr ⟨1, hc, fun _ => rfl, fun m hm => absurd hm (hj m)⟩
  cases i with
  | diff | luma | rgb | rgba => exact one (by simp) (produce_eq_next h)
  | index slot =>
    refine one (by simp) ?_
    rcases settle_eq_next h with h | ⟨e, hr, rfl⟩
    · split at h
      · simp at h
      · next u hu =>
        obtain ⟨hm, hl, rfl⟩ := consume_eq_ok.mp hu
        simp only at h
        split at h
        · simp at h
        · next v hv =>
          obtain ⟨hp, rfl⟩ := emit_eq_ok.mp hv
          obtain rfl := by simpa using h
          exact .inr ⟨_, _, Pixel.bytes _, rfl, hm, hl, hp, rfl⟩
    · refine .inl ⟨e, rfl, ?_⟩
      clear h one
      split at hr
      · next hc =>
        obtain ⟨x, rfl, hx⟩ := consume_eq_error hc
        obtain rfl : x = e := by simpa using hr
        exact hx
      · simp only at hr
        split at hr
        · next he => simp only [emit] at he; split at he <;> simp_all
        · simp at hr
  | run n =>
    rcases settle_eq_next h with h | ⟨e, hr, rfl⟩
    · split at h
      · simp at h
      · next u hu =>
        obtain ⟨hm, hl, rfl⟩ := consume_eq_ok.mp hu
        split at h
        · simp at h
        · next hn =>
          have hn : s.pxi + n ≤ s.pxn := by simpa using hn
          rw [emitMany_eq_ok _ _ (by simpa using hn)] at h
          obtain rfl := by simpa using h
          refine .inr ⟨n, ⟨_, _, (List.replicate n (Pixel.bytes s.prev)).flatten, ?_, hm, hl, hn, rfl⟩,
            fun hk => absurd rfl (hk n), fun k hk => by simpa using hk⟩
          simp [Pixel.bytes]; omega
    · refine .inl ⟨e, rfl, ?_⟩
      clear h one
      split at hr
      · next hc =>
        obtain ⟨x, rfl, hx⟩ := consume_eq_error hc
        obtain rfl : x = e := by simpa using hr
        exact .inl hx
      · split at hr
        · obtain rfl := by simpa using hr
          exact .inr rfl
        · next hn =>
          rw [emitMany_eq_ok _ _ (by simpa using hn)] at hr
          simp at hr

/-! ### The encoder's writes -/

/-- A write of a list that may be empty. -/
theorem putBytes_ok (vs : List Byte) {s : State} (hm : s.cmode = .write)
    (hl : s.pos + vs.length ≤ s.len) :
    putBytes vs s = .ok (setPos (s.pos + vs.length) (setQ (s.q.writeBytes s.pos vs) s)) := by
  cases vs with
  | nil => rfl
  | cons v vs => exact (putBytes_eq_ok _ (by simp)).mpr ⟨hm, hl, rfl⟩

theorem flush_ok {s : State} (hm : s.cmode = .write) (hl : s.pos + 1 ≤ s.len) :
    flush s = .ok (setRun 0 (setPos (s.pos + 1)
      (setQ (s.q.writeBytes s.pos (encode (.run s.run.toNat))) s))) := by
  unfold flush
  rw [putBytes_ok _ hm (by simpa [encode] using hl)]
  rfl

theorem writeHeader_ok {s : State} (hm : s.cmode = .write) (h0 : s.pos = 0) (hl : 14 ≤ s.len) :
    writeHeader s = .ok { s with
      q := s.q.writeBytes 0 (headerBytes s.width s.height s.channels s.colorspace), pos := 14 } := by
  have w32 : ∀ (v : Word) (m : Memory) (k : Nat), k + 4 ≤ s.len →
      put32 v { s with q := m, pos := k } =
        .ok { s with q := m.writeBytes k (bytesBe32 v), pos := k + 4 } :=
    fun _ _ _ h => put32_eq_ok.mpr ⟨hm, h, rfl⟩
  have w8 : ∀ (v : Byte) (m : Memory) (k : Nat), k + 1 ≤ s.len →
      put8 v { s with q := m, pos := k } = .ok { s with q := m.write k v, pos := k + 1 } :=
    fun _ _ _ h => put8_eq_ok.mpr ⟨hm, h, rfl⟩
  have hs : s = { s with q := s.q, pos := 0 } := by rw [← h0]
  have hb : ∀ v : Word, (bytesBe32 v).length = 4 := fun _ => rfl
  have hq : s.q.writeBytes 0 (headerBytes s.width s.height s.channels s.colorspace) =
      ((((s.q.writeBytes 0 (bytesBe32 Config.magic)).writeBytes 4 (bytesBe32 s.width)).writeBytes 8
        (bytesBe32 s.height)).write 12 s.channels).write 13 s.colorspace := by
    simp [headerBytes, Memory.writeBytes_append, Memory.writeBytes, hb]
  have e1 := w32 Config.magic s.q 0 (by omega)
  rw [← hs] at e1
  simp only [writeHeader, e1, ok_bind, hq]
  rw [w32 s.width _ 4 (by omega), ok_bind, w32 s.height _ 8 (by omega), ok_bind,
    w8 s.channels _ 12 (by omega), ok_bind, w8 s.colorspace _ 13 (by omega)]

/-! ### Checks -/

theorem require_eq_ok {ok : Bool} {c : ArgCause} : Machine.require ok c = .ok () ↔ ok = true := by
  cases ok <;> simp [Machine.require]

theorem checkLimit_eq_ok {impl : Impl} {n : Nat} :
    checkLimit impl n = .ok () ↔ ∀ k, impl.maxPixels = some k → n ≤ k := by
  unfold checkLimit
  split
  · next h => simp [h]
  · next m h => split <;> simp [h] <;> omega

/-- The limit either passes or refuses. -/
theorem checkLimit_eq_error {impl : Impl} {n : Nat} {x : Stop} (h : checkLimit impl n = .error x) :
    x = .refuse .overMaxPixels ∧ ∃ k, impl.maxPixels = some k ∧ k < n := by
  unfold checkLimit at h
  split at h
  · simp at h
  · next m hm =>
    split at h
    · next hlt => exact ⟨by simpa using h.symm, m, hm, hlt⟩
    · simp at h

theorem legalChannels_eq_true {ch : Byte} : legalChannels ch = true ↔ ch = 3 ∨ ch = 4 := by
  simp [legalChannels]

theorem legalColorspace_eq_true {cs : Byte} : legalColorspace cs = true ↔ cs = 0 ∨ cs = 1 := by
  simp [legalColorspace]

/-! ### Spaces that grow -/

theorem readBytes_isSome_mono {m : Memory} {a n k : Nat} (h : (m.readBytes a n).isSome = true)
    (hk : k ≤ n) : (m.readBytes a k).isSome = true :=
  (Memory.readBytes_isSome _ _ _).mpr fun j hj => (Memory.readBytes_isSome _ _ _).mp h j (by omega)

/-- Bytes appended to a space readable up to `n` leave it readable up to their end. -/
theorem readBytes_isSome_append {m : Memory} {n : Nat} (bs : List Byte)
    (h : (m.readBytes 0 n).isSome = true) :
    ((m.writeBytes n bs).readBytes 0 (n + bs.length)).isSome = true := by
  refine (Memory.readBytes_isSome _ _ _).mpr fun j hj => ?_
  by_cases hn : j < n
  · rw [Memory.read_writeBytes_outside _ _ _ _ (by omega)]
    exact (Memory.readBytes_isSome _ _ _).mp h j hn
  · obtain ⟨k, rfl⟩ : ∃ k, j = n + k := ⟨j - n, by omega⟩
    rw [Nat.zero_add, Memory.read_writeBytes_inside _ _ _ _ (by omega)]
    rfl

end Sys2Proof.Machine
end

