-- ==== Sys2Proof/Laws/PerInstr.lean ====
section
/-! SUPPORT. The statement made of every op as syntax, one lemma per constructor. -/

namespace Sys2Proof.Laws.LengthByControlByte

/-- The first byte of a well-formed op's encoding alone tells how many bytes the encoding has
(30_encoding.md R80, R90). -/
def Statement (i : Instr) : Prop :=
  i.wellFormed = true →
    ∃ c rest, encode i = c :: rest ∧ opLength c = (encode i).length ∧ (encode i).length = i.length

theorem index (slot : Fin 64) : Statement (.index slot) := by
  intro _
  refine ⟨_, _, rfl, ?_, rfl⟩
  revert slot; decide

/-- A control byte with tag `10` begins a LUMA. -/
theorem opLength_tag10 (v : BitVec 6) : opLength (0b10#2 ++ v) = 2 := by revert v; decide

theorem diff (dr dg db : Int) : Statement (.diff dr dg db) := by
  intro _
  refine ⟨_, _, rfl, ?_, rfl⟩
  have h : ∀ x y z : BitVec 2, opLength (0b01#2 ++ x ++ y ++ z) = 1 := by decide
  exact h _ _ _

theorem luma (dg drg dbg : Int) : Statement (.luma dg drg dbg) := by
  intro _
  exact ⟨_, _, rfl, opLength_tag10 _, rfl⟩

theorem run (n : Nat) : Statement (.run n) := by
  intro h
  simp only [Instr.wellFormed, Bool.and_eq_true, decide_eq_true_eq] at h
  refine ⟨_, _, rfl, ?_, rfl⟩
  obtain ⟨k, rfl⟩ : ∃ k, n = k + 1 := ⟨n - 1, by omega⟩
  have hk : k < 62 := by omega
  have key : ∀ j : Fin 62, opLength (0b11#2 ++ BitVec.ofNat 6 j.val) = 1 := by decide
  exact key ⟨k, hk⟩

theorem rgb (r g b : Byte) : Statement (.rgb r g b) := fun _ => ⟨_, _, rfl, rfl, rfl⟩

theorem rgba (r g b a : Byte) : Statement (.rgba r g b a) := fun _ => ⟨_, _, rfl, rfl, rfl⟩

end Sys2Proof.Laws.LengthByControlByte
end

