-- ==== Sys2Proof/Tests/Slice0.lean ====
section
/-! SUPPORT. The model's own tests: ill-formed terms the checks refuse, words written out from the
formats of 30_encoding.md, single steps taken from spec/95_test_vectors.md (each comment names its
vector), and for every statement with hypotheses a state that meets them. -/

namespace Sys2Proof.Tests

open Sys2Proof.Machine

/-! ### Helpers -/

def impl0 : Impl := ⟨.ignore, none⟩

def blank : State := State.resetWith impl0

/-- A decoder in `BODY` with `prev` as given, 62 pixels owed and exactly `bytes` left at `POS` = 14. -/
def decAt (prev : Pixel) (bytes : List Byte) : State := placeOp { blank with prev := prev } bytes

/-- The same with one pixel owed. -/
def decLast (prev : Pixel) (bytes : List Byte) : State := { decAt prev bytes with pxi := 61 }

/-- A decoder in `TAIL` with exactly `bytes` left. -/
def decTailAt (tb : TrailingBytes) (bytes : List Byte) : State :=
  { placeOp (State.resetWith ⟨tb, none⟩) bytes with phase := .tail, pxi := 62 }

/-- A decode pass just started. -/
def decHeadAt (mx : Option Nat) (qoi : List Byte) : State :=
  { startDecode qoi (State.resetWith ⟨.ignore, mx⟩) with run := 5 }

/-- An encode pass just started over a buffer of `plen` bytes. -/
def encHeadAt (mx : Option Nat) (w h : Word) (ch cs : Byte) (plen : Nat) : State :=
  startEncode (List.replicate plen 7) w h ch cs (State.resetWith ⟨.ignore, mx⟩)

/-- An encoder in `BODY` with `n` four-channel pixels left, the next of them `cur`. -/
def encAt (prev cur : Pixel) (run : BitVec 6) (n : Nat) : State :=
  { blank with
    prev := prev, run := run, width := BitVec.ofNat 32 n, height := 1, channels := 4, pxn := n,
    pos := 14, len := n * 5 + 23, cmode := .write, mode := .enc, phase := .body,
    q := Memory.ofBytes 0 (headerBytes (BitVec.ofNat 32 n) 1 4 0),
    p := Memory.ofBytes 0 ((List.replicate n cur.bytes).flatten) }

/-- A cursor alone. -/
def cursorAt (m : CMode) (len pos : Nat) (bytes : List Byte) : State :=
  { blank with cmode := m, len := len, pos := pos, q := Memory.ofBytes 0 bytes }

def onNext (o : Outcome) (f : State → Bool) : Bool :=
  match o with
  | .next t => f t
  | _ => false

def faultsWith (o : Outcome) (e : Err) : Bool := onNext o fun t => t.phase == .fault && t.err == e

def refuses (o : Outcome) (r : Refusal) : Bool :=
  match o with
  | .refused r' => r' == r
  | _ => false

/-- The bytes a step of the encoder wrote at `POS` = 14. -/
def wrote (o : Outcome) (bs : List Byte) : Bool :=
  onNext o fun t => t.q.readBytes 14 (t.pos - 14) == some bs

/-! ### WellFormed: one ill-formed term for each check, and the ends of each range -/

theorem test_wf_refuses_diff_dr : (Instr.diff (-3) 0 0).wellFormed = false ∧
    (Instr.diff 2 0 0).wellFormed = false := by decide

theorem test_wf_refuses_diff_dg : (Instr.diff 0 (-3) 0).wellFormed = false ∧
    (Instr.diff 0 2 0).wellFormed = false := by decide

theorem test_wf_refuses_diff_db : (Instr.diff 0 0 (-3)).wellFormed = false ∧
    (Instr.diff 0 0 2).wellFormed = false := by decide

theorem test_wf_refuses_luma_dg : (Instr.luma (-33) 0 0).wellFormed = false ∧
    (Instr.luma 32 0 0).wellFormed = false := by decide

theorem test_wf_refuses_luma_drg : (Instr.luma 0 (-9) 0).wellFormed = false ∧
    (Instr.luma 0 8 0).wellFormed = false := by decide

theorem test_wf_refuses_luma_dbg : (Instr.luma 0 0 (-9)).wellFormed = false ∧
    (Instr.luma 0 0 8).wellFormed = false := by decide

theorem test_wf_refuses_run : (Instr.run 0).wellFormed = false ∧
    (Instr.run 63).wellFormed = false := by decide

theorem test_wf_accepts_the_ends : ∀ i ∈ [Instr.diff (-2) 1 (-2), .diff 1 (-2) 1, .luma (-32) 7 (-8),
    .luma 31 (-8) 7, .run 1, .run 62, .index 0, .index 63], i.wellFormed = true := by decide

/-! ### Decoding and encoding: words written bit by bit from R83 to R88 -/

/-- R83, V-O4: pattern 00iiiiii, slot 18. -/
theorem test_code_index : decode [0b00010010, 9] = .ok (.index 18, [9]) ∧
    encode (.index 18) = [0b00010010] := by decide

/-- R84, V-O8: pattern 01rrggbb, fields 3, 0, 2. -/
theorem test_code_diff : decode [0b01110010, 9] = .ok (.diff 1 (-2) 0, [9]) ∧
    encode (.diff 1 (-2) 0) = [0b01110010] := by decide

/-- R85, V-O12: pattern 10gggggg rrrrbbbb, fields 52, 5, 15. -/
theorem test_code_luma : decode [0b10110100, 0b01011111, 9] = .ok (.luma 20 (-3) 7, [9]) ∧
    encode (.luma 20 (-3) 7) = [0b10110100, 0b01011111] := by decide

/-- R86, V-C20, V-C21: pattern 11nnnnnn, lengths 1 and 62. -/
theorem test_code_run : decode [0b11000000] = .ok (.run 1, []) ∧
    decode [0b11111101] = .ok (.run 62, []) ∧ encode (.run 62) = [0b11111101] := by decide

/-- R87, V-O2. -/
theorem test_code_rgb : decode [0b11111110, 9, 8, 7] = .ok (.rgb 9 8 7, []) ∧
    encode (.rgb 9 8 7) = [0b11111110, 9, 8, 7] := by decide

/-- R88, V-O1. -/
theorem test_code_rgba : decode [0b11111111, 100, 150, 200, 128] = .ok (.rgba 100 150 200 128, []) ∧
    encode (.rgba 100 150 200 128) = [0b11111111, 100, 150, 200, 128] := by decide

/-- R90: an op that lacks its last byte is rejected under its own name. -/
theorem test_code_cut_short : decode [0xFF, 1, 2, 3] = .error (.cutShort "RGBA") ∧
    decode [0xFE, 1, 2] = .error (.cutShort "RGB") ∧ decode [0x80] = .error (.cutShort "LUMA") ∧
    decode [] = .error .noControlByte := by decide

/-- V-C15 to V-C24: the predicates at the ends of their ranges. -/
theorem test_predicates : isIndex 0x00 = true ∧ isIndex 0x3F = true ∧ isDiff 0x40 = true ∧
    isDiff 0x7F = true ∧ isLuma 0x80 = true ∧ isLuma 0xBF = true ∧ isRun 0xC0 = true ∧
    isRun 0xFD = true ∧ isRun 0xFE = false ∧ isRGB 0xFE = true ∧ isRun 0xFF = false ∧
    isRGBA 0xFF = true := by decide

/-! ### The six ops, one step each -/

/-- V-O3: a slot never stored into gives transparent black, and no slot is written. -/
theorem test_index_empty_slot : onNext (step (decAt prevInit [0x05])) (fun t =>
    t.p.readBytes 0 4 == some [0, 0, 0, 0] && t.prev == ⟨0, 0, 0, 0⟩ && t.pos == 15) = true := by
  decide

/-- V-O4: slot 18 is emitted and becomes the previous pixel. -/
theorem test_index_slot_18 :
    onNext (step { decAt prevInit [0x12] with cache := cacheInit.set 18 ⟨100, 150, 200, 128⟩ })
      (fun t => t.p.readBytes 0 4 == some [100, 150, 200, 128] && t.prev == ⟨100, 150, 200, 128⟩)
      = true := by decide

/-- V-O8: the new pixel is stored in slot 11. -/
theorem test_diff_stores : onNext (step (decAt ⟨100, 150, 200, 128⟩ [0x72])) (fun t =>
    t.prev == ⟨101, 148, 200, 128⟩ && t.cache.get 11 == ⟨101, 148, 200, 128⟩) = true := by decide

/-- V-O9: sums wrap modulo 256. -/
theorem test_diff_wraps : onNext (step (decAt prevInit [0x40])) (fun t =>
    t.p.readBytes 0 4 == some [254, 254, 254, 255] && t.cache.get 23 == ⟨254, 254, 254, 255⟩)
    = true := by decide

/-- V-O12: the two nibbles are relative to the green delta. -/
theorem test_luma_nibbles : onNext (step (decAt ⟨100, 150, 200, 128⟩ [0xB4, 0x5F])) (fun t =>
    t.prev == ⟨117, 170, 227, 128⟩ && t.cache.get 38 == ⟨117, 170, 227, 128⟩ && t.pos == 16)
    = true := by decide

/-- V-O13: the smallest deltas, wrapping. -/
theorem test_luma_wraps : onNext (step (decAt prevInit [0x80, 0x00])) (fun t =>
    t.prev == ⟨216, 224, 216, 255⟩) = true := by decide

/-- V-O5, V-F18: two copies of the previous pixel, which is not put into its slot 53. -/
theorem test_run_copies : onNext (step (decAt prevInit [0xC1])) (fun t =>
    t.pxi == 2 && t.p.readBytes 0 8 == some [0, 0, 0, 255, 0, 0, 0, 255] && t.prev == prevInit &&
    t.cache.get 53 == ⟨0, 0, 0, 0⟩) = true := by decide

/-- V-O7: a run longer than the pixels owed. -/
theorem test_run_overrun :
    faultsWith (step (decLast prevInit [0xC1])) (.formatError .runOverrun) = true := by decide

/-- V-O2: alpha is kept. -/
theorem test_rgb_keeps_alpha : onNext (step (decAt ⟨1, 2, 3, 4⟩ [0xFE, 9, 8, 7])) (fun t =>
    t.p.readBytes 0 4 == some [9, 8, 7, 4] && t.cache.get 32 == ⟨9, 8, 7, 4⟩) = true := by decide

/-- V-O1: stored in slot 18, five bytes consumed. -/
theorem test_rgba_stores : onNext (step (decAt prevInit [0xFF, 100, 150, 200, 128])) (fun t =>
    t.cache.get 18 == ⟨100, 150, 200, 128⟩ && t.pos == 19) = true := by decide

/-- V-F11: a stream that ends inside RGBA. -/
theorem test_rgba_cut_short :
    faultsWith (step (decAt prevInit [0xFF, 1, 2])) (.formatError .truncated) = true := by decide

/-! ### Container -/

/-- V-F15: a byte after the end marker, under both values of `TRAILING_BYTES`. -/
theorem test_trailing :
    onNext (step (decTailAt .ignore (endBytes ++ [0x55]))) (fun t => t.phase == .done) = true ∧
    faultsWith (step (decTailAt .fault (endBytes ++ [0x55]))) (.formatError .trailing) = true := by
  decide

/-- V-F8, V-F9, V-F10, V-F12: short, wrong, and short and wrong end markers. -/
theorem test_endmarker :
    faultsWith (step (decTailAt .ignore [0, 0, 0, 0, 0, 0, 0])) (.formatError .truncated) = true ∧
    faultsWith (step (decTailAt .ignore [0, 0, 0, 0, 0, 0, 0, 0])) (.formatError .endmarker) = true ∧
    faultsWith (step (decTailAt .ignore [0, 0, 0, 1, 0, 0, 0, 1])) (.formatError .endmarker) = true ∧
    faultsWith (step (decTailAt .ignore [0, 0, 0, 0, 0, 0, 1])) (.formatError .endmarker) = true := by
  decide

/-- V-K7: the dimensions are unsigned. -/
theorem test_header_unsigned : onNext (step (decHeadAt none
    [0x71, 0x6F, 0x69, 0x66, 0x80, 0, 0, 0, 0, 0, 0, 1, 4, 0])) (fun t =>
    t.pxn == 2147483648 && t.pos == 14 && t.phase == .body) = true := by decide

/-- V-F7, V-F16, V-F4: cut short at the width, empty, and five channels. -/
theorem test_header_faults :
    faultsWith (step (decHeadAt none [0x71, 0x6F, 0x69, 0x66, 0, 0])) (.formatError .truncated) = true ∧
    faultsWith (step (decHeadAt none [])) (.formatError .truncated) = true ∧
    faultsWith (step (decHeadAt none (headerBytes 1 1 5 0))) (.formatError .channels) = true := by
  decide

/-- V-K6: the header of a 65536 by 1 image of three channels, colorspace 1. -/
theorem test_header_bytes : headerBytes 65536 1 3 1 =
    [0x71, 0x6F, 0x69, 0x66, 0x00, 0x01, 0x00, 0x00, 0x00, 0x00, 0x00, 0x01, 0x03, 0x01] := by decide

/-! ### Encoder -/

/-- V-F22, V-F23: one byte too few, and just enough (no 22-byte floor). -/
theorem test_encode_plen :
    faultsWith (step (encHeadAt none 2 1 4 0 7)) (.invalidArgument .pixbufShort) = true ∧
    onNext (step (encHeadAt none 2 1 4 0 8)) (fun t => t.phase == .body && t.len == 32) = true := by
  decide

/-- V-F25, V-F26, V-F27: the first check that fails wins. -/
theorem test_encode_arguments :
    faultsWith (step (encHeadAt none 1 1 5 0 9)) (.invalidArgument .channels) = true ∧
    faultsWith (step (encHeadAt none 1 1 4 2 9)) (.invalidArgument .colorspace) = true ∧
    faultsWith (step (encHeadAt none 0 0 9 0 9)) (.invalidArgument .width) = true := by decide

/-- V-E20: slot 0 holds (0,0,0,0) from the start. -/
theorem test_encode_index : wrote (step (encAt prevInit ⟨0, 0, 0, 0⟩ 0 2)) [0x00] = true := by decide

/-- V-E1, V-E2. -/
theorem test_encode_diff :
    wrote (step (encAt ⟨100, 100, 100, 255⟩ ⟨98, 98, 98, 255⟩ 0 2)) [0x40] = true ∧
    wrote (step (encAt ⟨100, 100, 100, 255⟩ ⟨101, 101, 101, 255⟩ 0 2)) [0x7F] = true := by decide

/-- V-E4, V-E7. -/
theorem test_encode_luma :
    wrote (step (encAt ⟨100, 100, 100, 255⟩ ⟨97, 100, 100, 255⟩ 0 2)) [0xA0, 0x58] = true ∧
    wrote (step (encAt ⟨100, 100, 100, 255⟩ ⟨138, 131, 138, 255⟩ 0 2)) [0xBF, 0xFF] = true := by decide

/-- V-E18, V-E10: no delta wraps; a relative delta of 8 does not fit. -/
theorem test_encode_rgb :
    wrote (step (encAt ⟨255, 0, 0, 255⟩ ⟨0, 0, 0, 255⟩ 0 2)) [0xFE, 0, 0, 0] = true ∧
    wrote (step (encAt ⟨100, 100, 100, 255⟩ ⟨108, 100, 100, 255⟩ 0 2)) [0xFE, 0x6C, 0x64, 0x64]
      = true := by decide

/-- V-E17: a changed alpha is RGBA, however small the colour deltas. -/
theorem test_encode_rgba :
    wrote (step (encAt ⟨100, 100, 100, 255⟩ ⟨101, 100, 100, 254⟩ 0 2)) [0xFF, 0x65, 0x64, 0x64, 0xFE]
      = true := by decide

/-- V-E24, V-E25: a run grows without writing, and is flushed at 62. -/
theorem test_encode_run :
    wrote (step (encAt ⟨7, 7, 7, 255⟩ ⟨7, 7, 7, 255⟩ 0 2)) [] = true ∧
    wrote (step (encAt ⟨7, 7, 7, 255⟩ ⟨7, 7, 7, 255⟩ 61 2)) [0xFD] = true := by decide

/-- V-E26, V-E27: the last pixel flushes; another op is preceded by the flush. -/
theorem test_encode_flush :
    wrote (step (encAt ⟨7, 7, 7, 255⟩ ⟨7, 7, 7, 255⟩ 4 1)) [0xC4] = true ∧
    wrote (step (encAt ⟨7, 7, 7, 255⟩ ⟨8, 7, 7, 255⟩ 4 2)) [0xC3, 0x7A] = true := by decide

/-- V-E23: a colliding slot is no hit, and is overwritten. -/
theorem test_encode_collision :
    onNext (step { encAt ⟨1, 0, 0, 255⟩ ⟨65, 0, 0, 255⟩ 0 2 with
      cache := cacheInit.set 56 ⟨1, 0, 0, 255⟩ }) (fun t =>
      t.q.readBytes 14 4 == some [0xFE, 0x41, 0, 0] && t.cache.get 56 == ⟨65, 0, 0, 255⟩) = true := by
  decide

/-- V-E28: three channels, alpha from the previous pixel. -/
theorem test_encode_three_channels :
    wrote (step { encAt ⟨9, 9, 9, 255⟩ ⟨9, 9, 10, 0⟩ 0 2 with channels := 3 }) [0x6B] = true := by
  decide

/-! ### Cursor and pixel arithmetic -/

/-- V-C3, V-C7. -/
theorem test_read32 :
    read32 (cursorAt .read 4 0 [0xFF, 0xFF, 0xFF, 0xFF]) =
      .ok (4294967295, cursorAt .read 4 4 [0xFF, 0xFF, 0xFF, 0xFF]) ∧
    read32 (cursorAt .read 3 0 [0, 0, 0]) = .error .outOfRange := by decide

/-- V-C9, V-C14, V-C13. -/
theorem test_writes :
    write32 0x12345678 (cursorAt .write 32 4 [0, 0, 0, 2]) =
      .ok (cursorAt .write 32 8 [0, 0, 0, 2, 0x12, 0x34, 0x56, 0x78]) ∧
    write8 0 (cursorAt .write 2 2 [1, 2]) = .error .outOfRange ∧
    write8 0 (cursorAt .read 2 0 [1, 2]) = .error .invalidOperation := by decide

/-- V-C4, V-C5, V-C12. -/
theorem test_read8 :
    peek8 (cursorAt .read 2 0 [0xC1, 0]) = .ok 0xC1 ∧
    read8 (cursorAt .read 2 0 [0xC1, 0]) = .ok (0xC1, cursorAt .read 2 1 [0xC1, 0]) ∧
    read8 (cursorAt .read 1 1 [0xAA]) = .error .outOfRange ∧
    read8 (cursorAt .write 1 0 [0xAA]) = .error .invalidOperation := by decide

/-- V-H3, V-H6, V-D2, V-A6. -/
theorem test_pixel_arithmetic :
    Machine.hash ⟨255, 255, 255, 255⟩ = 38 ∧ Machine.hash ⟨0, 2, 63, 255⟩ = 56 ∧
    delta ⟨0, 0, 0, 255⟩ ⟨255, 0, 0, 255⟩ = ⟨-255, 0, 0, 0⟩ ∧
    addWrap ⟨250, 250, 250, 7⟩ 38 31 38 = ⟨32, 25, 32, 7⟩ := by decide

/-! ### Placing one op -/

/-- The placed state is the one that START and the header step reach (notes/assumptions/5.md). -/
theorem test_placed_state_is_reached :
    onNext (step { blank with
      launches := [.startDecode (headerBytes 62 1 4 0 ++ [0xC5, 0, 0, 0, 0])] }) (fun s =>
      onNext (step s) (fun t => t == { blank.withFetchWord 8 0xC5 with args := s.args })) = true := by
  decide

/-! ### The statements' hypotheses are met

`test_hyp_<Name>` meets the hypotheses of `Obligations.<Name>`, one conjunct for each of its clauses,
at the ends of their ranges. -/

theorem test_hyp_DecodeOfEncodeGivesTheOp : (Instr.luma (-32) 7 (-8)).wellFormed = true := by decide

theorem test_hyp_EncodeOfDecodeGivesTheBytes :
    decode (0xBF :: [0xFF, 1]) = .ok (.luma 31 7 7, [1]) := by decide

/-- An op of each of the six ranges is read. -/
theorem test_hyp_ControlByteRanges : decode [0x3F] = .ok (.index 63, []) ∧
    decode [0x7F] = .ok (.diff 1 1 1, []) ∧ decode [0xBF, 0xFF] = .ok (.luma 31 7 7, []) ∧
    decode [0xFD] = .ok (.run 62, []) ∧ decode [0xFE, 1, 2, 3] = .ok (.rgb 1 2 3, []) ∧
    decode [0xFF, 1, 2, 3, 4] = .ok (.rgba 1 2 3 4, []) := by decide

theorem test_hyp_IndexEmitsTheSlot :
    (0x3F : Byte).toNat ≤ 0x3F ∧ Ready 1 (decLast prevInit [0x3F]) ∧
    ((decAt prevInit []).cmode = .read ∧ (decAt prevInit []).len < (decAt prevInit []).pos + 1) :=
  ⟨by decide, ⟨by decide, by decide, by decide⟩, by decide⟩

theorem test_hyp_DiffAddsItsDeltas :
    (0x40 ≤ (0x7F : Byte).toNat ∧ (0x7F : Byte).toNat ≤ 0x7F) ∧ Ready 1 (decLast prevInit [0x40]) ∧
    ((decAt prevInit []).cmode = .read ∧ (decAt prevInit []).len < (decAt prevInit []).pos + 1) :=
  ⟨by decide, ⟨by decide, by decide, by decide⟩, by decide⟩

theorem test_hyp_LumaAddsItsDeltas :
    (0x80 ≤ (0xBF : Byte).toNat ∧ (0xBF : Byte).toNat ≤ 0xBF) ∧
    Ready 2 (decLast prevInit [0x80, 0]) ∧
    ((decAt prevInit [0x80]).cmode = .read ∧
      (decAt prevInit [0x80]).len < (decAt prevInit [0x80]).pos + 2) :=
  ⟨by decide, ⟨by decide, by decide, by decide⟩, by decide⟩

/-- n = 62 fits exactly; n = 2 overruns by one; no byte is left. -/
theorem test_hyp_RunRepeatsPreviousOrOverruns :
    (0xC0 ≤ (0xFD : Byte).toNat ∧ (0xFD : Byte).toNat ≤ 0xFD) ∧
    (let s := decAt prevInit [0xFD]
     s.cmode = .read ∧ s.pos + 1 ≤ s.len ∧ s.pxi + 62 ≤ s.pxn) ∧
    (let s := decLast prevInit [0xC1]
     s.cmode = .read ∧ s.pos + 1 ≤ s.len ∧ s.pxn < s.pxi + 2) ∧
    (let s := decAt prevInit []
     s.cmode = .read ∧ s.len < s.pos + 1) := by decide

theorem test_hyp_RgbEmitsRawColour :
    Ready 4 (decLast prevInit [0xFE, 1, 2, 3]) ∧
    (let s := decAt prevInit [0xFE, 1, 2]
     s.cmode = .read ∧ s.len < s.pos + 4) :=
  ⟨⟨by decide, by decide, by decide⟩, by decide⟩

theorem test_hyp_RgbaEmitsTheRawPixel :
    Ready 5 (decLast prevInit [0xFF, 1, 2, 3, 4]) ∧
    (let s := decAt prevInit [0xFF, 1, 2, 3]
     s.cmode = .read ∧ s.len < s.pos + 5) :=
  ⟨⟨by decide, by decide, by decide⟩, by decide⟩

/-- An op that completes, one that faults, a RUN and an INDEX. -/
theorem test_hyp_OpsLeaveTheRestAlone :
    onNext (exec (.rgba 1 2 3 4) (decAt prevInit [0xFF, 1, 2, 3, 4])) (fun t => t.phase == .body) = true ∧
    faultsWith (exec (.rgb 1 2 3) (decAt prevInit [0xFE])) (.formatError .truncated) = true ∧
    onNext (exec (.run 2) (decAt prevInit [0xC1])) (fun t => t.pxi == 2) = true ∧
    onNext (exec (.index 63) (decAt prevInit [0x3F])) (fun t => t.pxi == 1) = true := by decide

theorem test_hyp_OpOnWriteCursorIsAFatalAssertion : (cursorAt .write 0 0 []).cmode = .write := rfl

theorem test_hyp_OnePixelOpPastTheImageStops :
    let s := { decAt prevInit [0x05] with pxi := 62 }
    s.cmode = .read ∧ s.pos + (Instr.index 5).length ≤ s.len ∧ s.pxn ≤ s.pxi := by decide

theorem test_hyp_StepExecutesTheDecodedOp :
    Decoding (decLast prevInit [0xFF, 1, 2, 3, 4]) ∧
    (let s := decLast prevInit [0xFF, 1, 2, 3, 4]
     s.pos + 5 ≤ s.len ∧ s.q.readBytes s.pos 5 = some [0xFF, 1, 2, 3, 4] ∧
     decode [0xFF, 1, 2, 3, 4] = .ok (.rgba 1 2 3 4, [])) :=
  ⟨⟨by decide, by decide, by decide, by decide⟩, by decide⟩

/-- No byte is left; the last byte of an RGBA is missing. -/
theorem test_hyp_TruncatedOpRaisesTruncated :
    (Decoding (decAt prevInit []) ∧ (decAt prevInit []).q.readBytes 14 0 = some [] ∧
      decode [] = .error .noControlByte) ∧
    (Decoding (decAt prevInit [0xFF, 1, 2, 3]) ∧
      (decAt prevInit [0xFF, 1, 2, 3]).q.readBytes 14 4 = some [0xFF, 1, 2, 3] ∧
      decode [0xFF, 1, 2, 3] = .error (.cutShort "RGBA")) :=
  ⟨⟨⟨by decide, by decide, by decide, by decide⟩, by decide⟩,
   ⟨⟨by decide, by decide, by decide, by decide⟩, by decide⟩⟩

/-- One pixel, the last owed, and two of many. -/
theorem test_hyp_DecodeStepEmits1To62Pixels :
    Decoding (decLast prevInit [0xC0]) ∧ Decoding (decAt prevInit [0xC1]) ∧
    onNext (step (decLast prevInit [0xC0])) (fun t => t.phase == .tail && t.pxi == 62) = true ∧
    onNext (step (decAt prevInit [0xC1])) (fun t => t.phase == .body && t.pxi == 2) = true :=
  ⟨⟨by decide, by decide, by decide, by decide⟩, ⟨by decide, by decide, by decide, by decide⟩,
   by decide, by decide⟩

theorem test_hyp_ChannelsDoNotSteerTheDecoder :
    onNext (step (decAt prevInit [0xFF, 1, 2, 3, 4])) (fun t => t.phase == .body) = true ∧
    onNext (step (decTailAt .ignore endBytes)) (fun t => t.phase == .done) = true := by decide

theorem test_hyp_PeekAndReadReturnTheSameByte :
    (cursorAt .write 1 0 []).cmode = .write ∧
    (let s := cursorAt .read 1 1 [0xAA]
     s.cmode = .read ∧ s.len < s.pos + 1) ∧
    (let s := cursorAt .read 2 1 [0xC1, 0]
     s.cmode = .read ∧ s.pos + 1 ≤ s.len ∧ s.q.read s.pos = some 0) := by decide

theorem test_hyp_Read32IsBigEndian :
    (let s := cursorAt .read 3 0 [0, 0, 0]
     s.cmode = .read ∧ s.len < s.pos + 4) ∧
    (let s := cursorAt .read 4 0 [0, 0, 1, 2]
     s.cmode = .read ∧ s.pos + 4 ≤ s.len ∧ s.q.readBytes s.pos 4 = some [0, 0, 1, 2]) := by decide

theorem test_hyp_Write32IsBigEndian :
    (let s := cursorAt .write 7 4 [0, 0, 0, 2]
     s.cmode = .write ∧ s.len < s.pos + 4) ∧
    (let s := cursorAt .write 8 4 [0, 0, 0, 2]
     s.cmode = .write ∧ s.pos + 4 ≤ s.len) := by decide

theorem test_hyp_Write8StoresAtPos :
    (let s := cursorAt .write 2 2 [1, 2]
     s.cmode = .write ∧ s.len < s.pos + 1) ∧
    (let s := cursorAt .write 2 1 [1]
     s.cmode = .write ∧ s.pos + 1 ≤ s.len) := by decide

/-- V-C11: 23 bytes written of a capacity of 32. -/
theorem test_hyp_ToOutputGivesTheBytesWritten :
    (let s := cursorAt .write 32 23 (List.replicate 23 7)
     s.cmode = .write ∧ s.q.readBytes 0 s.pos = some (List.replicate 23 7)) := by decide

theorem test_hyp_AddingTheDeltaGivesThePixelBack :
    (⟨255, 0, 255, 7⟩ : Pixel).a = (⟨0, 255, 0, 7⟩ : Pixel).a := by decide

theorem test_hyp_TakingAFault :
    (encAt prevInit prevInit 0 1).mode = .enc ∧ (decAt prevInit []).mode = .dec := by decide

/-- The hypotheses of `DecodeHeaderChecksInOrder` for one header, against a limit of eight pixels. -/
def headMet (m w h : Word) (ch cs : Byte) : Bool :=
  let bs := bytesBe32 m ++ bytesBe32 w ++ bytesBe32 h ++ [ch, cs]
  let s := decHeadAt (some 8) bs
  s.phase == .head && s.mode == .dec && s.args.qlen == 14 && s.q.readBytes 0 14 == some bs

/-- Clauses for magic, width and height. -/
theorem test_hyp_DecodeHeaderChecksInOrder : headMet 0x716F6967 0 1 4 0 = true ∧
    headMet 0x716F6966 0 0 4 0 = true ∧ headMet 0x716F6966 1 0 5 0 = true := by decide

/-- Channels on both sides of the legal values, and a colorspace. -/
theorem test_hyp_DecodeHeaderChecksInOrder_2 : headMet 0x716F6966 1 1 2 0 = true ∧
    headMet 0x716F6966 1 1 5 2 = true ∧ headMet 0x716F6966 1 1 3 2 = true := by decide

/-- The limit passed by one, and a header at the limit. -/
theorem test_hyp_DecodeHeaderChecksInOrder_3 : headMet 0x716F6966 3 3 4 1 = true ∧
    headMet 0x716F6966 4 2 4 1 = true := by decide

/-- The hypotheses of `ShortHeaderFaultsInOrder` for one buffer. -/
def shortMet (bs : List Byte) : Bool :=
  let s := decHeadAt none bs
  s.phase == .head && s.mode == .dec && bs.length == s.args.qlen && decide (bs.length < 14) &&
    s.q.readBytes 0 s.args.qlen == some bs

/-- Clauses up to the width: 3 bytes, a wrong magic, 7 bytes, a zero width. -/
theorem test_hyp_ShortHeaderFaultsInOrder : shortMet ((headerBytes 1 1 4 0).take 3) = true ∧
    shortMet [0x71, 0x6F, 0x69, 0x67] = true ∧ shortMet ((headerBytes 1 1 4 0).take 7) = true ∧
    shortMet ((headerBytes 0 1 4 0).take 8) = true := by decide

/-- Clauses from the height: 11 bytes, a zero height, 12 bytes, channels 5, colorspace missing. -/
theorem test_hyp_ShortHeaderFaultsInOrder_2 : shortMet ((headerBytes 1 1 4 0).take 11) = true ∧
    shortMet ((headerBytes 1 0 4 0).take 12) = true ∧ shortMet ((headerBytes 1 1 4 0).take 12) = true ∧
    shortMet ((headerBytes 1 1 5 0).take 13) = true ∧
    shortMet ((headerBytes 1 1 4 0).take 13) = true := by decide

/-- The hypotheses of `EndMarkerIsVerified` for the bytes left. -/
def tailMet (tb : TrailingBytes) (bs : List Byte) : Bool :=
  let s := decTailAt tb bs
  s.phase == .tail && s.mode == .dec && s.cmode == .read && decide (s.pos ≤ s.len) &&
    s.q.readBytes s.pos (s.len - s.pos) == some bs

/-- A wrong byte with seven left, nothing left, seven zeros, a byte after the marker under both
parameters, the marker alone. -/
theorem test_hyp_EndMarkerIsVerified : tailMet .ignore [0, 0, 0, 0, 0, 0, 1] = true ∧
    tailMet .ignore [] = true ∧ tailMet .ignore [0, 0, 0, 0, 0, 0, 0] = true ∧
    tailMet .fault (endBytes ++ [0x55]) = true ∧ tailMet .ignore (endBytes ++ [0x55]) = true ∧
    tailMet .fault endBytes = true := by decide

/-- One launch for each clause, in its order, against a limit of eight pixels; the last two have one byte
too few and just enough. -/
theorem test_hyp_EncodeArgumentsCheckedInOrder :
    ∀ s ∈ [encHeadAt (some 8) 0 0 4 0 0, encHeadAt (some 8) 1 0 5 0 0, encHeadAt (some 8) 1 1 2 0 0,
      encHeadAt (some 8) 1 1 5 2 0, encHeadAt (some 8) 1 1 3 2 0, encHeadAt (some 8) 3 3 4 1 0,
      encHeadAt (some 8) 4 2 4 1 31, encHeadAt (some 8) 4 2 4 1 32], s.phase = .head ∧ s.mode = .enc := by
  decide

theorem test_hyp_PixelFetch :
    (let s := encAt prevInit ⟨1, 2, 3, 4⟩ 0 1
     s.channels = 4 ∧ s.p.readBytes (s.pxi * 4) 4 = some [1, 2, 3, 4]) ∧
    (let s := { encAt prevInit ⟨1, 2, 3, 4⟩ 0 1 with channels := 3 }
     s.channels = 3 ∧ s.p.readBytes (s.pxi * 3) 3 = some [1, 2, 3]) := by decide

theorem test_hyp_PixelFetch_2 : EngineInv { encAt prevInit ⟨1, 2, 3, 4⟩ 0 1 with channels := 3 } :=
  ⟨by decide, by decide, by decide, by decide, by decide, by decide, by decide, by decide, by decide,
   by decide⟩

/-- The run grows, is full, is at the last pixel. -/
theorem test_hyp_EncoderRunPixel :
    (Encoding prevInit 1 (encAt prevInit prevInit 60 2) ∧ (encAt prevInit prevInit 60 2).pxn = 2) ∧
    (Encoding prevInit 1 (encAt prevInit prevInit 61 2) ∧
      (encAt prevInit prevInit 61 2).run.toNat = 61) ∧
    (Encoding prevInit 1 (encAt prevInit prevInit 0 1) ∧
      (encAt prevInit prevInit 0 1).pxi = (encAt prevInit prevInit 0 1).pxn - 1) :=
  ⟨⟨⟨by decide, by decide, by decide, by decide, by decide, by decide⟩, by decide⟩,
   ⟨⟨by decide, by decide, by decide, by decide, by decide, by decide⟩, by decide⟩,
   ⟨⟨by decide, by decide, by decide, by decide, by decide, by decide⟩, by decide⟩⟩

theorem test_hyp_EncoderIndexPixel :
    Encoding ⟨0, 0, 0, 0⟩ 2 (encAt prevInit ⟨0, 0, 0, 0⟩ 61 1) ∧
    (⟨0, 0, 0, 0⟩ : Pixel) ≠ prevInit ∧
    (encAt prevInit ⟨0, 0, 0, 0⟩ 61 1).cache.get (hash ⟨0, 0, 0, 0⟩) = ⟨0, 0, 0, 0⟩ :=
  ⟨⟨by decide, by decide, by decide, by decide, by decide, by decide⟩, by decide, by decide⟩

theorem test_hyp_EncoderDiffPixel :
    Encoding ⟨101, 98, 100, 255⟩ 2 (encAt ⟨100, 100, 100, 255⟩ ⟨101, 98, 100, 255⟩ 1 2) ∧
    cacheInit.get (hash ⟨101, 98, 100, 255⟩) ≠ ⟨101, 98, 100, 255⟩ ∧
    delta ⟨101, 98, 100, 255⟩ ⟨100, 100, 100, 255⟩ = ⟨1, -2, 0, 0⟩ :=
  ⟨⟨by decide, by decide, by decide, by decide, by decide, by decide⟩, by decide, by decide⟩

theorem test_hyp_EncoderLumaPixel :
    Encoding ⟨138, 131, 123, 255⟩ 3 (encAt ⟨100, 100, 100, 255⟩ ⟨138, 131, 123, 255⟩ 1 2) ∧
    cacheInit.get (hash ⟨138, 131, 123, 255⟩) ≠ ⟨138, 131, 123, 255⟩ ∧
    delta ⟨138, 131, 123, 255⟩ ⟨100, 100, 100, 255⟩ = ⟨38, 31, 23, 0⟩ :=
  ⟨⟨by decide, by decide, by decide, by decide, by decide, by decide⟩, by decide, by decide⟩

/-- Alpha unchanged with a delta of 32, and alpha changed by one. -/
theorem test_hyp_EncoderLiteralPixel :
    (Encoding ⟨132, 132, 132, 255⟩ 6 (encAt ⟨100, 100, 100, 255⟩ ⟨132, 132, 132, 255⟩ 1 2) ∧
      cacheInit.get (hash ⟨132, 132, 132, 255⟩) ≠ ⟨132, 132, 132, 255⟩ ∧
      delta ⟨132, 132, 132, 255⟩ ⟨100, 100, 100, 255⟩ = ⟨32, 32, 32, 0⟩) ∧
    (Encoding ⟨100, 100, 100, 254⟩ 6 (encAt ⟨100, 100, 100, 255⟩ ⟨100, 100, 100, 254⟩ 1 2) ∧
      cacheInit.get (hash ⟨100, 100, 100, 254⟩) ≠ ⟨100, 100, 100, 254⟩ ∧
      delta ⟨100, 100, 100, 254⟩ ⟨100, 100, 100, 255⟩ = ⟨0, 0, 0, -1⟩) :=
  ⟨⟨⟨by decide, by decide, by decide, by decide, by decide, by decide⟩, by decide, by decide⟩,
   ⟨⟨by decide, by decide, by decide, by decide, by decide, by decide⟩, by decide, by decide⟩⟩

/-- An encoder after its last pixel. -/
def encTailState : State := { encAt prevInit prevInit 0 1 with phase := .tail, pxi := 1 }

theorem test_hyp_EncodeTailAppendsEndMarker :
    encTailState.phase = .tail ∧ encTailState.mode = .enc ∧ encTailState.cmode = .write ∧
    encTailState.pos + 8 ≤ encTailState.len := by decide

/-- Six bytes: a flush and an RGBA. -/
theorem test_hyp_EncodeStepWritesAtMostSixBytes :
    wrote (step (encAt ⟨1, 1, 1, 255⟩ ⟨1, 1, 1, 254⟩ 5 2)) [0xC4, 0xFF, 1, 1, 1, 254] = true := by decide

theorem test_hyp_EncoderEmitsTheFirstFittingOp :
    Encoding ⟨1, 1, 1, 254⟩ 6 (encAt prevInit ⟨1, 1, 1, 254⟩ 5 2) ∧
    (⟨1, 1, 1, 254⟩ : Pixel) ≠ (encAt prevInit ⟨1, 1, 1, 254⟩ 5 2).prev :=
  ⟨⟨by decide, by decide, by decide, by decide, by decide, by decide⟩, by decide⟩

/-- With three channels. -/
theorem test_hyp_OpOutsideARunIsNoRunNoZeroDeltaNoThreeChannelRgba :
    let s := { encAt prevInit ⟨1, 2, 3, 4⟩ 0 2 with channels := 3 }
    Encoding ⟨1, 2, 3, 255⟩ 6 s ∧ (⟨1, 2, 3, 255⟩ : Pixel) ≠ s.prev ∧
    onNext (step s) (fun t => t.pxi == 1) = true :=
  ⟨⟨by decide, by decide, by decide, by decide, by decide, by decide⟩, by decide, by decide⟩

/-- A run that joins 62, one at the last pixel, a flush before an op, and a run that goes on. -/
theorem test_hyp_ARunShorterThan62IsFollowedByNoRun :
    (Encoding prevInit 6 (encAt prevInit prevInit 61 2) ∧
      wrote (step (encAt prevInit prevInit 61 2)) [0xFD] = true) ∧
    (Encoding prevInit 6 (encAt prevInit prevInit 4 1) ∧
      wrote (step (encAt prevInit prevInit 4 1)) [0xC4] = true) ∧
    (Encoding ⟨1, 0, 0, 255⟩ 6 (encAt prevInit ⟨1, 0, 0, 255⟩ 4 2) ∧
      wrote (step (encAt prevInit ⟨1, 0, 0, 255⟩ 4 2)) [0xC3, 0x7A] = true) ∧
    (Encoding prevInit 6 (encAt prevInit prevInit 0 2) ∧
      wrote (step (encAt prevInit prevInit 0 2)) [] = true) :=
  ⟨⟨⟨by decide, by decide, by decide, by decide, by decide, by decide⟩, by decide⟩,
   ⟨⟨by decide, by decide, by decide, by decide, by decide, by decide⟩, by decide⟩,
   ⟨⟨by decide, by decide, by decide, by decide, by decide, by decide⟩, by decide⟩,
   ⟨⟨by decide, by decide, by decide, by decide, by decide, by decide⟩, by decide⟩⟩

/-- Both launches, in `IDLE`, after a faulted pass and after a finished one. -/
theorem test_hyp_StartBeginsAPass :
    (let s := { blank with launches := [.startEncode [1, 2, 3] 1 1 3 0] }
     s.phase = .idle ∧ s.launches = [.startEncode [1, 2, 3] 1 1 3 0]) ∧
    (let s := { blank with launches := [.startDecode []] }
     s.phase = .idle ∧ s.launches = [.startDecode []]) ∧
    (let s := { takeFault (.formatError .magic) blank with
        launches := [.startEncode [1, 2, 3] 1 1 3 0, .startDecode []] }
     s.phase = .fault ∧ s.launches = [.startEncode [1, 2, 3] 1 1 3 0, .startDecode []]) ∧
    (let s := { decTailAt .ignore [] with phase := .done, launches := [.startDecode [0]] }
     s.phase = .done ∧ s.launches = [.startDecode [0]]) := by decide

theorem test_hyp_NoStepWithoutAPass : blank.phase = .idle ∧ blank.launches = [] := by decide

theorem test_hyp_MovesWithoutAMeaningAreRefused :
    (decAt prevInit []).phase = .body ∧ (decAt prevInit []).cmode = .read := by decide

/-- A finished encode and a finished decode of one pixel. -/
def encDone : State :=
  { encTailState with
    phase := .done, pos := 22, q := Memory.ofBytes 0 (headerBytes 1 1 4 0 ++ endBytes) }

def decDone : State :=
  { decAt prevInit [0xC0] with
    width := 1, pxn := 1, pxi := 1, phase := .done, p := Memory.ofBytes 0 [0, 0, 0, 255] }

theorem test_hyp_ResultExactlyAtDone :
    (EngineInv encDone ∧ encDone.phase = .done ∧ encDone.mode = .enc) ∧
    (EngineInv decDone ∧ decDone.phase = .done ∧ decDone.mode = .dec) :=
  ⟨⟨⟨by decide, by decide, by decide, by decide, by decide, by decide, by decide, by decide, by decide,
      by decide⟩, by decide, by decide⟩,
   ⟨⟨by decide, by decide, by decide, by decide, by decide, by decide, by decide, by decide, by decide,
      by decide⟩, by decide, by decide⟩⟩

/-- The invariant holds in every phase of both passes: states of `EveryStepKeepsTheInvariant`,
`AStepIsEnabledDuringAPass`, `EveryPassEnds` and `EncodeCannotFaultPastItsChecks`. -/
theorem test_hyp_invariant_encode_head : EngineInv (encHeadAt none 2 1 4 0 8) :=
  ⟨by decide, by decide, by decide, by decide, by decide, by decide, by decide, by decide, by decide,
   by decide⟩

theorem test_hyp_invariant_encode_body :
    EngineInv (encAt prevInit ⟨1, 1, 1, 254⟩ 61 2) ∧
    (encAt prevInit ⟨1, 1, 1, 254⟩ 61 2).phase = .body :=
  ⟨⟨by decide, by decide, by decide, by decide, by decide, by decide, by decide, by decide, by decide,
   by decide⟩, rfl⟩

theorem test_hyp_invariant_encode_tail : EngineInv encTailState :=
  ⟨by decide, by decide, by decide, by decide, by decide, by decide, by decide, by decide, by decide,
   by decide⟩

theorem test_hyp_invariant_decode_head : EngineInv (decHeadAt none (headerBytes 1 1 4 0)) :=
  ⟨by decide, by decide, by decide, by decide, by decide, by decide, by decide, by decide, by decide,
   by decide⟩

theorem test_hyp_invariant_decode_body :
    EngineInv (decAt prevInit [0xFD]) ∧ (decAt prevInit [0xFD]).phase = .body :=
  ⟨⟨by decide, by decide, by decide, by decide, by decide, by decide, by decide, by decide, by decide,
   by decide⟩, rfl⟩

theorem test_hyp_invariant_fault :
    EngineInv (takeFault (.formatError .truncated) (decAt prevInit [])) :=
  ⟨by decide, by decide, by decide, by decide, by decide, by decide, by decide, by decide, by decide,
   by decide⟩

theorem test_hyp_EveryStepKeepsTheInvariant :
    EngineInv encTailState ∧ onNext (step encTailState) (fun t => t.phase == .done) = true :=
  ⟨test_hyp_invariant_encode_tail, by decide⟩

theorem test_hyp_EncodeCannotFaultPastItsChecks :
    EngineInv encTailState ∧ encTailState.mode = .enc ∧ encTailState.phase = .tail :=
  ⟨test_hyp_invariant_encode_tail, rfl, rfl⟩

theorem test_hyp_AStepIsEnabledDuringAPass :
    EngineInv (encHeadAt none 2 1 4 0 8) ∧ running (encHeadAt none 2 1 4 0 8).phase = true :=
  ⟨test_hyp_invariant_encode_head, rfl⟩

theorem test_hyp_EveryPassEnds :
    EngineInv (encAt prevInit ⟨1, 1, 1, 254⟩ 61 2) ∧ (encAt prevInit ⟨1, 1, 1, 254⟩ 61 2).phase = .body ∧
    (encAt prevInit ⟨1, 1, 1, 254⟩ 61 2).mode = .enc :=
  ⟨test_hyp_invariant_encode_body.1, rfl, rfl⟩

/-- The only launches without a meaning: nine pixels against a limit of eight, in either pass, from states
that meet the invariant. -/
theorem test_over_max_pixels :
    refuses (step (encHeadAt (some 8) 3 3 4 0 36)) .overMaxPixels = true ∧
    refuses (step (decHeadAt (some 8) (headerBytes 3 3 4 0))) .overMaxPixels = true := by decide

theorem test_hyp_AStepIsEnabledDuringAPass_2 :
    (EngineInv (encHeadAt (some 8) 3 3 4 0 36) ∧ LaunchedSize 3 3 (encHeadAt (some 8) 3 3 4 0 36)) ∧
    (EngineInv (decHeadAt (some 8) (headerBytes 3 3 4 0)) ∧
      LaunchedSize 3 3 (decHeadAt (some 8) (headerBytes 3 3 4 0))) :=
  ⟨⟨⟨by decide, by decide, by decide, by decide, by decide, by decide, by decide, by decide, by decide,
      by decide⟩, by decide, by decide⟩,
   ⟨⟨by decide, by decide, by decide, by decide, by decide, by decide, by decide, by decide, by decide,
      by decide⟩, by decide, by decide⟩⟩

/-- Two machines in `HEAD` of the same decode, with different registers. -/
theorem test_hyp_HeadErasesThePast :
    let s := decHeadAt none (headerBytes 1 1 4 0)
    let u := { s with prev := ⟨1, 2, 3, 4⟩, run := 9, pxi := 7, pos := 3, p := [(0, 1)] }
    s.phase = .head ∧ u.phase = .head ∧ u.mode = s.mode ∧ u.args = s.args ∧ u.impl = s.impl ∧
    u.err = s.err ∧ u.q = s.q ∧ onNext (step s) (fun t => t.phase == .body) = true := by decide

theorem test_hyp_APassNeverWritesItsInput :
    running (decAt prevInit [0xC0]).phase = true ∧
    onNext (step (decAt prevInit [0xC0])) (fun t => t.pxi == 1) = true ∧
    running (encAt prevInit prevInit 0 2).phase = true ∧
    onNext (step (encAt prevInit prevInit 0 2)) (fun t => t.run == 1) = true := by decide

theorem test_hyp_ModesAreFixedAndPosOnlyAdvances :
    encTailState.phase = .tail ∧ onNext (step encTailState) (fun t => t.pos == 22) = true ∧
    (decAt prevInit [0xC0]).phase = .body ∧
    onNext (step (decAt prevInit [0xC0])) (fun t => t.pos == 15) = true := by decide

theorem test_hyp_DecoderFollowsTheEncoder :
    Encoding ⟨1, 1, 1, 254⟩ 6 (encAt prevInit ⟨1, 1, 1, 254⟩ 5 2) ∧
    onNext (step (encAt prevInit ⟨1, 1, 1, 254⟩ 5 2)) (fun t => t.pxi == 1) = true ∧
    (decLast prevInit [0xFF, 1, 1, 1, 254]).prev = prevInit ∧
    (decLast prevInit [0xFF, 1, 1, 1, 254]).cache = (encAt prevInit ⟨1, 1, 1, 254⟩ 5 2).cache ∧
    Ready 5 (decLast prevInit [0xFF, 1, 1, 1, 254]) :=
  ⟨⟨by decide, by decide, by decide, by decide, by decide, by decide⟩, by decide, by decide, by decide,
   ⟨by decide, by decide, by decide⟩⟩

theorem test_hyp_DecodeInvertsEncode :
    let s := { blank with launches := [.startEncode [1, 2, 3, 9, 9, 9] 1 2 3 0] }
    startable s.phase = true ∧ legalChannels 3 = true ∧ legalColorspace 0 = true ∧
    checkLimit s.impl ((1 : Word).toNat * (2 : Word).toNat) = .ok () ∧
    (1 : Word).toNat * (2 : Word).toNat * (3 : Byte).toNat ≤ [1, 2, 3, 9, 9, 9].length ∧
    startable { blank with launches := [.startDecode []] }.phase = true := by decide

/-- A 2 by 1 image of an INDEX and a RUN that an encoder would not have written. -/
theorem test_hyp_AnyOpStreamOfTheRightSizeDecodes :
    startable { blank with launches := [.startDecode []] }.phase = true ∧
    legalChannels 3 = true ∧ legalColorspace 1 = true ∧
    checkLimit blank.impl ((2 : Word).toNat * (1 : Word).toNat) = .ok () ∧
    (∀ i ∈ [Instr.index 63, .run 1], i.wellFormed = true) ∧
    ([Instr.index 63, .run 1].map pixelsOf).sum = (2 : Word).toNat * (1 : Word).toNat := by decide

end Sys2Proof.Tests
end

section
/-! PROOFS. How the words of a header stand in space Q, and the state in which phase `HEAD` of either
pass ends (42_container.md R140 to R147, 43_encode.md R151, 44_decode.md R181). -/

namespace Sys2Proof.Machine

/-! ### Words and their bytes -/

theorem bytesBe32_be32 (b0 b1 b2 b3 : Byte) : bytesBe32 (be32 b0 b1 b2 b3) = [b0, b1, b2, b3] := by
  simp only [bytesBe32, be32, List.cons.injEq, and_true]
  refine ⟨?_, ?_, ?_, ?_⟩ <;> (apply BitVec.eq_of_getLsbD_eq; intro i hi; simp; grind)

theorem exists_bytesBe32_eq (w : Word) :
    ∃ b0 b1 b2 b3, bytesBe32 w = [b0, b1, b2, b3] ∧ w = be32 b0 b1 b2 b3 := by
  refine ⟨_, _, _, _, rfl, BitVec.eq_of_getLsbD_eq fun i hi => ?_⟩
  simp [be32]
  grind

/-- `read32` gives the word whose bytes stand at the cursor (40_bytecursor.md R115). -/
theorem get32_eq_ok_bytes {s t : State} {w : Word} :
    get32 s = .ok (w, t) ↔
      s.cmode = .read ∧ s.pos + 4 ≤ s.len ∧ s.q.readBytes s.pos 4 = some (bytesBe32 w) ∧
      t = setPos (s.pos + 4) s := by
  rw [get32_eq_ok]
  constructor
  · rintro ⟨hm, hl, ⟨b0, b1, b2, b3, hq, rfl⟩, rfl⟩
    exact ⟨hm, hl, by rw [hq, bytesBe32_be32], rfl⟩
  · rintro ⟨hm, hl, hq, rfl⟩
    obtain ⟨b0, b1, b2, b3, hb, rfl⟩ := exists_bytesBe32_eq w
    exact ⟨hm, hl, ⟨b0, b1, b2, b3, by rw [hq, hb], rfl⟩, rfl⟩

theorem readBytes_append_iff {m : Memory} {a n k : Nat} {bs cs : List Byte} (hl : bs.length = n) :
    m.readBytes a (n + k) = some (bs ++ cs) ↔
      m.readBytes a n = some bs ∧ m.readBytes (a + n) k = some cs := by
  refine ⟨fun h => ?_, fun ⟨h, h'⟩ => Memory.readBytes_append h h'⟩
  subst hl
  obtain ⟨hlen, hr⟩ := (Memory.readBytes_eq_some _ _ _ _).mp h
  refine ⟨(Memory.readBytes_eq_some _ _ _ _).mpr ⟨rfl, fun j hj => ?_⟩,
    (Memory.readBytes_eq_some _ _ _ _).mpr ⟨by simpa using hlen, fun j hj => ?_⟩⟩
  · rw [hr j (by simp; omega), List.getElem_append_left hj]
  · rw [Nat.add_assoc, hr (bs.length + j) (by simp; omega), List.getElem_append_right (by omega)]
    simp

theorem readBytes_headerBytes {m : Memory} {a : Nat} {w h : Word} {ch cs : Byte} :
    m.readBytes a 14 = some (headerBytes w h ch cs) ↔
      m.readBytes a 4 = some (bytesBe32 Config.magic) ∧
      m.readBytes (a + 4) 4 = some (bytesBe32 w) ∧ m.readBytes (a + 8) 4 = some (bytesBe32 h) ∧
      m.read (a + 12) = some ch ∧ m.read (a + 13) = some cs := by
  have htail : m.readBytes (a + 12) 2 = some [ch, cs] ↔
      m.read (a + 12) = some ch ∧ m.read (a + 13) = some cs := by
    rw [show [ch, cs] = [ch] ++ [cs] from rfl, readBytes_append_iff (n := 1) (k := 1) rfl]
    simp [Memory.readBytes_eq_some]
  rw [headerBytes, readBytes_append_iff (n := 12) (k := 2) rfl,
    readBytes_append_iff (n := 8) (k := 4) rfl, readBytes_append_iff (n := 4) (k := 4) rfl, htail]
  simp only [and_assoc]

/-! ### The header -/

/-- The field values with which a pass goes past `HEAD` (42_container.md R147, 43_encode.md R151). -/
def LegalHeader (impl : Impl) (w h : Word) (ch cs : Byte) : Prop :=
  w ≠ 0 ∧ h ≠ 0 ∧ legalChannels ch = true ∧ legalColorspace cs = true ∧
    checkLimit impl (pixelCount w h) = .ok ()

/-- The header registers and `PXN` take the values of a header. -/
def loadHeader (w h : Word) (ch cs : Byte) (s : State) : State :=
  { s with width := w, height := h, channels := ch, colorspace := cs, pxn := pixelCount w h }

theorem setPos_setPos (a b : Nat) (s : State) : setPos a (setPos b s) = setPos a s := rfl

/-- A header is read exactly where the bytes of a legal one stand at the cursor. -/
theorem readHeader_eq_ok {s t : State} :
    readHeader s = .ok t ↔ ∃ w h ch cs, LegalHeader s.impl w h ch cs ∧ s.cmode = .read ∧
      s.pos + 14 ≤ s.len ∧ s.q.readBytes s.pos 14 = some (headerBytes w h ch cs) ∧
      t = loadHeader w h ch cs (setPos (s.pos + 14) s) := by
  simp only [readBytes_headerBytes, LegalHeader]
  constructor
  · intro hr
    simp only [readHeader, bind_eq_ok] at hr
    obtain ⟨⟨m, s1⟩, h1, _, hm, ⟨w, s2⟩, h2, _, hw, ⟨h, s3⟩, h3, _, hh, ⟨ch, s4⟩, h4, _, hch,
      ⟨cs, s5⟩, h5, _, hcs, _, hlim, ht⟩ := hr
    obtain ⟨hmode, -, hq1, rfl⟩ := get32_eq_ok_bytes.mp h1
    obtain ⟨-, -, hq2, rfl⟩ := get32_eq_ok_bytes.mp h2
    obtain ⟨-, -, hq3, rfl⟩ := get32_eq_ok_bytes.mp h3
    obtain ⟨-, -, hq4, rfl⟩ := get8_eq_ok.mp h4
    obtain ⟨-, hlen, hq5, rfl⟩ := get8_eq_ok.mp h5
    obtain rfl : m = Config.magic := eq_of_beq (demand_eq_ok.mp hm)
    simp only [setPos_pos, setPos_len, setPos_q, setPos_impl, setPos_setPos, Nat.add_assoc,
      Nat.reduceAdd] at hq2 hq3 hq4 hq5 hlen hlim ht
    obtain rfl := by simpa using ht
    exact ⟨w, h, ch, cs, ⟨by simpa using demand_eq_ok.mp hw, by simpa using demand_eq_ok.mp hh,
      demand_eq_ok.mp hch, demand_eq_ok.mp hcs, hlim⟩, hmode, hlen, ⟨hq1, hq2, hq3, hq4, hq5⟩, rfl⟩
  · rintro ⟨w, h, ch, cs, ⟨hw, hh, hch, hcs, hlim⟩, hmode, hlen, ⟨hq1, hq2, hq3, hq4, hq5⟩, rfl⟩
    have r32 : ∀ (v : Word) (k : Nat), k + 4 ≤ s.len → s.q.readBytes k 4 = some (bytesBe32 v) →
        get32 (setPos k s) = .ok (v, setPos (k + 4) s) :=
      fun _ _ h h' => get32_eq_ok_bytes.mpr ⟨hmode, h, h', rfl⟩
    have r8 : ∀ (v : Byte) (k : Nat), k + 1 ≤ s.len → s.q.read k = some v →
        get8 (setPos k s) = .ok (v, setPos (k + 1) s) :=
      fun _ _ h h' => get8_eq_ok.mpr ⟨hmode, h, h', rfl⟩
    have ok : ∀ {b : Bool} (c : FormatCause), b = true → demand b c = .ok () :=
      fun _ h => demand_eq_ok.mpr h
    have hmagic : get32 s = .ok (Config.magic, setPos (s.pos + 4) s) :=
      r32 Config.magic s.pos (by omega) hq1
    simp only [readHeader, hmagic, ok_bind, ok .magic (beq_self_eq_true _),
      r32 w _ (by omega) hq2, r32 h _ (by omega) hq3, r8 ch _ (by omega) hq4,
      r8 cs _ (by omega) hq5, ok .width (bne_iff_ne.mpr hw), ok .height (bne_iff_ne.mpr hh),
      ok .channels hch, ok .colorspace hcs, setPos_impl, hlim]
    rfl

theorem checkArgs_eq_ok {impl : Impl} {a : Args} :
    checkArgs impl a = .ok () ↔ LegalHeader impl a.width a.height a.channels a.colorspace ∧
      pixelCount a.width a.height * a.channels.toNat ≤ a.plen := by
  constructor
  · intro h
    simp only [checkArgs, bind_eq_ok] at h
    obtain ⟨_, hw, _, hh, _, hch, _, hcs, _, hlim, hplen⟩ := h
    exact ⟨⟨by simpa using require_eq_ok.mp hw, by simpa using require_eq_ok.mp hh,
      require_eq_ok.mp hch, require_eq_ok.mp hcs, hlim⟩, by simpa using require_eq_ok.mp hplen⟩
  · rintro ⟨⟨hw, hh, hch, hcs, hlim⟩, hplen⟩
    have ok : ∀ {b : Bool} (c : ArgCause), b = true → Machine.require b c = .ok () :=
      fun _ h => require_eq_ok.mpr h
    simp only [checkArgs, ok .width (bne_iff_ne.mpr hw), ok .height (bne_iff_ne.mpr hh),
      ok .channels hch, ok .colorspace hcs, hlim, ok_bind, ok .pixbufShort (decide_eq_true hplen)]

/-! ### The end of `HEAD` -/

/-- The state in which `HEAD` of encode ends once its checks have passed (43_encode.md R151, R152). -/
def encStart (s : State) : State :=
  setPhase .body (initWork (setPos 14
    (setQ (Memory.writeBytes []
        0 (headerBytes s.args.width s.args.height s.args.channels s.args.colorspace))
      (openWrite (capacity (pixelCount s.args.width s.args.height) s.args.channels)
        (loadArgs s)))))

/-- The state in which `HEAD` of decode ends once it has read a legal header (44_decode.md R181). -/
def decStart (w h : Word) (ch cs : Byte) (s : State) : State :=
  setPhase .body (initWork (setP []
    (loadHeader w h ch cs (setPos 14 (openRead s.args.qlen s)))))

theorem encHead_of_checkArgs {s : State} (h : checkArgs s.impl s.args = .ok ()) :
    encHead s = .ok (encStart s) := by
  have hcap : ∀ n ch, 14 ≤ capacity n ch := by
    intro n ch
    simp only [capacity, Config.headerSize]
    omega
  simp only [encHead, h, ok_bind]
  rw [writeHeader_ok rfl rfl (hcap _ _)]
  rfl

theorem encHead_eq_ok {s t : State} :
    encHead s = .ok t ↔ checkArgs s.impl s.args = .ok () ∧ t = encStart s := by
  constructor
  · intro h
    obtain ⟨_, hargs, -⟩ := bind_eq_ok.mp h
    rw [encHead_of_checkArgs hargs] at h
    exact ⟨hargs, by simpa using h.symm⟩
  · rintro ⟨hargs, rfl⟩
    exact encHead_of_checkArgs hargs

theorem decHead_eq_ok {s t : State} :
    decHead s = .ok t ↔ ∃ w h ch cs, LegalHeader s.impl w h ch cs ∧ 14 ≤ s.args.qlen ∧
      s.q.readBytes 0 14 = some (headerBytes w h ch cs) ∧ t = decStart w h ch cs s := by
  simp only [decHead, bind_eq_ok, pure_ok]
  constructor
  · rintro ⟨u, hu, ht⟩
    obtain ⟨w, h, ch, cs, hlegal, -, hlen, hq, rfl⟩ := readHeader_eq_ok.mp hu
    exact ⟨w, h, ch, cs, hlegal, by simpa [openRead] using hlen, hq,
      by simpa [openRead, decStart] using ht.symm⟩
  · rintro ⟨w, h, ch, cs, hlegal, hlen, hq, rfl⟩
    exact ⟨_, readHeader_eq_ok.mpr ⟨w, h, ch, cs, hlegal, rfl, by simpa [openRead] using hlen, hq,
      rfl⟩, by simp [openRead, decStart]⟩

/-! ### The step, phase by phase -/

theorem step_head_enc {s : State} (hp : s.phase = .head) (hm : s.mode = .enc) :
    step s = settle s (encHead s) := by simp [step, engineStep, hp, hm]

theorem step_body_enc {s : State} (hp : s.phase = .body) (hm : s.mode = .enc) :
    step s = settle s (encBody s) := by simp [step, engineStep, hp, hm]

theorem step_tail_enc {s : State} (hp : s.phase = .tail) (hm : s.mode = .enc) :
    step s = settle s (encTail s) := by simp [step, engineStep, hp, hm]

theorem step_head_dec {s : State} (hp : s.phase = .head) (hm : s.mode = .dec) :
    step s = settle s (decHead s) := by simp [step, engineStep, hp, hm]

theorem step_body_dec {s : State} (hp : s.phase = .body) (hm : s.mode = .dec) :
    step s = decBody s := by simp [step, engineStep, hp, hm]

theorem step_tail_dec {s : State} (hp : s.phase = .tail) (hm : s.mode = .dec) :
    step s = settle s (decTail s) := by simp [step, engineStep, hp, hm]

theorem step_startable {s : State} (hp : startable s.phase = true) : step s = idleStep s := by
  unfold step engineStep
  cases h : s.phase <;> simp [h, startable] at hp ⊢

/-- A step that ends outside `FAULT` ran to its last line. -/
theorem settle_eq_next_of_ne_fault {s t : State} {r : Except Stop State}
    (h : settle s r = .next t) (ht : t.phase ≠ .fault) : r = .ok t := by
  rcases settle_eq_next h with h | ⟨e, -, rfl⟩
  · exact h
  · simp at ht

/-- Settles O52: a `HEAD` step that completes answers `encStart` or `decStart`, which read no register
of an earlier pass but those that the two machines share. -/
theorem headErasesThePast : Obligations.HeadErasesThePast := by
  unfold Obligations.HeadErasesThePast
  intro s u t hs hu hmode hargs himpl herr hp hq hstep ht
  have hnf : t.phase ≠ .fault := by simp [ht]
  cases hm : s.mode with
  | enc =>
    rw [step_head_enc hs hm] at hstep
    rw [step_head_enc hu (hmode.trans hm)]
    obtain ⟨hchecks, rfl⟩ := encHead_eq_ok.mp (settle_eq_next_of_ne_fault hstep hnf)
    rw [encHead_eq_ok.mpr ⟨by rw [himpl, hargs]; exact hchecks, rfl⟩, settle_ok]
    simp [encStart, setPhase, initWork, setPos, setQ, openWrite, loadArgs, hargs, himpl, herr,
      hmode, hp hm]
  | dec =>
    rw [step_head_dec hs hm] at hstep
    rw [step_head_dec hu (hmode.trans hm)]
    obtain ⟨w, h, ch, cs, hlegal, hlen, hread, rfl⟩ :=
      decHead_eq_ok.mp (settle_eq_next_of_ne_fault hstep hnf)
    rw [decHead_eq_ok.mpr ⟨w, h, ch, cs, by rw [himpl]; exact hlegal, by rw [hargs]; exact hlen,
      by rw [hq hm]; exact hread, rfl⟩, settle_ok]
    simp [decStart, setPhase, initWork, setPos, setP, openRead, loadHeader, hargs, himpl, herr,
      hmode, hq hm]

end Sys2Proof.Machine
end

section
/-! PROOFS. What no op of the decode pass writes. -/

namespace Sys2Proof.Machine

theorem exec_run_keeps_prev_cache {n : Nat} {s t : State} (h : exec (.run n) s = .next t) :
    t.prev = s.prev ∧ t.cache = s.cache := by
  rcases settle_eq_next h with h | ⟨e, -, rfl⟩
  · split at h
    · simp at h
    · next u hu =>
      obtain ⟨-, -, rfl⟩ := consume_eq_ok.mp hu
      split at h
      · simp at h
      · next hn =>
        rw [emitMany_eq_ok _ _ (by simpa using hn)] at h
        obtain rfl := by simpa using h
        simp
  · simp

theorem exec_index_keeps_cache {slot : Fin 64} {s t : State}
    (h : exec (.index slot) s = .next t) : t.cache = s.cache := by
  rcases settle_eq_next h with h | ⟨e, -, rfl⟩
  · split at h
    · simp at h
    · next u hu =>
      obtain ⟨-, -, rfl⟩ := consume_eq_ok.mp hu
      simp only at h
      split at h
      · simp at h
      · next v hv =>
        obtain ⟨-, rfl⟩ := emit_eq_ok.mp hv
        obtain rfl := by simpa using h
        simp
  · simp

theorem readFault_ne_none {s : State} {e : Err} (h : ReadFault s e) : e ≠ .none := by
  rcases h with rfl | ⟨rfl, -⟩ <;> simp

/-- Settles O12: an op takes a fault from the state before it, or completes and then writes `PREV`,
`CACHE`, `PXI`, `POS` and space P alone. -/
theorem opsLeaveTheRestAlone : Obligations.OpsLeaveTheRestAlone := by
  unfold Obligations.OpsLeaveTheRestAlone
  intro i s t h
  have hrun : ∀ n, i = .run n → t.prev = s.prev ∧ t.cache = s.cache := by
    rintro n rfl
    exact exec_run_keeps_prev_cache h
  have hindex : ∀ slot, i = .index slot → t.cache = s.cache := by
    rintro slot rfl
    exact exec_index_keeps_cache h
  rcases exec_eq_next h with ⟨e, rfl, he⟩ | ⟨n, ⟨prev, cache, bs, -, -, -, -, rfl⟩, -, -⟩
  · have hne : e ≠ .none := by
      rcases he with he | rfl
      · exact readFault_ne_none he
      · simp
    have hq : s.mode = .dec → (takeFault e s).q = s.q := by
      intro hm
      simp [takeFault_q, hm]
    simpa [hne] using hq
  · exact ⟨rfl, rfl, rfl, rfl, rfl, rfl, rfl, rfl, rfl, rfl, rfl, rfl, fun _ => rfl,
      .inl ⟨rfl, rfl⟩, hrun, hindex⟩

end Sys2Proof.Machine
end

section
/-! PROOFS. What the encoder writes for a pixel where its buffer has room: the bytes of the pending run
and of the first op that fits (43_encode.md R154 to R163). -/

namespace Sys2Proof.Machine

/-! ### Appending bytes -/

/-- The bytes `bs` are stored in space Q at `POS`, which moves past them. -/
def appendBytes (bs : List Byte) (s : State) : State :=
  { s with pos := s.pos + bs.length, q := s.q.writeBytes s.pos bs }

theorem putBytes_eq_appendBytes (bs : List Byte) {s : State} (hm : s.cmode = .write)
    (hl : s.pos + bs.length ≤ s.len) : putBytes bs s = .ok (appendBytes bs s) :=
  putBytes_ok bs hm hl

@[simp] theorem appendBytes_nil (s : State) : appendBytes [] s = s := rfl

theorem appendBytes_appendBytes (bs cs : List Byte) (s : State) :
    appendBytes cs (appendBytes bs s) = appendBytes (bs ++ cs) s := by
  simp [appendBytes, Memory.writeBytes_append, Nat.add_assoc]

theorem appendBytes_memoryOk (bs : List Byte) {s : State} (h : MemoryOk s) :
    MemoryOk (appendBytes bs s) :=
  ⟨Memory.writeBytes_wf bs s.pos h.1, h.2⟩

theorem appendBytes_output (bs : List Byte) {s : State}
    (h : (s.q.readBytes 0 s.pos).isSome = true) :
    ((appendBytes bs s).q.readBytes 0 (appendBytes bs s).pos).isSome = true :=
  readBytes_isSome_append bs h

/-! ### The pending run -/

theorem encode_run (n : BitVec 6) :
    encode (.run n.toNat) = [0xC0#8 ||| BitVec.ofNat 8 (n.toNat - 1)] := by
  revert n; decide

theorem setRun_eq_self {n : BitVec 6} {s : State} (h : s.run = n) : setRun n s = s := by
  subst h; rfl

theorem pendingRun_length (s : State) : (pendingRun s).length = if s.run = 0 then 0 else 1 := by
  unfold pendingRun; split <;> rfl

theorem flush_eq_appendBytes {s : State} (hm : s.cmode = .write) (hl : s.pos + 1 ≤ s.len) :
    flush s = .ok (appendBytes (encode (.run s.run.toNat)) (setRun 0 s)) :=
  flush_ok hm hl

theorem flushPending_ok {s : State} (hm : s.cmode = .write) (hl : s.pos + 1 ≤ s.len) :
    flushPending s = .ok (appendBytes (pendingRun s) (setRun 0 s)) := by
  unfold flushPending pendingRun
  by_cases hr : s.run = 0
  · rw [if_neg (not_not.mpr hr), if_pos hr, setRun_eq_self hr, appendBytes_nil]
  · rw [if_pos hr, if_neg hr, flush_eq_appendBytes hm hl, encode_run]

theorem runPath_of_mustFlush {s : State} (hf : mustFlush (s.run + 1) s.pxi s.pxn = true)
    (hm : s.cmode = .write) (hl : s.pos + 1 ≤ s.len) :
    runPath s = .ok (appendBytes (encode (.run (s.run + 1).toNat)) (setRun 0 s)) :=
  (if_pos hf).trans (flush_eq_appendBytes (s := setRun (s.run + 1) s) hm hl)

theorem runPath_of_not_mustFlush {s : State} (hf : ¬ mustFlush (s.run + 1) s.pxi s.pxn = true) :
    runPath s = .ok (setRun (s.run + 1) s) :=
  if_neg hf

/-! ### The op of a pixel outside a run -/

theorem encode_length (i : Instr) : (encode i).length = i.length := by
  cases i <;> rfl

theorem instr_length_le_five (i : Instr) : i.length ≤ 5 := by
  cases i <;> simp [Instr.length]

/-- Only RGBA is five bytes long, and it is written only where alpha changed (43_encode.md R162). -/
theorem firstFittingOp_length_le_four {cur prev : Pixel} (cache : Vector Pixel 64)
    (h : cur.a = prev.a) : (firstFittingOp cur prev cache).length ≤ 4 := by
  have hda := delta_da_eq_zero.mpr h
  simp only [firstFittingOp, hda, if_true]
  split_ifs <;> simp [Instr.length]

/-- The cache after the op of `cur`: a hit leaves it as it is, a miss stores the pixel
(43_encode.md R157, R158). -/
def cacheAfter (cur : Pixel) (cache : Vector Pixel 64) : Vector Pixel 64 :=
  if cache.get (hash cur) = cur then cache else cache.set (hash cur).val cur (hash cur).isLt

theorem putPixel_eq_putBytes (cur : Pixel) (s : State) :
    putPixel cur s = putBytes (encode (firstFittingOp cur s.prev s.cache))
      { s with cache := cacheAfter cur s.cache } := by
  simp only [putPixel, firstFittingOp, cacheAfter, cacheHit_eq_true, diffFits_eq_true,
    lumaFits_eq_true]
  split_ifs <;> rfl

theorem opPath_ok {cur : Pixel} {s : State} (hm : s.cmode = .write) (hl : s.pos + 6 ≤ s.len) :
    opPath cur s = .ok (appendBytes (pendingRun s ++ encode (firstFittingOp cur s.prev s.cache))
      { s with run := 0, cache := cacheAfter cur s.cache }) := by
  have hop := instr_length_le_five (firstFittingOp cur s.prev s.cache)
  have hpend : (pendingRun s).length ≤ 1 := by rw [pendingRun_length]; split <;> omega
  simp only [opPath, flushPending_ok hm (show s.pos + 1 ≤ s.len by omega), ok_bind,
    putPixel_eq_putBytes]
  rw [← appendBytes_appendBytes]
  refine putBytes_eq_appendBytes _ hm ?_
  rw [encode_length]
  show s.pos + (pendingRun s).length + (firstFittingOp cur s.prev s.cache).length ≤ s.len
  omega

/-! ### Any pixel -/

/-- With six bytes left a pixel is written whole. The bytes and what `RUN` then holds back are at most
what `RUN` held back before and the longest op that the pixel's alpha allows. -/
theorem emitFor_ok {cur : Pixel} {s : State} (hm : s.cmode = .write) (hl : s.pos + 6 ≤ s.len)
    (hr : s.run.toNat ≤ 61) :
    ∃ bs run cache, emitFor cur s = .ok (appendBytes bs { s with run := run, cache := cache }) ∧
      bs.length + (if run = 0 then 0 else 1) ≤
        (if s.run = 0 then 0 else 1) + (if cur.a = s.prev.a then 4 else 5) ∧
      run.toNat ≤ 61 ∧ (s.pxi + 1 = s.pxn → run = 0) := by
  unfold emitFor
  split
  · next hj =>
    rw [joinsRun_eq_true.mp hj]
    by_cases hf : mustFlush (s.run + 1) s.pxi s.pxn = true
    · rw [runPath_of_mustFlush hf hm (by omega)]
      exact ⟨_, 0, s.cache, rfl, by rw [encode_length]; simp [Instr.length], by simp,
        fun _ => rfl⟩
    · rw [runPath_of_not_mustFlush hf]
      rw [mustFlush_eq_true, not_or] at hf
      have hsucc : (s.run + 1).toNat = s.run.toNat + 1 := by
        rw [BitVec.toNat_add]; exact Nat.mod_eq_of_lt (by simp; omega)
      exact ⟨[], s.run + 1, s.cache, rfl, by simp; split <;> omega, by omega,
        fun h => absurd h hf.2⟩
  · refine ⟨_, 0, _, opPath_ok hm hl, ?_, by simp, fun _ => rfl⟩
    rw [List.length_append, encode_length, pendingRun_length]
    by_cases ha : cur.a = s.prev.a
    · simpa [ha] using firstFittingOp_length_le_four s.cache ha
    · simpa [ha] using instr_length_le_five (firstFittingOp cur s.prev s.cache)

/-- With three channels a pixel takes its alpha from the previous one (43_encode.md R153). -/
theorem fetchPixel_alpha {s : State} {cur : Pixel} (h3 : s.channels = 3)
    (h : fetchPixel s = .ok cur) : cur.a = s.prev.a := by
  simp only [fetchPixel, h3] at h
  rw [if_neg (by decide), if_pos trivial] at h
  simp only [bind_eq_ok, pure_ok] at h
  obtain ⟨r, -, g, -, b, -, h⟩ := h
  obtain rfl := by simpa using h
  rfl

theorem encTail_ok {s : State} (hm : s.cmode = .write) (hl : s.pos + Config.endSize ≤ s.len) :
    encTail s = .ok (setPhase .done (appendBytes endBytes s)) := by
  have hw : writeEndMarker s = .ok (appendBytes endBytes s) :=
    putBytes_eq_appendBytes endBytes hm hl
  simp only [encTail, hw, ok_bind, pure_ok]

end Sys2Proof.Machine
end

section
/-! PROOFS. The faults that each part of a pass can raise are of the pass's own kind
(60_exceptions.md R210, R213, R215). -/

namespace Sys2Proof.Machine

/-- If the stop `x` raises a fault of the spec, the fault is one that a pass of mode `m` may take. -/
def PassStop (m : Mode) (x : Stop) : Prop :=
  ∀ e, x = .raise e → e ≠ .none ∧ errOf m e = true

/-- If the computation `r` ends early, it does so with a stop of a pass of mode `m`. -/
def FailsAsPass {α : Type} (m : Mode) (r : Except Stop α) : Prop :=
  ∀ x, r = .error x → PassStop m x

theorem FailsAsPass.ok {α : Type} {m : Mode} (a : α) : FailsAsPass m (.ok a) := by
  intro x hx
  simp at hx

theorem FailsAsPass.bind {α β : Type} {m : Mode} {r : Except Stop α} {f : α → Except Stop β}
    (hr : FailsAsPass m r) (hf : ∀ a, r = .ok a → FailsAsPass m (f a)) :
    FailsAsPass m (r >>= f) := by
  intro x hx
  rcases bind_eq_error.mp hx with h | ⟨a, ha, h⟩
  · exact hr x h
  · exact hf a ha x h

theorem passStop_fault (m : Mode) (f : Fault) : PassStop m (.fault f) := by
  intro e h
  simp at h

theorem passStop_refuse (m : Mode) (r : Refusal) : PassStop m (.refuse r) := by
  intro e h
  simp at h

theorem passStop_raise {m : Mode} {e : Err} (hne : e ≠ .none) (he : errOf m e = true) :
    PassStop m (.raise e) := by
  intro e' h
  obtain rfl : e = e' := by simpa using h
  exact ⟨hne, he⟩

theorem passStop_formatError {c : FormatCause} (hc : c ≠ .lumaRange) :
    PassStop .dec (.raise (.formatError c)) := by
  refine passStop_raise (by simp) ?_
  cases c with
  | lumaRange => exact absurd rfl hc
  | _ => rfl

/-! ### The decode pass -/

theorem errOf_readFault {s : State} {e : Err} (hm : s.cmode = .read) (h : ReadFault s e) :
    errOf .dec e = true := by
  rcases h with rfl | ⟨-, hw⟩
  · rfl
  · simp [hm] at hw

theorem readStop_passStop {s : State} {x : Stop} (hm : s.cmode = .read) (h : ReadStop s x) :
    PassStop .dec x := by
  rcases h with ⟨a, rfl⟩ | ⟨e, rfl, he⟩
  · exact passStop_fault _ _
  · exact passStop_raise (readFault_ne_none he) (errOf_readFault hm he)

theorem get8_failsAsPass {s : State} (hm : s.cmode = .read) : FailsAsPass .dec (get8 s) :=
  fun _ h => readStop_passStop hm (get8_eq_error h)

theorem get32_failsAsPass {s : State} (hm : s.cmode = .read) : FailsAsPass .dec (get32 s) :=
  fun _ h => readStop_passStop hm (get32_eq_error h)

theorem fetchOp_failsAsPass {s : State} (hm : s.cmode = .read) : FailsAsPass .dec (fetchOp s) :=
  fun _ h => readStop_passStop hm (fetchOp_eq_error h)

theorem get8_cmode {s t : State} {v : Byte} (h : get8 s = .ok (v, t)) : t.cmode = s.cmode := by
  obtain ⟨-, -, -, rfl⟩ := get8_eq_ok.mp h
  rfl

theorem get32_cmode {s t : State} {v : Word} (h : get32 s = .ok (v, t)) : t.cmode = s.cmode := by
  obtain ⟨-, -, -, rfl⟩ := get32_eq_ok.mp h
  rfl

theorem demand_failsAsPass (ok : Bool) {c : FormatCause} (hc : c ≠ .lumaRange) :
    FailsAsPass .dec (demand ok c) := by
  intro x h
  unfold demand at h
  split at h
  · simp at h
  · obtain rfl := by simpa using h
    exact passStop_formatError hc

theorem checkLimit_failsAsPass (m : Mode) (impl : Impl) (n : Nat) :
    FailsAsPass m (checkLimit impl n) := by
  intro x h
  obtain ⟨rfl, -⟩ := checkLimit_eq_error h
  exact passStop_refuse _ _

theorem readHeader_failsAsPass {s : State} (hm : s.cmode = .read) :
    FailsAsPass .dec (readHeader s) := by
  unfold readHeader
  refine .bind (get32_failsAsPass hm) fun ⟨_, s1⟩ h1 => ?_
  refine .bind (demand_failsAsPass _ (by simp)) fun _ _ => ?_
  have hm1 := (get32_cmode h1).trans hm
  refine .bind (get32_failsAsPass hm1) fun ⟨_, s2⟩ h2 => ?_
  refine .bind (demand_failsAsPass _ (by simp)) fun _ _ => ?_
  have hm2 := (get32_cmode h2).trans hm1
  refine .bind (get32_failsAsPass hm2) fun ⟨_, s3⟩ h3 => ?_
  refine .bind (demand_failsAsPass _ (by simp)) fun _ _ => ?_
  have hm3 := (get32_cmode h3).trans hm2
  refine .bind (get8_failsAsPass hm3) fun ⟨_, s4⟩ h4 => ?_
  refine .bind (demand_failsAsPass _ (by simp)) fun _ _ => ?_
  have hm4 := (get8_cmode h4).trans hm3
  refine .bind (get8_failsAsPass hm4) fun ⟨_, s5⟩ _ => ?_
  refine .bind (demand_failsAsPass _ (by simp)) fun _ _ => ?_
  exact .bind (checkLimit_failsAsPass _ _ _) fun _ _ => .ok _

theorem decHead_failsAsPass (s : State) : FailsAsPass .dec (decHead s) :=
  .bind (readHeader_failsAsPass rfl) fun _ _ => .ok _

theorem checkEndMarker_failsAsPass {s : State} (hm : s.cmode = .read) :
    FailsAsPass .dec (checkEndMarker s) := by
  intro x h
  unfold checkEndMarker at h
  split at h
  · next e he =>
    obtain rfl : e = x := by simpa using h
    rcases matchBytes_eq_error _ he with hr | rfl
    · exact readStop_passStop hm hr
    · exact passStop_formatError (by simp)
  · split at h
    · obtain rfl := by simpa using h
      exact passStop_formatError (by simp)
    · simp at h

theorem decTail_failsAsPass {s : State} (hm : s.cmode = .read) : FailsAsPass .dec (decTail s) :=
  .bind (checkEndMarker_failsAsPass hm) fun _ _ => .ok _

/-! ### The encode pass -/

theorem require_failsAsPass (ok : Bool) (c : ArgCause) :
    FailsAsPass .enc (Machine.require ok c) := by
  intro x h
  unfold Machine.require at h
  split at h
  · simp at h
  · obtain rfl := by simpa using h
    exact passStop_raise (by simp) rfl

theorem checkArgs_failsAsPass (impl : Impl) (a : Args) : FailsAsPass .enc (checkArgs impl a) :=
  .bind (require_failsAsPass _ _) fun _ _ => .bind (require_failsAsPass _ _) fun _ _ =>
  .bind (require_failsAsPass _ _) fun _ _ => .bind (require_failsAsPass _ _) fun _ _ =>
  .bind (checkLimit_failsAsPass _ _ _) fun _ _ => require_failsAsPass _ _

/-- Only the checks can end `HEAD` of encode early, since the header fits its buffer. -/
theorem encHead_failsAsPass (s : State) : FailsAsPass .enc (encHead s) := by
  intro x h
  rcases bind_eq_error.mp h with hargs | ⟨_, hargs, -⟩
  · exact checkArgs_failsAsPass _ _ x hargs
  · rw [encHead_of_checkArgs hargs] at h
    simp at h

theorem pixelByte_failsAsPass (m : Mode) (s : State) (a : Nat) :
    FailsAsPass m (pixelByte s a) := by
  intro x h
  unfold pixelByte at h
  split at h
  · simp at h
  · obtain rfl := by simpa using h
    exact passStop_fault _ _

theorem fetchPixel_failsAsPass (m : Mode) (s : State) : FailsAsPass m (fetchPixel s) := by
  have byte := pixelByte_failsAsPass m s
  unfold fetchPixel
  split_ifs
  · exact .bind (byte _) fun _ _ => .bind (byte _) fun _ _ => .bind (byte _) fun _ _ =>
      .bind (byte _) fun _ _ => .ok _
  · exact .bind (byte _) fun _ _ => .bind (byte _) fun _ _ => .bind (byte _) fun _ _ => .ok _
  · intro x h
    obtain rfl : .fault .noPixelLayout = x := Except.error.inj h
    exact passStop_fault _ _

end Sys2Proof.Machine
end

section
/-! PROOFS. The invariant of the engine by phase, and that every step keeps it. -/

namespace Sys2Proof.Machine

/-! ### The invariant outside a loaded pass -/

/-- Where the header registers are not loaded the invariant speaks of the memories, of `ERR` and of the
input of a launched pass alone. -/
theorem engineInv_of_not_loaded {s : State} (hl : loaded s.phase = false) (hmem : MemoryOk s)
    (herr : ErrOk s)
    (henc : s.mode = .enc → s.phase = .head → (s.p.readBytes 0 s.args.plen).isSome = true)
    (hdec : s.mode = .dec → s.phase = .head → (s.q.readBytes 0 s.args.qlen).isSome = true) :
    EngineInv s := by
  have hn : ¬ loaded s.phase = true := by simp [hl]
  have hbody : s.phase ≠ .body := fun h => hn (by simp [h, loaded])
  have htail : s.phase ≠ .tail := fun h => hn (by simp [h, loaded])
  have hdone : s.phase ≠ .done := fun h => hn (by simp [h, loaded])
  exact ⟨hmem, herr, fun h => absurd h hn,
    ⟨fun h => absurd h hbody, fun h => h.elim (absurd · htail) (absurd · hdone)⟩,
    fun h => absurd h hn, ⟨henc, fun _ h => absurd h hn, hdec, fun _ h => absurd h hn⟩,
    fun h => absurd h hn, fun _ h => absurd h hn,
    fun _ => ⟨fun h => absurd h hbody, fun h => absurd h htail⟩, fun _ h => absurd h hbody⟩

theorem takeFault_inv {s : State} {e : Err} (hs : EngineInv s) (hne : e ≠ .none)
    (he : errOf s.mode e = true) : EngineInv (takeFault e s) := by
  obtain ⟨⟨hq, hp⟩, -⟩ := hs
  refine engineInv_of_not_loaded (by simp [loaded]) ⟨?_, ?_⟩ ⟨by simp [hne], by simpa using he⟩
    (by simp) (by simp)
  · rw [takeFault_q]
    split
    · rfl
    · exact hq
  · rw [takeFault_p]
    split
    · rfl
    · exact hp

theorem startEncode_inv {pix : List Byte} {w h : Word} {ch cs : Byte} {s : State}
    (hs : EngineInv s) : EngineInv (startEncode pix w h ch cs s) := by
  obtain ⟨⟨hq, -⟩, -⟩ := hs
  exact engineInv_of_not_loaded rfl ⟨hq, Memory.ofBytes_wf _ _⟩ ⟨by simp [startEncode], rfl⟩
    (fun _ _ => by simp [startEncode, Memory.readBytes_ofBytes]) (by simp [startEncode])

theorem startDecode_inv {qoi : List Byte} {s : State} (hs : EngineInv s) :
    EngineInv (startDecode qoi s) := by
  obtain ⟨⟨-, hp⟩, -⟩ := hs
  exact engineInv_of_not_loaded rfl ⟨Memory.ofBytes_wf _ _, hp⟩ ⟨by simp [startDecode], rfl⟩
    (by simp [startDecode]) (fun _ _ => by simp [startDecode, Memory.readBytes_ofBytes])

theorem idleStep_inv {s t : State} (hs : EngineInv s) (hp : startable s.phase = true)
    (h : idleStep s = .next t) : EngineInv t := by
  unfold idleStep at h
  split at h
  · simp at h
  · next l ls _ =>
    have hs' : EngineInv { s with launches := ls } := hs
    cases l with
    | startEncode pix w hgt ch cs =>
      obtain rfl := by simpa [start, hp] using h
      exact startEncode_inv hs'
    | startDecode qoi =>
      obtain rfl := by simpa [start, hp] using h
      exact startDecode_inv hs'

/-- A computation of the pass that keeps the invariant where it completes, and raises only faults of
the pass's own kind, makes a step that keeps it. -/
theorem settle_inv {s t : State} {r : Except Stop State} (hs : EngineInv s)
    (hfail : FailsAsPass s.mode r) (hok : ∀ u, r = .ok u → EngineInv u)
    (h : settle s r = .next t) : EngineInv t := by
  rcases settle_eq_next h with hr | ⟨e, hr, rfl⟩
  · exact hok t hr
  · obtain ⟨hne, he⟩ := hfail _ hr e rfl
    exact takeFault_inv hs hne he

/-! ### The invariant of a loaded pass -/

/-- What the invariant says of a loaded pass of either mode. -/
structure LoadedInv (s : State) : Prop where
  memory : MemoryOk s
  err : s.err = .none
  header : LegalHeader s.impl s.width s.height s.channels s.colorspace
  pxn : s.pxn = pixelCount s.width s.height
  count : CountOk s
  cmode : s.cmode = cursorMode s.mode
  pos_ge : Config.headerSize ≤ s.pos
  pos_le : s.pos ≤ s.len

/-- What it says besides of a loaded encode pass. -/
structure EncInv (s : State) : Prop where
  input : (s.p.readBytes 0 (s.pxn * s.channels.toNat)).isSome = true
  output : (s.q.readBytes 0 s.pos).isSome = true
  run_le : s.run.toNat ≤ 61
  run_eq : s.phase ≠ .body → s.run = 0
  room : s.phase = .body → s.pos + (if s.run = 0 then 0 else 1) +
    (s.pxn - s.pxi) * (s.channels.toNat + 1) + Config.endSize ≤ s.len
  tailRoom : s.phase = .tail → s.pos + Config.endSize ≤ s.len
  alpha : s.phase = .body → s.channels = 3 → s.prev.a = 255

/-- What it says besides of a loaded decode pass. -/
structure DecInv (s : State) : Prop where
  input : (s.q.readBytes 0 s.len).isSome = true
  output : (s.p.readBytes 0 (4 * s.pxi)).isSome = true

theorem engineInv_iff_of_loaded {s : State} (hl : loaded s.phase = true) :
    EngineInv s ↔ LoadedInv s ∧ (s.mode = .enc → EncInv s) ∧ (s.mode = .dec → DecInv s) := by
  have hfault : s.phase ≠ .fault := by intro h; simp [h, loaded] at hl
  have hhead : s.phase ≠ .head := by intro h; simp [h, loaded] at hl
  constructor
  · rintro ⟨hmem, ⟨herr, -⟩, hhdr, hcount, hcur, ⟨-, hencIn, -, hdecIn⟩, hout, hrun, hroom, halpha⟩
    obtain ⟨hw, hh, hch, hcs, hpxn, hlim⟩ := hhdr hl
    obtain ⟨hmode, hge, hle⟩ := hcur hl
    obtain ⟨hencOut, hdecOut⟩ := hout hl
    refine ⟨⟨hmem, herr.mpr hfault, ⟨hw, hh, hch, hcs, hpxn ▸ hlim⟩, hpxn, hcount, hmode, hge, hle⟩,
      fun hm => ?_, fun hm => ⟨hdecIn hm hl, hdecOut hm⟩⟩
    obtain ⟨hrunLe, hrunEq⟩ := hrun hm hl
    obtain ⟨hbodyRoom, htailRoom⟩ := hroom hm
    exact ⟨hencIn hm hl, hencOut hm, hrunLe, hrunEq, hbodyRoom, htailRoom, halpha hm⟩
  · rintro ⟨⟨hmem, herr, ⟨hw, hh, hch, hcs, hlim⟩, hpxn, hcount, hmode, hge, hle⟩, henc, hdec⟩
    exact ⟨hmem, ⟨by simp [herr, hfault], by simp [herr, errOf]⟩,
      fun _ => ⟨hw, hh, hch, hcs, hpxn, hpxn ▸ hlim⟩, hcount, fun _ => ⟨hmode, hge, hle⟩,
      ⟨fun _ hp => absurd hp hhead, fun hm _ => (henc hm).input, fun _ hp => absurd hp hhead,
        fun hm _ => (hdec hm).input⟩,
      fun _ => ⟨fun hm => (henc hm).output, fun hm => (hdec hm).output⟩,
      fun hm _ => ⟨(henc hm).run_le, (henc hm).run_eq⟩,
      fun hm => ⟨(henc hm).room, (henc hm).tailRoom⟩, fun hm => (henc hm).alpha⟩

theorem engineInv_of_encInv {s : State} (hl : loaded s.phase = true) (hm : s.mode = .enc)
    (h : LoadedInv s) (henc : EncInv s) : EngineInv s :=
  (engineInv_iff_of_loaded hl).mpr ⟨h, fun _ => henc, fun hd => by simp [hm] at hd⟩

theorem engineInv_of_decInv {s : State} (hl : loaded s.phase = true) (hm : s.mode = .dec)
    (h : LoadedInv s) (hdec : DecInv s) : EngineInv s :=
  (engineInv_iff_of_loaded hl).mpr ⟨h, fun he => by simp [hm] at he, fun _ => hdec⟩

theorem encInv_of_engineInv {s : State} (hl : loaded s.phase = true) (hm : s.mode = .enc)
    (h : EngineInv s) : LoadedInv s ∧ EncInv s := by
  obtain ⟨hloaded, henc, -⟩ := (engineInv_iff_of_loaded hl).mp h
  exact ⟨hloaded, henc hm⟩

theorem decInv_of_engineInv {s : State} (hl : loaded s.phase = true) (hm : s.mode = .dec)
    (h : EngineInv s) : LoadedInv s ∧ DecInv s := by
  obtain ⟨hloaded, -, hdec⟩ := (engineInv_iff_of_loaded hl).mp h
  exact ⟨hloaded, hdec hm⟩

theorem loaded_body {s : State} (hp : s.phase = .body) : loaded s.phase = true := by
  rw [hp]; rfl

theorem loaded_tail {s : State} (hp : s.phase = .tail) : loaded s.phase = true := by
  rw [hp]; rfl

theorem LoadedInv.cmode_write {s : State} (h : LoadedInv s) (hm : s.mode = .enc) :
    s.cmode = .write := by
  rw [h.cmode, hm]; rfl

theorem LoadedInv.cmode_read {s : State} (h : LoadedInv s) (hm : s.mode = .dec) :
    s.cmode = .read := by
  rw [h.cmode, hm]; rfl

theorem LoadedInv.channels_eq {s : State} (h : LoadedInv s) : s.channels = 3 ∨ s.channels = 4 := by
  obtain ⟨-, -, hch, -⟩ := h.header
  exact legalChannels_eq_true.mp hch

/-! ### `HEAD` -/

theorem LegalHeader.pixelCount_pos {impl : Impl} {w h : Word} {ch cs : Byte}
    (hlegal : LegalHeader impl w h ch cs) : 0 < pixelCount w h := by
  obtain ⟨hw, hh, -⟩ := hlegal
  have hpos : ∀ {v : Word}, v ≠ 0 → 0 < v.toNat := fun hv =>
    Nat.pos_of_ne_zero fun h0 => hv (BitVec.eq_of_toNat_eq h0)
  exact Nat.mul_pos (hpos hw) (hpos hh)

theorem encStart_inv {s : State} (hs : EngineInv s) (hp : s.phase = .head) (hm : s.mode = .enc)
    (hargs : checkArgs s.impl s.args = .ok ()) : EngineInv (encStart s) := by
  obtain ⟨⟨-, hpwf⟩, ⟨herr, -⟩, -, -, -, ⟨hin, -⟩, -⟩ := hs
  obtain ⟨hlegal, hplen⟩ := checkArgs_eq_ok.mp hargs
  refine engineInv_of_encInv rfl hm ?_ ?_
  · exact {
      memory := ⟨Memory.writeBytes_wf _ _ rfl, hpwf⟩
      err := herr.mpr (by simp [hp])
      header := hlegal
      pxn := rfl
      count := ⟨fun _ => hlegal.pixelCount_pos, by simp [encStart]⟩
      cmode := (congrArg cursorMode hm).symm
      pos_ge := le_refl 14
      pos_le := by show 14 ≤ capacity _ _; simp only [capacity, Config.headerSize]; omega }
  · exact {
      input := readBytes_isSome_mono (hin hm hp) hplen
      output := readBytes_isSome_append (n := 0) _ rfl
      run_le := by simp [encStart, initWork]
      run_eq := by simp [encStart]
      room := fun _ => le_of_eq (by
        simp [encStart, capacity, initWork, openWrite, loadArgs, Config.headerSize]
        omega)
      tailRoom := by simp [encStart]
      alpha := fun _ _ => rfl }

theorem decStart_inv {s : State} {w h : Word} {ch cs : Byte} (hs : EngineInv s)
    (hp : s.phase = .head) (hm : s.mode = .dec) (hlegal : LegalHeader s.impl w h ch cs)
    (hlen : 14 ≤ s.args.qlen) : EngineInv (decStart w h ch cs s) := by
  obtain ⟨⟨hqwf, -⟩, ⟨herr, -⟩, -, -, -, ⟨-, -, hin, -⟩, -⟩ := hs
  exact engineInv_of_decInv rfl hm {
    memory := ⟨hqwf, rfl⟩
    err := herr.mpr (by simp [hp])
    header := hlegal
    pxn := rfl
    count := ⟨fun _ => hlegal.pixelCount_pos, by simp [decStart]⟩
    cmode := (congrArg cursorMode hm).symm
    pos_ge := le_refl 14
    pos_le := hlen } ⟨hin hm hp, rfl⟩

/-! ### The phase after a pixel -/

/-- The phase of a body step's end (43_encode.md R164, 44_decode.md R182). -/
def phaseAfter (pxi pxn : Nat) : Phase := if pxi = pxn then .tail else .body

theorem phaseAfter_loaded (pxi pxn : Nat) : loaded (phaseAfter pxi pxn) = true := by
  unfold phaseAfter; split <;> rfl

theorem phaseAfter_eq_body {pxi pxn : Nat} : phaseAfter pxi pxn = .body ↔ pxi ≠ pxn := by
  unfold phaseAfter; split <;> simp_all

theorem phaseAfter_eq_tail {pxi pxn : Nat} : phaseAfter pxi pxn = .tail ↔ pxi = pxn := by
  unfold phaseAfter; split <;> simp_all

theorem phaseAfter_ne_done (pxi pxn : Nat) : phaseAfter pxi pxn ≠ .done := by
  unfold phaseAfter; split <;> simp

theorem enterTail_eq_setPhase {s : State} (hb : s.phase = .body) :
    enterTail s = setPhase (phaseAfter s.pxi s.pxn) s := by
  unfold enterTail phaseAfter
  by_cases h : s.pxi = s.pxn
  · rw [if_pos ⟨hb, h⟩, if_pos h]
  · rw [if_neg fun hc => h hc.2, if_neg h, ← hb]; rfl

theorem enterTail_of_ne_body {s : State} (hb : s.phase ≠ .body) : enterTail s = s :=
  if_neg fun h => hb h.1

theorem advance_eq {cur : Pixel} {s : State} (hb : s.phase = .body) :
    advance cur s =
      { s with prev := cur, pxi := s.pxi + 1, phase := phaseAfter (s.pxi + 1) s.pxn } :=
  enterTail_eq_setPhase (s := setPxi (s.pxi + 1) (setPrev cur s)) hb

theorem countOk_phaseAfter {s : State} {n : Nat} (hn : n ≤ s.pxn) :
    CountOk { s with pxi := n, phase := phaseAfter n s.pxn } := by
  refine ⟨fun h => lt_of_le_of_ne hn (phaseAfter_eq_body.mp h), ?_⟩
  rintro (h | h)
  · exact phaseAfter_eq_tail.mp h
  · exact absurd h (phaseAfter_ne_done _ _)

/-! ### `BODY` and `TAIL` of encode -/

/-- A pixel fetched in `BODY` is written whole, and room is left for the worst case of what is still to
come: one more byte than the channels for each pixel pays for the longest op, since RGBA needs a
changed alpha and so four channels (20_memory.md R62). -/
theorem emitFor_keeps_room {cur : Pixel} {s : State} (hl : LoadedInv s) (henc : EncInv s)
    (hp : s.phase = .body) (hm : s.mode = .enc) (hcur : fetchPixel s = .ok cur) :
    ∃ bs run cache, emitFor cur s = .ok (appendBytes bs { s with run := run, cache := cache }) ∧
      run.toNat ≤ 61 ∧ (s.pxi + 1 = s.pxn → run = 0) ∧
      s.pos + bs.length + (if run = 0 then 0 else 1) +
        (s.pxn - (s.pxi + 1)) * (s.channels.toNat + 1) + Config.endSize ≤ s.len := by
  have howed := hl.count.1 hp
  have hroom := henc.room hp
  rw [show s.pxn - s.pxi = s.pxn - (s.pxi + 1) + 1 by omega, Nat.succ_mul, Config.endSize] at hroom
  have hop : 4 ≤ (if cur.a = s.prev.a then 4 else 5) ∧
      (if cur.a = s.prev.a then 4 else 5) ≤ s.channels.toNat + 1 := by
    rcases hl.channels_eq with h3 | h4
    · simp [h3, fetchPixel_alpha h3 hcur]
    · rw [h4]
      split <;> simp
  obtain ⟨bs, run, cache, hemit, hbs, hrun, hlast⟩ :=
    emitFor_ok (cur := cur) (hl.cmode_write hm) (by omega) henc.run_le
  exact ⟨bs, run, cache, hemit, hrun, hlast, by rw [Config.endSize]; omega⟩

theorem encBody_eq_encPixel {s : State} (h : s.pxi < s.pxn) : encBody s = encPixel s :=
  if_pos h

theorem encPixel_failsAsPass {s : State} (hs : EngineInv s) (hp : s.phase = .body)
    (hm : s.mode = .enc) : FailsAsPass .enc (encPixel s) := by
  obtain ⟨hl, henc⟩ := encInv_of_engineInv (loaded_body hp) hm hs
  refine .bind (fetchPixel_failsAsPass _ _) fun cur hcur => ?_
  obtain ⟨bs, run, cache, hemit, -⟩ := emitFor_keeps_room hl henc hp hm hcur
  rw [hemit]
  exact .ok _

theorem encPixel_inv {s t : State} (hs : EngineInv s) (hp : s.phase = .body) (hm : s.mode = .enc)
    (h : encPixel s = .ok t) : EngineInv t := by
  obtain ⟨hl, henc⟩ := encInv_of_engineInv (loaded_body hp) hm hs
  simp only [encPixel, bind_eq_ok, pure_ok] at h
  obtain ⟨cur, hcur, u, hu, h⟩ := h
  obtain ⟨bs, run, cache, hemit, hrun, hlast, hroom⟩ := emitFor_keeps_room hl henc hp hm hcur
  have halpha : s.channels = 3 → cur.a = 255 := fun h3 =>
    (fetchPixel_alpha h3 hcur).trans (henc.alpha hp h3)
  rw [hemit] at hu
  obtain rfl := by simpa using hu
  have hb : (appendBytes bs { s with run := run, cache := cache }).phase = .body := hp
  obtain rfl := by simpa [advance_eq hb] using h
  refine engineInv_of_encInv (phaseAfter_loaded _ _) hm ?_ ?_
  · exact {
      memory := appendBytes_memoryOk bs hl.memory
      err := hl.err
      header := hl.header
      pxn := hl.pxn
      count := countOk_phaseAfter (s := s) (hl.count.1 hp)
      cmode := hl.cmode
      pos_ge := Nat.le_add_right_of_le hl.pos_ge
      pos_le := by show s.pos + bs.length ≤ s.len; omega }
  · exact {
      input := henc.input
      output := appendBytes_output bs henc.output
      run_le := hrun
      run_eq := fun hb => hlast (by simpa [phaseAfter_eq_body, appendBytes] using hb)
      room := fun _ => hroom
      tailRoom := fun _ => by show s.pos + bs.length + Config.endSize ≤ s.len; omega
      alpha := fun _ => halpha }

theorem encTail_failsAsPass {s : State} (hs : EngineInv s) (hp : s.phase = .tail)
    (hm : s.mode = .enc) : FailsAsPass .enc (encTail s) := by
  obtain ⟨hl, henc⟩ := encInv_of_engineInv (loaded_tail hp) hm hs
  rw [encTail_ok (hl.cmode_write hm) (henc.tailRoom hp)]
  exact .ok _

theorem encTail_inv {s t : State} (hs : EngineInv s) (hp : s.phase = .tail) (hm : s.mode = .enc)
    (h : encTail s = .ok t) : EngineInv t := by
  obtain ⟨hl, henc⟩ := encInv_of_engineInv (loaded_tail hp) hm hs
  have hroom := henc.tailRoom hp
  rw [encTail_ok (hl.cmode_write hm) hroom] at h
  obtain rfl := by simpa using h
  refine engineInv_of_encInv rfl hm ?_ ?_
  · exact {
      memory := appendBytes_memoryOk endBytes hl.memory
      err := hl.err
      header := hl.header
      pxn := hl.pxn
      count := ⟨by simp, fun _ => hl.count.2 (.inl hp)⟩
      cmode := hl.cmode
      pos_ge := Nat.le_add_right_of_le hl.pos_ge
      pos_le := hroom }
  · exact {
      input := henc.input
      output := appendBytes_output endBytes henc.output
      run_le := henc.run_le
      run_eq := fun _ => henc.run_eq (by simp [hp])
      room := by simp
      tailRoom := by simp
      alpha := by simp }

/-! ### `BODY` and `TAIL` of decode -/

theorem opCompletes_inv {n k : Nat} {s t : State} (hs : EngineInv s) (hp : s.phase = .body)
    (hm : s.mode = .dec) (h : OpCompletes n k s t) : EngineInv (enterTail t) := by
  obtain ⟨hl, hdec⟩ := decInv_of_engineInv (loaded_body hp) hm hs
  obtain ⟨prev, cache, bs, hbs, -, hpos, hpxi, ht⟩ := h
  rw [enterTail_eq_setPhase (by rw [ht]; exact hp)]
  obtain rfl := ht
  refine engineInv_of_decInv (phaseAfter_loaded _ _) hm ?_ ⟨hdec.input, ?_⟩
  · exact {
      memory := ⟨hl.memory.1, Memory.writeBytes_wf _ _ hl.memory.2⟩
      err := hl.err
      header := hl.header
      pxn := hl.pxn
      count := countOk_phaseAfter (s := s) hpxi
      cmode := hl.cmode
      pos_ge := Nat.le_add_right_of_le hl.pos_ge
      pos_le := hpos }
  · have hout := readBytes_isSome_append bs hdec.output
    rwa [hbs, ← Nat.mul_add] at hout

theorem afterOp_eq_next {o : Outcome} {t : State} (h : afterOp o = .next t) :
    ∃ u, o = .next u ∧ t = enterTail u := by
  cases o with
  | next u => exact ⟨u, rfl, by simpa [afterOp] using h.symm⟩
  | fault f => simp [afterOp] at h
  | refused r => simp [afterOp] at h

/-- An op executed on a read cursor raises only faults of a decode pass. -/
theorem exec_keeps_inv {i : Instr} {s u : State} (hs : EngineInv s) (hp : s.phase = .body)
    (hm : s.mode = .dec) (hr : s.cmode = .read) (h : exec i s = .next u) :
    EngineInv (enterTail u) := by
  rcases exec_eq_next h with ⟨e, rfl, he⟩ | ⟨n, hc, -, -⟩
  · rw [enterTail_of_ne_body (by simp)]
    rcases he with he | rfl
    · exact takeFault_inv hs (readFault_ne_none he) (hm ▸ errOf_readFault hr he)
    · exact takeFault_inv hs (by simp) (hm ▸ rfl)
  · exact opCompletes_inv hs hp hm hc

theorem decBody_inv {s t : State} (hs : EngineInv s) (hp : s.phase = .body) (hm : s.mode = .dec)
    (h : decBody s = .next t) : EngineInv t := by
  obtain ⟨hl, -⟩ := decInv_of_engineInv (loaded_body hp) hm hs
  have hr := hl.cmode_read hm
  rw [decBody, if_pos (hl.count.1 hp)] at h
  split at h
  · obtain ⟨u, hu, rfl⟩ := afterOp_eq_next h
    exact exec_keeps_inv hs hp hm hr hu
  · next x hx =>
    rcases settle_eq_next h with hx' | ⟨e, hx', rfl⟩
    · simp at hx'
    · obtain rfl : x = .raise e := by simpa using hx'
      obtain ⟨hne, he⟩ := fetchOp_failsAsPass hr _ hx e rfl
      exact takeFault_inv hs hne (hm ▸ he)

theorem matchBytes_of_checkEndMarker {s t : State} (h : checkEndMarker s = .ok t) :
    matchBytes endBytes s = .ok t := by
  unfold checkEndMarker at h
  split at h
  · simp at h
  · next u hu =>
    split at h
    · simp at h
    · obtain rfl := by simpa using h
      exact hu

theorem decTail_inv {s t : State} (hs : EngineInv s) (hp : s.phase = .tail) (hm : s.mode = .dec)
    (h : decTail s = .ok t) : EngineInv t := by
  obtain ⟨hl, hdec⟩ := decInv_of_engineInv (loaded_tail hp) hm hs
  simp only [decTail, bind_eq_ok, pure_ok] at h
  obtain ⟨u, hu, h⟩ := h
  obtain ⟨-, hlen, -, rfl⟩ :=
    (matchBytes_eq_ok endBytes (by simp [endBytes])).mp (matchBytes_of_checkEndMarker hu)
  obtain rfl := by simpa using h
  exact engineInv_of_decInv rfl hm {
    memory := hl.memory
    err := hl.err
    header := hl.header
    pxn := hl.pxn
    count := ⟨by simp, fun _ => hl.count.2 (.inl hp)⟩
    cmode := hl.cmode
    pos_ge := Nat.le_add_right_of_le hl.pos_ge
    pos_le := hlen } ⟨hdec.input, hdec.output⟩

/-! ### Every step -/

theorem step_enc_inv {s t : State} (hs : EngineInv s) (hm : s.mode = .enc)
    (hrun : running s.phase = true) (h : step s = .next t) : EngineInv t := by
  cases hp : s.phase with
  | head =>
    rw [step_head_enc hp hm] at h
    refine settle_inv hs (hm ▸ encHead_failsAsPass s) (fun u hu => ?_) h
    obtain ⟨hargs, rfl⟩ := encHead_eq_ok.mp hu
    exact encStart_inv hs hp hm hargs
  | body =>
    obtain ⟨hl, -⟩ := encInv_of_engineInv (loaded_body hp) hm hs
    rw [step_body_enc hp hm, encBody_eq_encPixel (hl.count.1 hp)] at h
    exact settle_inv hs (hm ▸ encPixel_failsAsPass hs hp hm) (fun _ => encPixel_inv hs hp hm) h
  | tail =>
    rw [step_tail_enc hp hm] at h
    exact settle_inv hs (hm ▸ encTail_failsAsPass hs hp hm) (fun _ => encTail_inv hs hp hm) h
  | idle | done | fault => simp [hp, running] at hrun

theorem step_dec_inv {s t : State} (hs : EngineInv s) (hm : s.mode = .dec)
    (hrun : running s.phase = true) (h : step s = .next t) : EngineInv t := by
  cases hp : s.phase with
  | head =>
    rw [step_head_dec hp hm] at h
    refine settle_inv hs (hm ▸ decHead_failsAsPass s) (fun u hu => ?_) h
    obtain ⟨_, _, _, _, hlegal, hlen, -, rfl⟩ := decHead_eq_ok.mp hu
    exact decStart_inv hs hp hm hlegal hlen
  | body =>
    rw [step_body_dec hp hm] at h
    exact decBody_inv hs hp hm h
  | tail =>
    obtain ⟨hl, -⟩ := decInv_of_engineInv (loaded_tail hp) hm hs
    rw [step_tail_dec hp hm] at h
    exact settle_inv hs (hm ▸ decTail_failsAsPass (hl.cmode_read hm))
      (fun _ => decTail_inv hs hp hm) h
  | idle | done | fault => simp [hp, running] at hrun

theorem startable_of_not_running {ph : Phase} (h : ¬ running ph = true) : startable ph = true := by
  cases ph <;> simp [running, startable] at h ⊢

/-- Settles O48: by the phase and the mode, a step takes a launch, takes a fault of the pass's own kind
or completes its part of the pass, and each of the three gives a state that meets the invariant. -/
theorem everyStepKeepsTheInvariant : Obligations.EveryStepKeepsTheInvariant := by
  unfold Obligations.EveryStepKeepsTheInvariant
  intro s t hs h
  by_cases hrun : running s.phase = true
  · cases hm : s.mode with
    | enc => exact step_enc_inv hs hm hrun h
    | dec => exact step_dec_inv hs hm hrun h
  · have hp := startable_of_not_running hrun
    rw [step_startable hp] at h
    exact idleStep_inv hs hp h

end Sys2Proof.Machine
end

section
/-! PROOFS. The result of a finished pass (20_memory.md R63, 44_decode.md R192). -/

namespace Sys2Proof.Machine

theorem toOutput_of_readBytes {s : State} {bs : List Byte} (hm : s.cmode = .write)
    (hq : s.q.readBytes 0 s.pos = some bs) : toOutput s = .ok bs := by
  simp [toOutput, hm, hq]

theorem result_of_ne_done {s : State} (hp : s.phase ≠ .done) : result s = none :=
  if_neg hp

theorem result_of_toOutput {s : State} {bs : List Byte} (hp : s.phase = .done)
    (hm : s.mode = .enc) (h : toOutput s = .ok bs) : result s = some (.encoded bs) := by
  simp [result, hp, hm, h]

theorem result_of_readBytes {s : State} {bs : List Byte} (hp : s.phase = .done)
    (hm : s.mode = .dec) (h : s.p.readBytes 0 (4 * s.pxn) = some bs) :
    result s = some (.decoded bs s.width s.height s.channels s.colorspace) := by
  simp [result, hp, hm, h]

theorem loaded_done {s : State} (hp : s.phase = .done) : loaded s.phase = true := by
  rw [hp]; rfl

/-- Settles O46: the invariant says that every byte of the output so far has a value, and at `DONE` the
output so far is the whole of it. -/
theorem resultExactlyAtDone : Obligations.ResultExactlyAtDone := by
  unfold Obligations.ResultExactlyAtDone
  intro s
  refine ⟨result_of_ne_done, fun hs hp hm => ?_, fun hs hp hm => ?_⟩
  · obtain ⟨hl, henc⟩ := encInv_of_engineInv (loaded_done hp) hm hs
    obtain ⟨bs, hq⟩ := Option.isSome_iff_exists.mp henc.output
    exact ⟨bs, result_of_toOutput hp hm (toOutput_of_readBytes (hl.cmode_write hm) hq), hq,
      Memory.readBytes_length hq⟩
  · obtain ⟨hl, hdec⟩ := decInv_of_engineInv (loaded_done hp) hm hs
    have hall : s.pxi = s.pxn := hl.count.2 (.inr hp)
    obtain ⟨bs, hread⟩ := Option.isSome_iff_exists.mp hdec.output
    rw [hall] at hread
    exact ⟨bs, result_of_readBytes hp hm hread, hread,
      (Memory.readBytes_length hread).trans (Nat.mul_comm _ _)⟩

end Sys2Proof.Machine
end

section
/-! PROOFS. What a step of a pass leaves unchanged, in any state: where the encoder's writes complete
they append to space Q, and no step of either pass writes its input (20_memory.md R64, R67). -/

namespace Sys2Proof.Machine

/-! ### What the encoder's writes do where they complete -/

theorem putBytes_of_ok {bs : List Byte} {s t : State} (h : putBytes bs s = .ok t) :
    t = appendBytes bs s := by
  cases bs with
  | nil => simpa [putBytes] using h.symm
  | cons v vs =>
    obtain ⟨-, -, ht⟩ := (putBytes_eq_ok (v :: vs) (by simp)).mp h
    exact ht

theorem flush_of_ok {s t : State} (h : flush s = .ok t) :
    t = appendBytes (encode (.run s.run.toNat)) (setRun 0 s) := by
  unfold flush at h
  split at h
  · simp at h
  · next u hu =>
    obtain rfl := putBytes_of_ok hu
    exact (Except.ok.inj h).symm

theorem flushPending_of_ok {s t : State} (h : flushPending s = .ok t) :
    t = appendBytes (pendingRun s) (setRun 0 s) := by
  unfold flushPending at h
  unfold pendingRun
  by_cases hr : s.run = 0
  · rw [if_neg (not_not.mpr hr)] at h
    rw [if_pos hr, setRun_eq_self hr, appendBytes_nil]
    simpa using h.symm
  · rw [if_pos hr] at h
    rw [if_neg hr, ← encode_run]
    exact flush_of_ok h

theorem runPath_of_ok {s t : State} (h : runPath s = .ok t) :
    ∃ bs run, t = appendBytes bs (setRun run s) := by
  by_cases hf : mustFlush (s.run + 1) s.pxi s.pxn = true
  · exact ⟨_, 0, flush_of_ok (s := setRun (s.run + 1) s) ((if_pos hf).symm.trans h)⟩
  · rw [runPath_of_not_mustFlush hf] at h
    exact ⟨[], s.run + 1, by simpa using h.symm⟩

theorem opPath_of_ok {cur : Pixel} {s t : State} (h : opPath cur s = .ok t) :
    t = appendBytes (pendingRun s ++ encode (firstFittingOp cur s.prev s.cache))
      { s with run := 0, cache := cacheAfter cur s.cache } := by
  obtain ⟨u, hu, ht⟩ := bind_eq_ok.mp h
  obtain rfl := flushPending_of_ok hu
  rw [putPixel_eq_putBytes] at ht
  rw [← appendBytes_appendBytes]
  exact putBytes_of_ok ht

/-- What the stream gets for a pixel is appended, and of the registers only `RUN` and the cache change
with it. -/
theorem emitFor_of_ok {cur : Pixel} {s t : State} (h : emitFor cur s = .ok t) :
    ∃ bs run cache, t = appendBytes bs { s with run := run, cache := cache } := by
  unfold emitFor at h
  split at h
  · obtain ⟨bs, run, rfl⟩ := runPath_of_ok h
    exact ⟨bs, run, s.cache, rfl⟩
  · exact ⟨_, 0, _, opPath_of_ok h⟩

theorem enterTail_eq_setPhase_phase (s : State) :
    enterTail s = setPhase (enterTail s).phase s := by
  unfold enterTail
  split <;> rfl

/-! ### The frame of the encode pass -/

theorem encPixel_keepsTheRest {s t : State} (h : encPixel s = .ok t) : EncKeepsTheRest s t := by
  obtain ⟨cur, -, h⟩ := bind_eq_ok.mp h
  obtain ⟨u, hu, h⟩ := bind_eq_ok.mp h
  obtain ⟨bs, run, cache, rfl⟩ := emitFor_of_ok hu
  obtain rfl := Except.ok.inj h
  rw [advance, enterTail_eq_setPhase_phase]
  rfl

theorem encBody_keepsTheRest {s t : State} (h : encBody s = .ok t) : EncKeepsTheRest s t := by
  unfold encBody at h
  split at h
  · exact encPixel_keepsTheRest h
  · obtain rfl := Except.ok.inj h
    rfl

theorem encTail_keepsTheRest {s t : State} (h : encTail s = .ok t) : EncKeepsTheRest s t := by
  obtain ⟨u, hu, h⟩ := bind_eq_ok.mp h
  obtain rfl := putBytes_of_ok hu
  obtain rfl := Except.ok.inj h
  rfl

/-! ### The input of a pass -/

/-- From `s` to `t` the input buffer of the pass of `s`, its operands, the parameters and the launches
are unchanged. -/
structure KeepsInput (s t : State) : Prop where
  p : s.mode = .enc → t.p = s.p
  q : s.mode = .dec → t.q = s.q
  args : t.args = s.args
  impl : t.impl = s.impl
  launches : t.launches = s.launches

theorem KeepsInput.setPhase {s t : State} (h : KeepsInput s t) (ph : Phase) :
    KeepsInput s (setPhase ph t) :=
  ⟨h.p, h.q, h.args, h.impl, h.launches⟩

theorem KeepsInput.enterTail {s t : State} (h : KeepsInput s t) : KeepsInput s (enterTail t) := by
  rw [enterTail_eq_setPhase_phase]
  exact h.setPhase _

theorem EncKeepsTheRest.keepsInput {s t : State} (hm : s.mode = .enc) (h : EncKeepsTheRest s t) :
    KeepsInput s t := by
  rw [EncKeepsTheRest] at h
  rw [h]
  exact ⟨fun _ => rfl, by simp [hm], rfl, rfl, rfl⟩

/-- A fault clears the output buffer of the pass and never the input. -/
theorem takeFault_keepsInput (e : Err) (s : State) : KeepsInput s (takeFault e s) where
  p hm := by simp [takeFault_p, hm]
  q hm := by simp [takeFault_q, hm]
  args := takeFault_args e s
  impl := takeFault_impl e s
  launches := takeFault_launches e s

theorem settle_keepsInput {s t : State} {r : Except Stop State}
    (hok : ∀ u, r = .ok u → KeepsInput s u) (h : settle s r = .next t) : KeepsInput s t := by
  rcases settle_eq_next h with hr | ⟨e, -, rfl⟩
  · exact hok t hr
  · exact takeFault_keepsInput e s

theorem encHead_keepsInput {s t : State} (hm : s.mode = .enc) (h : encHead s = .ok t) :
    KeepsInput s t := by
  obtain ⟨-, rfl⟩ := encHead_eq_ok.mp h
  exact ⟨fun _ => rfl, by simp [hm], rfl, rfl, rfl⟩

theorem decHead_keepsInput {s t : State} (hm : s.mode = .dec) (h : decHead s = .ok t) :
    KeepsInput s t := by
  obtain ⟨_, _, _, _, -, -, -, rfl⟩ := decHead_eq_ok.mp h
  exact ⟨by simp [hm], fun _ => rfl, rfl, rfl, rfl⟩

theorem exec_keepsInput {i : Instr} {s t : State} (hm : s.mode = .dec)
    (h : exec i s = .next t) : KeepsInput s t := by
  rcases exec_eq_next h with ⟨e, rfl, -⟩ | ⟨n, ⟨prev, cache, bs, -, -, -, -, rfl⟩, -, -⟩
  · exact takeFault_keepsInput e s
  · exact ⟨by simp [hm], fun _ => rfl, rfl, rfl, rfl⟩

theorem decBody_keepsInput {s t : State} (hm : s.mode = .dec) (h : decBody s = .next t) :
    KeepsInput s t := by
  unfold decBody at h
  split at h
  · split at h
    · obtain ⟨u, hu, rfl⟩ := afterOp_eq_next h
      exact (exec_keepsInput hm hu).enterTail
    · exact settle_keepsInput (by simp) h
  · obtain rfl := Host.Outcome.next.inj h
    exact ⟨fun _ => rfl, fun _ => rfl, rfl, rfl, rfl⟩

theorem decTail_keepsInput {s t : State} (h : decTail s = .ok t) : KeepsInput s t := by
  obtain ⟨u, hu, h⟩ := bind_eq_ok.mp h
  obtain ⟨-, -, -, rfl⟩ :=
    (matchBytes_eq_ok endBytes (by simp [endBytes])).mp (matchBytes_of_checkEndMarker hu)
  obtain rfl := Except.ok.inj h
  exact ⟨fun _ => rfl, fun _ => rfl, rfl, rfl, rfl⟩

theorem step_enc_keepsInput {s t : State} (hm : s.mode = .enc) (hrun : running s.phase = true)
    (h : step s = .next t) : KeepsInput s t := by
  cases hp : s.phase with
  | head =>
    rw [step_head_enc hp hm] at h
    exact settle_keepsInput (fun _ => encHead_keepsInput hm) h
  | body =>
    rw [step_body_enc hp hm] at h
    exact settle_keepsInput (fun _ hu => (encBody_keepsTheRest hu).keepsInput hm) h
  | tail =>
    rw [step_tail_enc hp hm] at h
    exact settle_keepsInput (fun _ hu => (encTail_keepsTheRest hu).keepsInput hm) h
  | idle | done | fault => simp [hp, running] at hrun

theorem step_dec_keepsInput {s t : State} (hm : s.mode = .dec) (hrun : running s.phase = true)
    (h : step s = .next t) : KeepsInput s t := by
  cases hp : s.phase with
  | head =>
    rw [step_head_dec hp hm] at h
    exact settle_keepsInput (fun _ => decHead_keepsInput hm) h
  | body =>
    rw [step_body_dec hp hm] at h
    exact decBody_keepsInput hm h
  | tail =>
    rw [step_tail_dec hp hm] at h
    exact settle_keepsInput (fun _ => decTail_keepsInput) h
  | idle | done | fault => simp [hp, running] at hrun

/-- Settles O53: by the mode and the phase, a step of a pass takes a fault, which clears the output
buffer alone, or completes its part of the pass, which writes that buffer and the registers alone. -/
theorem aPassNeverWritesItsInput : Obligations.APassNeverWritesItsInput := by
  unfold Obligations.APassNeverWritesItsInput
  intro s t hrun h
  have hkeeps : KeepsInput s t := by
    cases hm : s.mode with
    | enc => exact step_enc_keepsInput hm hrun h
    | dec => exact step_dec_keepsInput hm hrun h
  exact ⟨hkeeps.p, hkeeps.q, hkeeps.args, hkeeps.impl, hkeeps.launches⟩

end Sys2Proof.Machine
end

section
/-! PROOFS. Encoding and decoding of ops (30_encoding.md): `Reads` says once which op is read from which
bytes, and both directions of the round trip are about it. -/

namespace Sys2Proof.Machine

/-! ### The control byte -/

theorem isIndex_eq_range : ∀ c : Byte, isIndex c = decide (c.toNat ≤ 0x3F) := by decide

theorem isDiff_eq_range :
    ∀ c : Byte, isDiff c = decide (0x40 ≤ c.toNat ∧ c.toNat ≤ 0x7F) := by decide

theorem isLuma_eq_range :
    ∀ c : Byte, isLuma c = decide (0x80 ≤ c.toNat ∧ c.toNat ≤ 0xBF) := by decide

theorem isRun_eq_range :
    ∀ c : Byte, isRun c = decide (0xC0 ≤ c.toNat ∧ c.toNat ≤ 0xFD) := by decide

theorem isRGB_eq_range : ∀ c : Byte, isRGB c = decide (c.toNat = 0xFE) := by decide

theorem isRGBA_eq_range : ∀ c : Byte, isRGBA c = decide (c.toNat = 0xFF) := by decide

/-- The six conditions cover every control byte: the dispatch is total (30_encoding.md R82). -/
theorem controlByte_cases : ∀ c : Byte, isIndex c = true ∨ isDiff c = true ∨ isLuma c = true ∨
    isRun c = true ∨ c = 0xFE ∨ c = 0xFF := by decide

theorem opLength_of_isIndex : ∀ c : Byte, isIndex c = true → opLength c = 1 := by decide

theorem opLength_of_isDiff : ∀ c : Byte, isDiff c = true → opLength c = 1 := by decide

theorem opLength_of_isLuma : ∀ c : Byte, isLuma c = true → opLength c = 2 := by decide

theorem opLength_of_isRun : ∀ c : Byte, isRun c = true → opLength c = 1 := by decide

/-! ### The dispatch -/

theorem decode_of_isIndex {c : Byte} (h : isIndex c = true) (bs : List Byte) :
    decode (c :: bs) = .ok (readIndex c, bs) := by
  have hlit : ∀ c : Byte, isIndex c = true → isRGBA c = false ∧ isRGB c = false := by decide
  simp [decode, hlit c h, h]

theorem decode_of_isRun {c : Byte} (h : isRun c = true) (bs : List Byte) :
    decode (c :: bs) = .ok (readRun c, bs) := by
  have hnot : ∀ c : Byte, isRun c = true →
      isRGBA c = false ∧ isRGB c = false ∧ isIndex c = false := by decide
  simp [decode, hnot c h, h]

theorem decode_of_isDiff {c : Byte} (h : isDiff c = true) (bs : List Byte) :
    decode (c :: bs) = .ok (readDiff c, bs) := by
  have hnot : ∀ c : Byte, isDiff c = true →
      isRGBA c = false ∧ isRGB c = false ∧ isIndex c = false ∧ isRun c = false := by decide
  simp [decode, hnot c h, h]

/-- Every other test of the decoder fails on the control byte of a LUMA. -/
theorem tests_of_isLuma : ∀ c : Byte, isLuma c = true →
    isRGBA c = false ∧ isRGB c = false ∧ isIndex c = false ∧ isRun c = false ∧
      isDiff c = false := by decide

theorem decode_of_isLuma {c : Byte} (h : isLuma c = true) (d : Byte) (bs : List Byte) :
    decode (c :: d :: bs) = .ok (readLuma c d, bs) := by
  simp [decode, tests_of_isLuma c h]

theorem decode_of_isLuma_nil {c : Byte} (h : isLuma c = true) :
    decode [c] = .error (.cutShort "LUMA") := by
  simp [decode, tests_of_isLuma c h]

/-! ### Fields -/

/-- The field of the value that a field reads as is the field itself (30_encoding.md R89). -/
theorem toField_unbias {w : Nat} (b : Int) (v : BitVec w) : toField w b (unbias b v) = v := by
  simp [toField, unbias]

theorem slotOf_append (slot : Fin 64) : slotOf (0b00#2 ++ BitVec.ofNat 6 slot.val) = slot := by
  revert slot; decide

theorem isIndex_append (v : BitVec 6) : isIndex (0b00#2 ++ v) = true := by revert v; decide

theorem isDiff_append (x y z : BitVec 2) : isDiff (0b01#2 ++ x ++ y ++ z) = true := by
  revert x y z; decide

theorem isLuma_append (v : BitVec 6) : isLuma (0b10#2 ++ v) = true := by revert v; decide

theorem readDiff_append (x y z : BitVec 2) :
    readDiff (0b01#2 ++ x ++ y ++ z) = .diff (unbias 2 x) (unbias 2 y) (unbias 2 z) := by
  revert x y z; decide

theorem readLuma_append (v : BitVec 6) (x y : BitVec 4) :
    readLuma (0b10#2 ++ v) (x ++ y) = .luma (unbias 32 v) (unbias 8 x) (unbias 8 y) := by
  have hv : (0b10#2 ++ v).extractLsb' 0 6 = v := by revert v; decide
  have hxy : (x ++ y).extractLsb' 4 4 = x ∧ (x ++ y).extractLsb' 0 4 = y := by
    revert x y; decide
  simp only [readLuma, hv, hxy]

/-- The length of a run is stored less one, and the two largest fields are the literals' bytes
(30_encoding.md R86). -/
theorem run_append {n : Nat} (h1 : 1 ≤ n) (h62 : n ≤ 62) :
    isRun (0b11#2 ++ BitVec.ofNat 6 (n - 1)) = true ∧
      readRun (0b11#2 ++ BitVec.ofNat 6 (n - 1)) = .run n := by
  have key : ∀ k : Fin 62, isRun (0b11#2 ++ BitVec.ofNat 6 k.val) = true ∧
      readRun (0b11#2 ++ BitVec.ofNat 6 k.val) = .run (k.val + 1) := by decide
  obtain ⟨k, rfl⟩ : ∃ k, n = k + 1 := ⟨n - 1, by omega⟩
  exact key ⟨k, by omega⟩

theorem encode_readIndex : ∀ c : Byte, isIndex c = true → encode (readIndex c) = [c] := by decide

theorem encode_readRun : ∀ c : Byte, isRun c = true → encode (readRun c) = [c] := by decide

theorem encode_readDiff {c : Byte} (h : isDiff c = true) : encode (readDiff c) = [c] := by
  have hc : ∀ c : Byte, isDiff c = true →
      0b01#2 ++ c.extractLsb' 4 2 ++ c.extractLsb' 2 2 ++ c.extractLsb' 0 2 = c := by decide
  simp only [readDiff, encode, toField_unbias, hc c h]

theorem encode_readLuma {c : Byte} (h : isLuma c = true) (d : Byte) :
    encode (readLuma c d) = [c, d] := by
  have hc : ∀ c : Byte, isLuma c = true → 0b10#2 ++ c.extractLsb' 0 6 = c := by decide
  have hd : ∀ d : Byte, d.extractLsb' 4 4 ++ d.extractLsb' 0 4 = d := by decide
  simp only [readLuma, encode, toField_unbias, hc c h, hd d]

/-- A field of `w` bits holds the values from `-b` to `2 ^ w - b - 1` (30_encoding.md R89). -/
theorem inRange_unbias {w : Nat} {lo hi b : Int} (v : BitVec w) (hlo : lo = -b)
    (hhi : hi + b + 1 = ((2 ^ w : Nat) : Int)) : inRange lo hi (unbias b v) = true := by
  have hv := unbias_bounds b v
  rw [inRange_eq_true]
  omega

theorem wellFormed_readDiff (c : Byte) : (readDiff c).wellFormed = true := by
  have hfield (v : BitVec 2) : inRange (-2) 1 (unbias 2 v) = true := inRange_unbias v rfl rfl
  simp [readDiff, Instr.wellFormed, hfield]

theorem wellFormed_readLuma (c d : Byte) : (readLuma c d).wellFormed = true := by
  have hfield6 (v : BitVec 6) : inRange (-32) 31 (unbias 32 v) = true := inRange_unbias v rfl rfl
  have hfield4 (v : BitVec 4) : inRange (-8) 7 (unbias 8 v) = true := inRange_unbias v rfl rfl
  simp [readLuma, Instr.wellFormed, hfield6, hfield4]

theorem wellFormed_readRun : ∀ c : Byte, isRun c = true → (readRun c).wellFormed = true := by
  decide

/-! ### Which op is read from which bytes -/

/-- The op `i` is read from the control byte `c` and the payload (30_encoding.md R83 to R88). -/
inductive Reads : Byte → List Byte → Instr → Prop where
  | index {c : Byte} (h : isIndex c = true) : Reads c [] (readIndex c)
  | diff {c : Byte} (h : isDiff c = true) : Reads c [] (readDiff c)
  | luma {c : Byte} (h : isLuma c = true) (d : Byte) : Reads c [d] (readLuma c d)
  | run {c : Byte} (h : isRun c = true) : Reads c [] (readRun c)
  | rgb (r g b : Byte) : Reads 0xFE [r, g, b] (.rgb r g b)
  | rgba (r g b a : Byte) : Reads 0xFF [r, g, b, a] (.rgba r g b a)

theorem decode_of_reads {c : Byte} {payload : List Byte} {i : Instr} (h : Reads c payload i)
    (rest : List Byte) : decode (c :: (payload ++ rest)) = .ok (i, rest) := by
  cases h with
  | index h => exact decode_of_isIndex h rest
  | diff h => exact decode_of_isDiff h rest
  | luma h d => exact decode_of_isLuma h d rest
  | run h => exact decode_of_isRun h rest
  | rgb | rgba => rfl

/-- A list of bytes with a control byte is cut short and rejected, or begins with an op
(30_encoding.md R90, R91). -/
theorem decode_cases (c : Byte) (bs : List Byte) :
    (bs.length + 1 < opLength c ∧ ∃ e, decode (c :: bs) = .error e) ∨
      (opLength c ≤ bs.length + 1 ∧
        ∃ payload rest i, bs = payload ++ rest ∧ Reads c payload i) := by
  rcases controlByte_cases c with h | h | h | h | rfl | rfl
  · exact .inr ⟨by rw [opLength_of_isIndex c h]; omega, [], bs, _, rfl, .index h⟩
  · exact .inr ⟨by rw [opLength_of_isDiff c h]; omega, [], bs, _, rfl, .diff h⟩
  · rw [opLength_of_isLuma c h]
    match bs with
    | [] => exact .inl ⟨by simp, _, decode_of_isLuma_nil h⟩
    | d :: rest => exact .inr ⟨by simp, [d], rest, _, rfl, .luma h d⟩
  · exact .inr ⟨by rw [opLength_of_isRun c h]; omega, [], bs, _, rfl, .run h⟩
  · rw [show opLength 0xFE = 4 from rfl]
    match bs with
    | [] | [_] | [_, _] => exact .inl ⟨by simp, _, rfl⟩
    | r :: g :: b :: rest => exact .inr ⟨by simp, [r, g, b], rest, _, rfl, .rgb r g b⟩
  · rw [show opLength 0xFF = 5 from rfl]
    match bs with
    | [] | [_] | [_, _] | [_, _, _] => exact .inl ⟨by simp, _, rfl⟩
    | r :: g :: b :: a :: rest =>
      exact .inr ⟨by simp, [r, g, b, a], rest, _, rfl, .rgba r g b a⟩

theorem decode_eq_ok {c : Byte} {bs rest : List Byte} {i : Instr} :
    decode (c :: bs) = .ok (i, rest) ↔ ∃ payload, bs = payload ++ rest ∧ Reads c payload i := by
  constructor
  · intro h
    rcases decode_cases c bs with ⟨-, e, he⟩ | ⟨-, payload, rest', i', rfl, hr⟩
    · simp [he] at h
    · obtain ⟨rfl, rfl⟩ : i' = i ∧ rest' = rest := by simpa [decode_of_reads hr] using h
      exact ⟨payload, rfl, hr⟩
  · rintro ⟨payload, rfl, hr⟩
    exact decode_of_reads hr rest

theorem reads_wellFormed {c : Byte} {payload : List Byte} {i : Instr} (h : Reads c payload i) :
    i.wellFormed = true := by
  cases h with
  | index | rgb | rgba => rfl
  | diff => exact wellFormed_readDiff c
  | luma _ d => exact wellFormed_readLuma c d
  | run h => exact wellFormed_readRun c h

theorem reads_encode {c : Byte} {payload : List Byte} {i : Instr} (h : Reads c payload i) :
    encode i = c :: payload := by
  cases h with
  | index h => exact encode_readIndex c h
  | diff h => exact encode_readDiff h
  | luma h d => exact encode_readLuma h d
  | run h => exact encode_readRun c h
  | rgb | rgba => rfl

theorem reads_length {c : Byte} {payload : List Byte} {i : Instr} (h : Reads c payload i) :
    i.length = opLength c := by
  cases h with
  | index h => exact (opLength_of_isIndex c h).symm
  | diff h => exact (opLength_of_isDiff c h).symm
  | luma h => exact (opLength_of_isLuma c h).symm
  | run h => exact (opLength_of_isRun c h).symm
  | rgb | rgba => rfl

/-- Every well-formed op is read from the bytes of its encoding (30_encoding.md R89, R94). -/
theorem exists_reads_of_wellFormed {i : Instr} (h : i.wellFormed = true) :
    ∃ c payload, encode i = c :: payload ∧ Reads c payload i := by
  cases i with
  | index slot =>
    have hr := Reads.index (isIndex_append (BitVec.ofNat 6 slot.val))
    rw [readIndex, slotOf_append] at hr
    exact ⟨_, _, rfl, hr⟩
  | diff dr dg db =>
    simp only [Instr.wellFormed, Bool.and_eq_true, inRange_eq_true] at h
    obtain ⟨⟨hr, hg⟩, hb⟩ := h
    have hread := Reads.diff (isDiff_append (toField 2 2 dr) (toField 2 2 dg) (toField 2 2 db))
    rw [readDiff_append, unbias_toField (by omega) (by omega), unbias_toField (by omega) (by omega),
      unbias_toField (by omega) (by omega)] at hread
    exact ⟨_, _, rfl, hread⟩
  | luma dg drg dbg =>
    simp only [Instr.wellFormed, Bool.and_eq_true, inRange_eq_true] at h
    obtain ⟨⟨hg, hrg⟩, hbg⟩ := h
    have hread := Reads.luma (isLuma_append (toField 6 32 dg)) (toField 4 8 drg ++ toField 4 8 dbg)
    rw [readLuma_append, unbias_toField (by omega) (by omega),
      unbias_toField (by omega) (by omega), unbias_toField (by omega) (by omega)] at hread
    exact ⟨_, _, rfl, hread⟩
  | run n =>
    simp only [Instr.wellFormed, Bool.and_eq_true, decide_eq_true_eq] at h
    obtain ⟨hpos, hmax⟩ := h
    obtain ⟨hrun, hread⟩ := run_append hpos hmax
    exact ⟨_, _, rfl, hread ▸ Reads.run hrun⟩
  | rgb r g b => exact ⟨_, _, rfl, .rgb r g b⟩
  | rgba r g b a => exact ⟨_, _, rfl, .rgba r g b a⟩

/-- The op read is the one whose range the control byte lies in (30_encoding.md R82). -/
theorem reads_mnemonic {c : Byte} {payload : List Byte} {i : Instr} (h : Reads c payload i) :
    i.mnemonic =
      if c.toNat ≤ 0x3F then "INDEX" else if c.toNat ≤ 0x7F then "DIFF"
      else if c.toNat ≤ 0xBF then "LUMA" else if c.toNat ≤ 0xFD then "RUN"
      else if c.toNat = 0xFE then "RGB" else "RGBA" := by
  cases h with
  | index h =>
    rw [isIndex_eq_range, decide_eq_true_eq] at h
    rw [if_pos h]; rfl
  | diff h =>
    rw [isDiff_eq_range, decide_eq_true_eq] at h
    rw [if_neg (by omega), if_pos h.2]; rfl
  | luma h =>
    rw [isLuma_eq_range, decide_eq_true_eq] at h
    rw [if_neg (by omega), if_neg (by omega), if_pos h.2]; rfl
  | run h =>
    rw [isRun_eq_range, decide_eq_true_eq] at h
    rw [if_neg (by omega), if_neg (by omega), if_neg (by omega), if_pos h.2]; rfl
  | rgb | rgba => rfl

/-! ### The statements -/

/-- Settles O1: the encoding of a well-formed op is a control byte and payload from which that op is
read, since each field reads back as the operand stored in it. -/
theorem decodeOfEncodeGivesTheOp : Obligations.DecodeOfEncodeGivesTheOp := by
  unfold Obligations.DecodeOfEncodeGivesTheOp
  intro i rest hwf
  obtain ⟨c, payload, henc, hread⟩ := exists_reads_of_wellFormed hwf
  rw [henc, List.cons_append]
  exact decode_of_reads hread rest

/-- Settles O2: an op is read from a control byte and a payload, and its fields store back what they
read as. -/
theorem encodeOfDecodeGivesTheBytes : Obligations.EncodeOfDecodeGivesTheBytes := by
  unfold Obligations.EncodeOfDecodeGivesTheBytes
  intro c bs rest i h
  obtain ⟨payload, rfl, hread⟩ := decode_eq_ok.mp h
  exact ⟨reads_wellFormed hread, by rw [reads_encode hread, List.cons_append], reads_length hread⟩

/-- Settles O3: a list of bytes with a control byte is cut short and rejected, or holds the whole of
an op, which is then read. -/
theorem decodeRejectsOnlyMissingBytes : Obligations.DecodeRejectsOnlyMissingBytes := by
  unfold Obligations.DecodeRejectsOnlyMissingBytes
  refine ⟨⟨_, rfl⟩, fun c bs => ?_⟩
  rcases decode_cases c bs with ⟨hshort, he⟩ | ⟨hlong, payload, rest, i, rfl, hread⟩
  · exact ⟨fun _ => hshort, fun _ => he⟩
  · exact iff_of_false (by simp [decode_of_reads hread]) (Nat.not_lt.mpr hlong)

/-- Settles O4: each condition is checked on the 256 bytes, and the op read is the one whose condition
its control byte meets. -/
theorem controlByteRanges : Obligations.ControlByteRanges := by
  unfold Obligations.ControlByteRanges
  refine ⟨fun c => ⟨isIndex_eq_range c, isDiff_eq_range c, isLuma_eq_range c, isRun_eq_range c,
    isRGB_eq_range c, isRGBA_eq_range c⟩, fun c bs rest i h => ?_⟩
  obtain ⟨payload, -, hread⟩ := decode_eq_ok.mp h
  exact reads_mnemonic hread

/-- Settles O5: the decoder evaluates on each of the six words. -/
theorem specWordsDecode : Obligations.SpecWordsDecode := by
  unfold Obligations.SpecWordsDecode
  decide

end Sys2Proof.Machine
end

section
/-! PROOFS. The primitives of the cursor (40_bytecursor.md): what each answers where its checks
pass, and with which condition it fails where they do not. -/

namespace Sys2Proof.Machine

/-! ### Checks that fail -/

theorem checkWrite_read {n : Nat} {s : State} (hm : s.cmode = .read) :
    checkWrite n s = .error .invalidOperation := by
  simp [checkWrite, hm]

theorem checkWrite_short {n : Nat} {s : State} (hm : s.cmode = .write) (h : s.len < s.pos + n) :
    checkWrite n s = .error .outOfRange := by
  simp [checkWrite, hm, h]

/-! ### One byte -/

theorem peek8_of_checkRead_error {s : State} {e : CursorFail} (h : checkRead 1 s = .error e) :
    peek8 s = .error e := by
  simp [peek8, h]

theorem peek8_of_read {s : State} {v : Byte} (hm : s.cmode = .read) (hl : s.pos + 1 ≤ s.len)
    (hq : s.q.read s.pos = some v) : peek8 s = .ok v := by
  simp [peek8, checkRead_eq_ok.mpr ⟨hm, hl⟩, hq]

theorem read8_of_peek8_error {s : State} {e : CursorFail} (h : peek8 s = .error e) :
    read8 s = .error e := by
  simp [read8, h]

theorem read8_of_peek8 {s : State} {v : Byte} (h : peek8 s = .ok v) :
    read8 s = .ok (v, setPos (s.pos + 1) s) := by
  simp [read8, h]

theorem write8_of_checkWrite_error {s : State} {e : CursorFail} (v : Byte)
    (h : checkWrite 1 s = .error e) : write8 v s = .error e := by
  simp [write8, h]

theorem write8_eq_appendBytes {s : State} (v : Byte) (hm : s.cmode = .write)
    (hl : s.pos + 1 ≤ s.len) : write8 v s = .ok (appendBytes [v] s) := by
  simp only [write8, checkWrite_eq_ok.mpr ⟨hm, hl⟩]
  rfl

/-! ### Words -/

/-- A byte put below a word: the word moves up by eight bits. -/
theorem toNat_append_byte {n : Nat} (x : BitVec n) (b : Byte) :
    (x ++ b).toNat = x.toNat * 2 ^ 8 + b.toNat := by
  rw [BitVec.toNat_append, ← Nat.shiftLeft_add_eq_or_of_lt b.isLt, Nat.shiftLeft_eq]

theorem be32_toNat (b0 b1 b2 b3 : Byte) :
    (be32 b0 b1 b2 b3).toNat =
      b0.toNat * 2 ^ 24 + b1.toNat * 2 ^ 16 + b2.toNat * 2 ^ 8 + b3.toNat := by
  simp only [be32, toNat_append_byte]
  omega

/-- Byte `k` of a word, counted from the least significant, as a number. -/
theorem extractLsb'_byte_toNat (v : Word) (k : Nat) :
    (v.extractLsb' k 8).toNat = v.toNat / 2 ^ k % 256 := by
  rw [BitVec.extractLsb'_toNat, Nat.shiftRight_eq_div_pow]

theorem read32_of_checkRead_error {s : State} {e : CursorFail} (h : checkRead 4 s = .error e) :
    read32 s = .error e := by
  simp [read32, h]

theorem read32_of_readBytes {s : State} {b0 b1 b2 b3 : Byte} (hm : s.cmode = .read)
    (hl : s.pos + 4 ≤ s.len) (hq : s.q.readBytes s.pos 4 = some [b0, b1, b2, b3]) :
    read32 s = .ok (be32 b0 b1 b2 b3, setPos (s.pos + 4) s) := by
  simp [read32, checkRead_eq_ok.mpr ⟨hm, hl⟩, hq]

theorem write32_of_checkWrite_error {s : State} {e : CursorFail} (v : Word)
    (h : checkWrite 4 s = .error e) : write32 v s = .error e := by
  simp [write32, h]

theorem write32_eq_appendBytes {s : State} (v : Word) (hm : s.cmode = .write)
    (hl : s.pos + 4 ≤ s.len) : write32 v s = .ok (appendBytes (bytesBe32 v) s) := by
  simp only [write32, checkWrite_eq_ok.mpr ⟨hm, hl⟩]
  rfl

/-! ### Appended bytes -/

/-- The bytes appended read back from where `POS` stood, and no other byte changes. -/
theorem appendsBytes_appendBytes (bs : List Byte) (s : State) :
    AppendsBytes bs s (appendBytes bs s) :=
  ⟨Memory.readBytes_writeBytes s.q s.pos bs, rfl,
    fun a => Memory.read_writeBytes_outside bs s.q s.pos a⟩

/-! ### An op whose bytes cannot be consumed -/

theorem takesFault_takeFault (e : Err) (s : State) : TakesFault e s (.next (takeFault e s)) :=
  ⟨[], fun hm => by simp [takeFault, hm], fun hm => by simp [takeFault, hm]⟩

theorem consume_of_write {s : State} (n : Nat) (hm : s.cmode = .write) :
    consume n s = .error (.raise (.fatalAssertion .invalidOperation)) := by
  simp [consume, checkRead_write hm, readStop]

/-- Every op consumes its bytes before it does anything else. -/
theorem exec_of_consume_error {i : Instr} {s : State} {x : Stop}
    (h : consume i.length s = .error x) : exec i s = settle s (.error x) := by
  cases i <;> simp only [Instr.length] at h
  case index => simp [exec, execIndex, h]
  case diff => simp [exec, execDiff, produce, h]
  case luma => simp [exec, execLuma, produce, h]
  case run => simp [exec, execRun, h]
  case rgb => simp [exec, execRgb, produce, h]
  case rgba => simp [exec, execRgba, produce, h]

/-! ### The statements -/

/-- Settles O20: the checks come first, and the four bytes put side by side are the word whose
digits to base 256 they are. -/
theorem read32IsBigEndian : Obligations.Read32IsBigEndian := by
  unfold Obligations.Read32IsBigEndian
  intro s
  refine ⟨fun hm => ?_, fun hm hl => ?_, fun b0 b1 b2 b3 hm hl hq => ?_⟩
  · exact read32_of_checkRead_error (checkRead_write hm)
  · exact read32_of_checkRead_error (checkRead_short hm hl)
  · exact ⟨_, read32_of_readBytes hm hl hq, be32_toNat b0 b1 b2 b3⟩

/-- Settles O21: the checks come first, and the bytes appended are the digits of the word to base
256. -/
theorem write32IsBigEndian : Obligations.Write32IsBigEndian := by
  unfold Obligations.Write32IsBigEndian
  intro v s
  refine ⟨fun hm => ?_, fun hm hl => ?_, fun hm hl => ?_⟩
  · exact write32_of_checkWrite_error v (checkWrite_read hm)
  · exact write32_of_checkWrite_error v (checkWrite_short hm hl)
  · refine ⟨_, _, _, _, _, write32_eq_appendBytes v hm hl, appendsBytes_appendBytes _ s, rfl, ?_⟩
    have hv : v.toNat < 2 ^ 32 := v.isLt
    simp only [extractLsb'_byte_toNat, and_true, Nat.pow_zero, Nat.div_one]
    omega

/-- Settles O22: the checks come first, and the one byte is appended. -/
theorem write8StoresAtPos : Obligations.Write8StoresAtPos := by
  unfold Obligations.Write8StoresAtPos
  intro v s
  refine ⟨fun hm => ?_, fun hm hl => ?_, fun hm hl => ?_⟩
  · exact write8_of_checkWrite_error v (checkWrite_read hm)
  · exact write8_of_checkWrite_error v (checkWrite_short hm hl)
  · exact ⟨_, write8_eq_appendBytes v hm hl, appendsBytes_appendBytes [v] s, rfl⟩

/-- Settles O13: every op begins by consuming its bytes, which a write cursor does not allow. -/
theorem opOnWriteCursorIsAFatalAssertion : Obligations.OpOnWriteCursorIsAFatalAssertion := by
  unfold Obligations.OpOnWriteCursorIsAFatalAssertion
  intro i s hm
  rw [exec_of_consume_error (consume_of_write i.length hm), settle_raise]
  exact takesFault_takeFault _ s

/-- Settles O19: `read8` is `peek8` followed by the move of `POS`, so that its condition and its
byte are those of `peek8`. -/
theorem peekAndReadReturnTheSameByte : Obligations.PeekAndReadReturnTheSameByte := by
  unfold Obligations.PeekAndReadReturnTheSameByte
  intro s
  refine ⟨fun hm => ?_, fun hm hl => ?_, fun v hm hl hq => ?_⟩
  · have hpeek := peek8_of_checkRead_error (checkRead_write (n := 1) hm)
    exact ⟨read8_of_peek8_error hpeek, hpeek⟩
  · have hpeek := peek8_of_checkRead_error (checkRead_short hm hl)
    exact ⟨read8_of_peek8_error hpeek, hpeek⟩
  · have hpeek := peek8_of_read hm hl hq
    exact ⟨read8_of_peek8 hpeek, hpeek⟩

/-- Settles O23: `toOutput` reads `POS` bytes of space Q from 0. -/
theorem toOutputGivesTheBytesWritten : Obligations.ToOutputGivesTheBytesWritten := by
  unfold Obligations.ToOutputGivesTheBytesWritten
  intro s bs hm hq
  exact ⟨toOutput_of_readBytes hm hq, Memory.readBytes_length hq⟩

end Sys2Proof.Machine
end

section
/-! PROOFS. What a step of a pass does to the modes, the cursor and the header registers, in any
state (40_bytecursor.md R112, 10_state.md R30, R33). -/

namespace Sys2Proof.Machine

/-! ### What a step of the decode pass can do -/

/-- A body step of decode takes a fault, completes an op, or finds every pixel produced. -/
theorem decBody_eq_next {s t : State} (h : decBody s = .next t) :
    (∃ e, t = takeFault e s) ∨ (∃ n k u, OpCompletes n k s u ∧ t = enterTail u) ∨
      t = setPhase .tail s := by
  unfold decBody at h
  split at h
  · split at h
    · obtain ⟨u, hu, rfl⟩ := afterOp_eq_next h
      rcases exec_eq_next hu with ⟨e, rfl, -⟩ | ⟨n, hc, -, -⟩
      · exact .inl ⟨e, enterTail_of_ne_body (by simp)⟩
      · exact .inr (.inl ⟨n, _, u, hc, rfl⟩)
    · rcases settle_eq_next h with hok | ⟨e, -, rfl⟩
      · simp at hok
      · exact .inl ⟨e, rfl⟩
  · exact .inr (.inr (Host.Outcome.next.inj h).symm)

theorem decTail_of_ok {s t : State} (h : decTail s = .ok t) :
    t = setPhase .done (setPos (s.pos + Config.endSize) s) := by
  obtain ⟨u, hu, h⟩ := bind_eq_ok.mp h
  obtain ⟨-, -, -, rfl⟩ :=
    (matchBytes_eq_ok endBytes (by simp [endBytes])).mp (matchBytes_of_checkEndMarker hu)
  exact (Except.ok.inj h).symm

/-! ### The cursor and the header registers -/

/-- From `s` to `t` both modes, the cursor's length and the header registers are unchanged, and
`POS` has not moved back. -/
structure KeepsCursor (s t : State) : Prop where
  mode : t.mode = s.mode
  cmode : t.cmode = s.cmode
  pos : s.pos ≤ t.pos
  len : t.len = s.len
  pxn : t.pxn = s.pxn
  width : t.width = s.width
  height : t.height = s.height
  channels : t.channels = s.channels
  colorspace : t.colorspace = s.colorspace

theorem KeepsCursor.setPhase {s t : State} (h : KeepsCursor s t) (ph : Phase) :
    KeepsCursor s (setPhase ph t) :=
  { h with }

theorem KeepsCursor.enterTail {s t : State} (h : KeepsCursor s t) :
    KeepsCursor s (enterTail t) := by
  rw [enterTail_eq_setPhase_phase]
  exact h.setPhase _

theorem setPos_keepsCursor {n : Nat} {s : State} (h : s.pos ≤ n) : KeepsCursor s (setPos n s) :=
  ⟨rfl, rfl, h, rfl, rfl, rfl, rfl, rfl, rfl⟩

theorem keepsCursor_refl (s : State) : KeepsCursor s s := setPos_keepsCursor (Nat.le_refl s.pos)

theorem takeFault_keepsCursor (e : Err) (s : State) : KeepsCursor s (takeFault e s) := by
  constructor <;> simp

theorem settle_keepsCursor {s t : State} {r : Except Stop State}
    (hok : ∀ u, r = .ok u → KeepsCursor s u) (h : settle s r = .next t) : KeepsCursor s t := by
  rcases settle_eq_next h with hr | ⟨e, -, rfl⟩
  · exact hok t hr
  · exact takeFault_keepsCursor e s

/-! ### The encode pass -/

theorem EncKeepsTheRest.keepsCursor {s t : State} (h : EncKeepsTheRest s t)
    (hpos : s.pos ≤ t.pos) : KeepsCursor s t := by
  rw [EncKeepsTheRest] at h
  rw [h]
  exact ⟨rfl, rfl, hpos, rfl, rfl, rfl, rfl, rfl, rfl⟩

theorem encPixel_pos_le {s t : State} (h : encPixel s = .ok t) : s.pos ≤ t.pos := by
  obtain ⟨cur, -, h⟩ := bind_eq_ok.mp h
  obtain ⟨u, hu, h⟩ := bind_eq_ok.mp h
  obtain ⟨bs, run, cache, rfl⟩ := emitFor_of_ok hu
  obtain rfl := Except.ok.inj h
  rw [advance, enterTail_eq_setPhase_phase]
  exact Nat.le_add_right s.pos bs.length

theorem encBody_pos_le {s t : State} (h : encBody s = .ok t) : s.pos ≤ t.pos := by
  unfold encBody at h
  split at h
  · exact encPixel_pos_le h
  · obtain rfl := Except.ok.inj h
    exact Nat.le_refl s.pos

theorem encTail_pos_le {s t : State} (h : encTail s = .ok t) : s.pos ≤ t.pos := by
  obtain ⟨u, hu, h⟩ := bind_eq_ok.mp h
  obtain rfl := putBytes_of_ok hu
  obtain rfl := Except.ok.inj h
  exact Nat.le_add_right s.pos _

/-! ### The decode pass -/

theorem OpCompletes.keepsCursor {n k : Nat} {s t : State} (h : OpCompletes n k s t) :
    KeepsCursor s t := by
  obtain ⟨prev, cache, bs, -, -, -, -, rfl⟩ := h
  exact ⟨rfl, rfl, Nat.le_add_right s.pos k, rfl, rfl, rfl, rfl, rfl, rfl⟩

theorem decBody_keepsCursor {s t : State} (h : decBody s = .next t) : KeepsCursor s t := by
  rcases decBody_eq_next h with ⟨e, rfl⟩ | ⟨n, k, u, hc, rfl⟩ | rfl
  · exact takeFault_keepsCursor e s
  · exact hc.keepsCursor.enterTail
  · exact (keepsCursor_refl s).setPhase _

theorem decTail_keepsCursor {s t : State} (h : decTail s = .ok t) : KeepsCursor s t := by
  obtain rfl := decTail_of_ok h
  exact (setPos_keepsCursor (Nat.le_add_right s.pos _)).setPhase _

/-! ### Any step -/

theorem step_body_keepsCursor {s t : State} (hp : s.phase = .body) (h : step s = .next t) :
    KeepsCursor s t := by
  cases hm : s.mode with
  | enc =>
    rw [step_body_enc hp hm] at h
    exact settle_keepsCursor
      (fun _ hu => (encBody_keepsTheRest hu).keepsCursor (encBody_pos_le hu)) h
  | dec =>
    rw [step_body_dec hp hm] at h
    exact decBody_keepsCursor h

theorem step_tail_keepsCursor {s t : State} (hp : s.phase = .tail) (h : step s = .next t) :
    KeepsCursor s t := by
  cases hm : s.mode with
  | enc =>
    rw [step_tail_enc hp hm] at h
    exact settle_keepsCursor
      (fun _ hu => (encTail_keepsTheRest hu).keepsCursor (encTail_pos_le hu)) h
  | dec =>
    rw [step_tail_dec hp hm] at h
    exact settle_keepsCursor (fun _ => decTail_keepsCursor) h

theorem settle_mode {s t : State} {r : Except Stop State}
    (hok : ∀ u, r = .ok u → u.mode = s.mode) (h : settle s r = .next t) : t.mode = s.mode := by
  rcases settle_eq_next h with hr | ⟨e, -, rfl⟩
  · exact hok t hr
  · exact takeFault_mode e s

theorem step_head_mode {s t : State} (hp : s.phase = .head) (h : step s = .next t) :
    t.mode = s.mode := by
  cases hm : s.mode with
  | enc =>
    rw [step_head_enc hp hm] at h
    refine (settle_mode (fun u hu => ?_) h).trans hm
    obtain ⟨-, rfl⟩ := encHead_eq_ok.mp hu
    rfl
  | dec =>
    rw [step_head_dec hp hm] at h
    refine (settle_mode (fun u hu => ?_) h).trans hm
    obtain ⟨_, _, _, _, -, -, -, rfl⟩ := decHead_eq_ok.mp hu
    rfl

/-- Settles O54: `HEAD` opens the cursor anew but keeps `MODE`; in `BODY` and `TAIL` a step takes a
fault, appends bytes in encode, or moves past bytes in decode, and of what is named here writes
`POS` alone. -/
theorem modesAreFixedAndPosOnlyAdvances : Obligations.ModesAreFixedAndPosOnlyAdvances := by
  unfold Obligations.ModesAreFixedAndPosOnlyAdvances
  intro s t h
  have hkeeps : s.phase = .body ∨ s.phase = .tail → KeepsCursor s t := by
    rintro (hp | hp)
    · exact step_body_keepsCursor hp h
    · exact step_tail_keepsCursor hp h
  refine ⟨fun hrun => ?_, fun hp => ?_⟩
  · cases hp : s.phase with
    | head => exact step_head_mode hp h
    | body => exact (hkeeps (.inl hp)).mode
    | tail => exact (hkeeps (.inr hp)).mode
    | idle | done | fault => simp [hp, running] at hrun
  · obtain ⟨-, hcmode, hpos, hlen, hpxn, hw, hh, hch, hcs⟩ := hkeeps hp
    exact ⟨hcmode, hpos, hlen, hpxn, hw, hh, hch, hcs⟩

end Sys2Proof.Machine
end

section
/-! PROOFS. The arithmetic on pixels (41_pixelcolor.md): the hash, and a delta as the inverse of
`addWrap` where alpha is unchanged. -/

namespace Sys2Proof.Machine

theorem hash_val (p : Pixel) : (hash p).val =
    (p.r.toNat * 3 + p.g.toNat * 5 + p.b.toNat * 7 + p.a.toNat * 11) % 64 := rfl

/-- The weights of the hash add up to 26, and 26 * 255 is the bound of its sum. -/
theorem weightedSum_le (r g b a : Byte) :
    r.toNat * 3 + g.toNat * 5 + b.toNat * 7 + a.toNat * 11 ≤ 6630 := by
  have hr := r.isLt
  have hg := g.isLt
  have hb := b.isLt
  have ha := a.isLt
  omega

/-- Settles O24: the slot is the sum modulo 64, and each channel is at most 255. -/
theorem hashIsTheWeightedSum : Obligations.HashIsTheWeightedSum := by
  unfold Obligations.HashIsTheWeightedSum
  exact fun p => ⟨hash_val p, weightedSum_le p.r p.g p.b p.a⟩

/-- The difference of two channels lies in -255..255 (41_pixelcolor.md R134). -/
theorem channel_sub_bounds (x y : Byte) :
    -255 ≤ (x.toNat : Int) - y.toNat ∧ (x.toNat : Int) - y.toNat ≤ 255 := by
  have hx := x.isLt
  have hy := y.isLt
  omega

/-- A channel plus the difference that leads to another is that other: the sum lies in 0..255, so
that it does not wrap (41_pixelcolor.md R137). -/
theorem addChannel_sub (x y : Byte) : addChannel y ((x.toNat : Int) - y.toNat) = x := by
  have hsum : (y.toNat : Int) + (x.toNat - y.toNat) = x.toNat := by omega
  rw [addChannel, hsum, BitVec.ofInt_natCast, BitVec.ofNat_toNat, BitVec.setWidth_eq]

theorem delta_bounds {cur prev : Pixel} {x : Int}
    (h : x = (delta cur prev).dr ∨ x = (delta cur prev).dg ∨ x = (delta cur prev).db ∨
      x = (delta cur prev).da) : -255 ≤ x ∧ x ≤ 255 := by
  rcases h with rfl | rfl | rfl | rfl
  · exact channel_sub_bounds cur.r prev.r
  · exact channel_sub_bounds cur.g prev.g
  · exact channel_sub_bounds cur.b prev.b
  · exact channel_sub_bounds cur.a prev.a

/-- What `addWrap` gives back, whatever the alphas: the colour of the current pixel, on the alpha of
the previous one. -/
theorem addWrap_delta (cur prev : Pixel) :
    addWrap prev (delta cur prev).dr (delta cur prev).dg (delta cur prev).db =
      ⟨cur.r, cur.g, cur.b, prev.a⟩ := by
  simp only [addWrap, delta, addChannel_sub]

/-- Settles O25: each component is a difference of two bytes, and adding it back gives the current
pixel's colour on the previous alpha. -/
theorem addingTheDeltaGivesThePixelBack : Obligations.AddingTheDeltaGivesThePixelBack := by
  unfold Obligations.AddingTheDeltaGivesThePixelBack
  intro cur prev
  refine ⟨fun _ hx => delta_bounds hx, delta_da_eq_zero.symm, fun ha => ?_⟩
  rw [addWrap_delta, ← ha]

end Sys2Proof.Machine
end

section
/-! PROOFS. The container (42_container.md): what the bytes at the cursor make of the header and of the
end marker, in stream order, and the end marker that encode appends. -/

namespace Sys2Proof.Machine

/-! ### The bytes at a read cursor -/

/-- The next `n` bytes at a read cursor, or as many as the buffer has left, are `bs`. -/
def NextBytes (n : Nat) (bs : List Byte) (s : State) : Prop :=
  s.cmode = .read ∧ s.q.readBytes s.pos (min n (s.len - s.pos)) = some bs

/-- The byte at index `k` of a list. -/
def byteAt (bs : List Byte) (k : Nat) : Byte := bs.getD k 0

/-- The word whose four bytes begin at index `k` of a list, most significant first. -/
def wordAt (bs : List Byte) (k : Nat) : Word :=
  be32 (byteAt bs k) (byteAt bs (k + 1)) (byteAt bs (k + 2)) (byteAt bs (k + 3))

/-- How a step ends that reads past the end of its input (60_exceptions.md R213). -/
def truncatedStop : Stop := .raise (.formatError .truncated)

theorem get8_short {s : State} (hm : s.cmode = .read) (h : s.len < s.pos + 1) :
    get8 s = .error truncatedStop := by
  rw [get8, read8_of_peek8_error (peek8_of_checkRead_error (checkRead_short hm h))]
  rfl

theorem get32_short {s : State} (hm : s.cmode = .read) (h : s.len < s.pos + 4) :
    get32 s = .error truncatedStop := by
  rw [get32, read32_of_checkRead_error (checkRead_short hm h)]
  rfl

theorem getElem_eq_byteAt {bs : List Byte} {k : Nat} (hk : k < bs.length) :
    bs[k] = byteAt bs k :=
  (List.getD_eq_getElem bs 0 hk).symm

section
variable {n k : Nat} {bs : List Byte} {s : State}

theorem NextBytes.length_eq (h : NextBytes n bs s) : bs.length = min n (s.len - s.pos) :=
  Memory.readBytes_length h.2

theorem NextBytes.read (h : NextBytes n bs s) (hk : k < bs.length) :
    s.q.read (s.pos + k) = some (byteAt bs k) := by
  obtain ⟨-, hread⟩ := (Memory.readBytes_eq_some _ _ _ _).mp h.2
  rw [hread k hk, getElem_eq_byteAt]

theorem NextBytes.get8 (h : NextBytes n bs s) (hk : k + 1 ≤ n) :
    get8 (setPos (s.pos + k) s) =
      if bs.length < k + 1 then .error truncatedStop
      else .ok (byteAt bs k, setPos (s.pos + (k + 1)) s) := by
  have hl := h.length_eq
  split_ifs with hs
  · exact get8_short h.1 (by simp only [setPos_len, setPos_pos]; omega)
  · exact get8_eq_ok.mpr ⟨h.1, by simp only [setPos_len, setPos_pos]; omega,
      h.read (by omega), rfl⟩

theorem NextBytes.get32 (h : NextBytes n bs s) (hk : k + 4 ≤ n) :
    get32 (setPos (s.pos + k) s) =
      if bs.length < k + 4 then .error truncatedStop
      else .ok (wordAt bs k, setPos (s.pos + (k + 4)) s) := by
  have hl := h.length_eq
  split_ifs with hs
  · exact get32_short h.1 (by simp only [setPos_len, setPos_pos]; omega)
  · have hread : s.q.readBytes (s.pos + k) 4 =
        some [byteAt bs k, byteAt bs (k + 1), byteAt bs (k + 2), byteAt bs (k + 3)] := by
      simp [Memory.readBytes, Nat.add_assoc, h.read (k := k) (by omega),
        h.read (k := k + 1) (by omega), h.read (k := k + 2) (by omega),
        h.read (k := k + 3) (by omega)]
    exact get32_eq_ok.mpr ⟨h.1, by simp only [setPos_len, setPos_pos]; omega,
      ⟨_, _, _, _, hread, rfl⟩, rfl⟩

theorem NextBytes.tail {b : Byte} (h : NextBytes (n + 1) (b :: bs) s) :
    NextBytes n bs (setPos (s.pos + 1) s) := by
  have hl := h.length_eq
  rw [List.length_cons] at hl
  obtain ⟨-, hread⟩ := (Memory.readBytes_eq_some _ _ _ _).mp h.2
  refine ⟨h.1, (Memory.readBytes_eq_some _ _ _ _).mpr ⟨?_, fun j hj => ?_⟩⟩
  · simp only [setPos_len, setPos_pos]
    omega
  · have hj' := hread (j + 1) (Nat.succ_lt_succ hj)
    simpa [Nat.add_assoc, Nat.add_comm 1 j] using hj'

end

/-! ### The fields of the header -/

/-- A word field of the header: it is read, then checked, then `rest` follows
(42_container.md R147). -/
def wordField (ok : Word → Bool) (c : FormatCause) (rest : Word → State → Except Stop State)
    (s : State) : Except Stop State := do
  let (w, s) ← get32 s
  demand (ok w) c
  rest w s

/-- A byte field of the header, likewise. -/
def byteField (ok : Byte → Bool) (c : FormatCause) (rest : Byte → State → Except Stop State)
    (s : State) : Except Stop State := do
  let (b, s) ← get8 s
  demand (ok b) c
  rest b s

/-- What follows the fields: the limit, then the header registers. -/
def finishHeader (w h : Word) (ch cs : Byte) (s : State) : Except Stop State := do
  checkLimit s.impl (pixelCount w h)
  return loadHeader w h ch cs s

theorem readHeader_eq_fields (s : State) :
    readHeader s =
      wordField (· == Config.magic) .magic (fun _ => wordField (· != 0) .width fun w =>
        wordField (· != 0) .height fun h => byteField legalChannels .channels fun ch =>
        byteField legalColorspace .colorspace fun cs => finishHeader w h ch cs) s := rfl

theorem demand_bind (ok : Bool) (c : FormatCause) (r : Except Stop State) :
    (demand ok c >>= fun _ => r) =
      if ok = false then .error (.raise (.formatError c)) else r := by
  cases ok <;> rfl

/-- What a word field makes of the bytes, where `P` says that the word fails its check. -/
theorem NextBytes.wordField {n k : Nat} {bs : List Byte} {s : State} {ok : Word → Bool} {P : Prop}
    [Decidable P] (h : NextBytes n bs s) (hk : k + 4 ≤ n)
    (hP : k + 4 ≤ bs.length → (ok (wordAt bs k) = false ↔ P)) (c : FormatCause)
    (rest : Word → State → Except Stop State) :
    wordField ok c rest (setPos (s.pos + k) s) =
      if bs.length < k + 4 then .error truncatedStop
      else if P then .error (.raise (.formatError c))
      else rest (wordAt bs k) (setPos (s.pos + (k + 4)) s) := by
  rw [Machine.wordField, h.get32 hk]
  split_ifs with hs hbad
  · rfl
  · exact (demand_bind _ _ _).trans (if_pos ((hP (by omega)).mpr hbad))
  · exact (demand_bind _ _ _).trans (if_neg (mt (hP (by omega)).mp hbad))

/-- What a byte field makes of the bytes, likewise. -/
theorem NextBytes.byteField {n k : Nat} {bs : List Byte} {s : State} {ok : Byte → Bool} {P : Prop}
    [Decidable P] (h : NextBytes n bs s) (hk : k + 1 ≤ n)
    (hP : k + 1 ≤ bs.length → (ok (byteAt bs k) = false ↔ P)) (c : FormatCause)
    (rest : Byte → State → Except Stop State) :
    byteField ok c rest (setPos (s.pos + k) s) =
      if bs.length < k + 1 then .error truncatedStop
      else if P then .error (.raise (.formatError c))
      else rest (byteAt bs k) (setPos (s.pos + (k + 1)) s) := by
  rw [Machine.byteField, h.get8 hk]
  split_ifs with hs hbad
  · rfl
  · exact (demand_bind _ _ _).trans (if_pos ((hP (by omega)).mpr hbad))
  · exact (demand_bind _ _ _).trans (if_neg (mt (hP (by omega)).mp hbad))

/-! ### The checks of the fields, on the bytes -/

theorem wordAt_bytesBe32 (v : Word) : wordAt (bytesBe32 v) 0 = v := by
  obtain ⟨b0, b1, b2, b3, hb, rfl⟩ := exists_bytesBe32_eq v
  rw [hb]
  rfl

theorem bytesBe32_injective : Function.Injective bytesBe32 :=
  Function.LeftInverse.injective (g := fun bs => wordAt bs 0) wordAt_bytesBe32

section
variable {bs : List Byte} {k : Nat}

theorem wordAt_eq_iff (hk : k + 4 ≤ bs.length) (v : Word) :
    wordAt bs k = v ↔ (bs.drop k).take 4 = bytesBe32 v := by
  have hbytes : (bs.drop k).take 4 = bytesBe32 (wordAt bs k) := by
    rw [wordAt, bytesBe32_be32]
    refine List.ext_getElem (by simp; omega) fun i _ hi => ?_
    rw [List.getElem_take, List.getElem_drop, getElem_eq_byteAt]
    match i, hi with
    | 0, _ | 1, _ | 2, _ | 3, _ => rfl
  rw [hbytes, bytesBe32_injective.eq_iff]

theorem byteAt_eq_iff (hk : k + 1 ≤ bs.length) (v : Byte) :
    byteAt bs k = v ↔ bs[k]? = some v := by
  rw [List.getElem?_eq_getElem hk, getElem_eq_byteAt hk, Option.some.injEq]

theorem wordAt_beq_eq_false (v : Word) (hk : k + 4 ≤ bs.length) :
    (wordAt bs k == v) = false ↔ (bs.drop k).take 4 ≠ bytesBe32 v := by
  rw [beq_eq_false_iff_ne, Ne, wordAt_eq_iff hk]

theorem wordAt_bne_eq_false (v : Word) (hk : k + 4 ≤ bs.length) :
    (wordAt bs k != v) = false ↔ (bs.drop k).take 4 = bytesBe32 v := by
  rw [bne_eq_false_iff_eq, wordAt_eq_iff hk]

theorem legalChannels_byteAt_eq_false (hk : k + 1 ≤ bs.length) :
    legalChannels (byteAt bs k) = false ↔ bs[k]? ≠ some 3 ∧ bs[k]? ≠ some 4 := by
  simp [legalChannels, byteAt_eq_iff hk]

theorem legalColorspace_byteAt_eq_false (hk : k + 1 ≤ bs.length) :
    legalColorspace (byteAt bs k) = false ↔ bs[k]? ≠ some 0 ∧ bs[k]? ≠ some 1 := by
  simp [legalColorspace, byteAt_eq_iff hk]

end

/-! ### The header -/

/-- The header as the chain of its defects in stream order, the shortage of a field before its value
(42_container.md R147). -/
theorem readHeader_of_nextBytes {bs : List Byte} {s : State} (h : NextBytes 14 bs s) :
    readHeader s =
      if bs.length < 4 then .error truncatedStop
      else if bs.take 4 ≠ [0x71, 0x6F, 0x69, 0x66] then .error (.raise (.formatError .magic))
      else if bs.length < 8 then .error truncatedStop
      else if (bs.drop 4).take 4 = [0, 0, 0, 0] then .error (.raise (.formatError .width))
      else if bs.length < 12 then .error truncatedStop
      else if (bs.drop 8).take 4 = [0, 0, 0, 0] then .error (.raise (.formatError .height))
      else if bs.length < 13 then .error truncatedStop
      else if bs[12]? ≠ some 3 ∧ bs[12]? ≠ some 4 then .error (.raise (.formatError .channels))
      else if bs.length < 14 then .error truncatedStop
      else if bs[13]? ≠ some 0 ∧ bs[13]? ≠ some 1 then .error (.raise (.formatError .colorspace))
      else finishHeader (wordAt bs 4) (wordAt bs 8) (byteAt bs 12) (byteAt bs 13)
        (setPos (s.pos + 14) s) := by
  rw [readHeader_eq_fields]
  refine (h.wordField (k := 0) (ok := (· == Config.magic)) (by omega)
    (wordAt_beq_eq_false _) _ _).trans ?_
  simp only [h.wordField (k := 4) (ok := (· != 0)) (by omega) (wordAt_bne_eq_false _),
    h.wordField (k := 8) (ok := (· != 0)) (by omega) (wordAt_bne_eq_false _),
    h.byteField (k := 12) (by omega) legalChannels_byteAt_eq_false,
    h.byteField (k := 13) (by omega) legalColorspace_byteAt_eq_false, Nat.reduceAdd]
  rfl

/-- With all fourteen bytes there, only the values of the fields decide. -/
theorem readHeader_of_words {m w h : Word} {ch cs : Byte} {s : State}
    (hnext : NextBytes 14 (bytesBe32 m ++ bytesBe32 w ++ bytesBe32 h ++ [ch, cs]) s) :
    readHeader s =
      if m ≠ 0x716F6966#32 then .error (.raise (.formatError .magic))
      else if w = 0 then .error (.raise (.formatError .width))
      else if h = 0 then .error (.raise (.formatError .height))
      else if ch ≠ 3 ∧ ch ≠ 4 then .error (.raise (.formatError .channels))
      else if cs ≠ 0 ∧ cs ≠ 1 then .error (.raise (.formatError .colorspace))
      else finishHeader w h ch cs (setPos (s.pos + 14) s) := by
  rw [readHeader_of_nextBytes hnext]
  generalize hbs : bytesBe32 m ++ bytesBe32 w ++ bytesBe32 h ++ [ch, cs] = bs
  have hlen : bs.length = 14 := hbs ▸ rfl
  have hm : bs.take 4 = [0x71, 0x6F, 0x69, 0x66] ↔ m = 0x716F6966#32 :=
    hbs ▸ bytesBe32_injective.eq_iff (a := m) (b := 0x716F6966#32)
  have hw : (bs.drop 4).take 4 = [0, 0, 0, 0] ↔ w = 0 :=
    hbs ▸ bytesBe32_injective.eq_iff (a := w) (b := 0)
  have hh : (bs.drop 8).take 4 = [0, 0, 0, 0] ↔ h = 0 :=
    hbs ▸ bytesBe32_injective.eq_iff (a := h) (b := 0)
  have h4 : wordAt bs 4 = w := hbs ▸ wordAt_bytesBe32 w
  have h8 : wordAt bs 8 = h := hbs ▸ wordAt_bytesBe32 h
  have h12 : bs[12]? = some ch := hbs ▸ rfl
  have h13 : bs[13]? = some cs := hbs ▸ rfl
  have hch : byteAt bs 12 = ch := hbs ▸ rfl
  have hcs : byteAt bs 13 = cs := hbs ▸ rfl
  simp only [hlen, hm, hw, hh, h4, h8, h12, h13, hch, hcs, Nat.reduceLT, if_false, Ne,
    Option.some.injEq]

theorem finishHeader_of_over {w h : Word} {s : State} (ch cs : Byte)
    (hover : ∃ k, s.impl.maxPixels = some k ∧ k < w.toNat * h.toNat) :
    finishHeader w h ch cs s = .error (.refuse .overMaxPixels) := by
  obtain ⟨k, hk, hlt⟩ := hover
  simp [finishHeader, checkLimit, hk, pixelCount, hlt]

theorem finishHeader_of_within {w h : Word} {s : State} (ch cs : Byte)
    (hwithin : ¬ ∃ k, s.impl.maxPixels = some k ∧ k < w.toNat * h.toNat) :
    finishHeader w h ch cs s = .ok (loadHeader w h ch cs s) := by
  have hlimit : checkLimit s.impl (pixelCount w h) = .ok () :=
    checkLimit_eq_ok.mpr fun k hk => Nat.le_of_not_lt fun hlt => hwithin ⟨k, hk, hlt⟩
  rw [finishHeader, hlimit, ok_bind, pure_ok]

/-! ### `HEAD` of decode -/

section
variable {s : State} (hp : s.phase = .head) (hm : s.mode = .dec)
include hp hm

theorem step_of_readHeader_error {x : Stop} (h : readHeader (openRead s.args.qlen s) = .error x) :
    step s = settle s (.error x) := by
  rw [step_head_dec hp hm, decHead, h, error_bind]

theorem takesFault_of_readHeader {e : Err}
    (h : readHeader (openRead s.args.qlen s) = .error (.raise e)) : TakesFault e s (step s) := by
  rw [step_of_readHeader_error hp hm h]
  exact takesFault_takeFault e s

theorem step_of_readHeader_ok {t : State} (h : readHeader (openRead s.args.qlen s) = .ok t) :
    step s = .next (setPhase .body (initWork (setP [] t))) := by
  rw [step_head_dec hp hm, decHead, h, ok_bind, pure_ok, settle_ok]

end

theorem nextBytes_openRead {n : Nat} {bs : List Byte} {s : State}
    (h : s.q.readBytes 0 (min n s.args.qlen) = some bs) :
    NextBytes n bs (openRead s.args.qlen s) :=
  ⟨rfl, h⟩

/-- Settles O28: with the fourteen bytes there the header is the chain of its checks, in which the
first that fails is the fault of the step, and the limit comes last. -/
theorem decodeHeaderChecksInOrder : Obligations.DecodeHeaderChecksInOrder := by
  unfold Obligations.DecodeHeaderChecksInOrder
  intro s m w h ch cs hp hm hlen hq
  have hread := readHeader_of_words
    (nextBytes_openRead (n := 14) (by rwa [Nat.min_eq_left hlen]))
  split_ifs at hread ⊢ with hmagic hw hh hch hcs hover
  iterate 5 exact takesFault_of_readHeader hp hm hread
  · exact step_of_readHeader_error hp hm (hread.trans (finishHeader_of_over ch cs hover))
  · exact step_of_readHeader_ok hp hm (hread.trans (finishHeader_of_within ch cs hover))

/-- Settles O29: the header is the chain of its defects, and with fewer than fourteen bytes the chain
ends at the shortage of the colorspace. -/
theorem shortHeaderFaultsInOrder : Obligations.ShortHeaderFaultsInOrder := by
  unfold Obligations.ShortHeaderFaultsInOrder
  intro s bs hp hm hlen hshort hq
  have hread := readHeader_of_nextBytes (nextBytes_openRead (n := 14) (s := s) (bs := bs)
    (by rwa [Nat.min_eq_right (by omega)]))
  rw [if_pos hshort] at hread
  split_ifs at hread ⊢ <;> exact takesFault_of_readHeader hp hm hread

/-! ### `TAIL` of decode -/

/-- The end marker as the chain of its defects: a byte that differs, among those that are there, comes
before a shortage (42_container.md R149). -/
theorem matchBytes_of_nextBytes (vs : List Byte) :
    ∀ {n : Nat} {bs : List Byte} {s : State}, NextBytes n bs s → vs.length ≤ n →
      matchBytes vs s =
        if bs.take vs.length ≠ vs.take bs.length then .error (.raise (.formatError .endmarker))
        else if bs.length < vs.length then .error truncatedStop
        else .ok (setPos (s.pos + vs.length) s) := by
  induction vs with
  | nil =>
    intro n bs s _ _
    rw [if_neg (by simp), if_neg (by simp)]
    rfl
  | cons v vs ih =>
    intro n bs s h hn
    rw [List.length_cons] at hn
    have hget : get8 s = _ := h.get8 (k := 0) (by omega)
    rw [matchBytes, hget]
    cases bs with
    | nil => simp
    | cons b bs =>
      obtain ⟨n, rfl⟩ : ∃ j, n = j + 1 := ⟨n - 1, by omega⟩
      have hrest := ih h.tail (by omega)
      by_cases hb : b = v
      · subst hb
        simp [byteAt, hrest, setPos_setPos, Nat.add_assoc, Nat.add_comm 1 vs.length]
      · simp [byteAt, hb]

section
variable {s : State} (hp : s.phase = .tail) (hm : s.mode = .dec)
include hp hm

theorem takesFault_of_checkEndMarker {e : Err} (h : checkEndMarker s = .error (.raise e)) :
    TakesFault e s (step s) := by
  rw [step_tail_dec hp hm, decTail, h]
  exact takesFault_takeFault e s

theorem step_of_checkEndMarker_ok {t : State} (h : checkEndMarker s = .ok t) :
    step s = .next (setPhase .done t) := by
  rw [step_tail_dec hp hm, decTail, h, ok_bind, pure_ok, settle_ok]

end

/-- The verification of the end marker as the chain of its defects, `TRAILING` the last. -/
theorem checkEndMarker_of_nextBytes {n : Nat} {bs : List Byte} {s : State}
    (h : NextBytes n bs s) (hlen : bs.length = s.len - s.pos) (hn : 8 ≤ n) :
    checkEndMarker s =
      if bs.take 8 ≠ [0, 0, 0, 0, 0, 0, 0, 1].take bs.length then
        .error (.raise (.formatError .endmarker))
      else if bs.length < 8 then .error truncatedStop
      else if bs.length ≠ 8 ∧ s.impl.trailingBytes = .fault then
        .error (.raise (.formatError .trailing))
      else .ok (setPos (s.pos + 8) s) := by
  have hmatch : matchBytes endBytes s =
      if bs.take 8 ≠ [0, 0, 0, 0, 0, 0, 0, 1].take bs.length then
        .error (.raise (.formatError .endmarker))
      else if bs.length < 8 then .error truncatedStop
      else .ok (setPos (s.pos + 8) s) := matchBytes_of_nextBytes endBytes h hn
  rw [checkEndMarker, hmatch]
  by_cases hbyte : bs.take 8 ≠ [0, 0, 0, 0, 0, 0, 0, 1].take bs.length
  · rw [if_pos hbyte, if_pos hbyte]
  · rw [if_neg hbyte, if_neg hbyte]
    by_cases hshort : bs.length < 8
    · rw [if_pos hshort, if_pos hshort]
    · have hend : s.pos + 8 ≠ s.len ↔ bs.length ≠ 8 := by omega
      rw [if_neg hshort, if_neg hshort]
      simp only [setPos_pos, setPos_len, setPos_impl, hend]

/-- Settles O30: the marker is matched or stops at its first defect; once it is matched, `POS` is at
the end of the buffer exactly where eight bytes were left. -/
theorem endMarkerIsVerified : Obligations.EndMarkerIsVerified := by
  unfold Obligations.EndMarkerIsVerified
  intro s bs hp hm hc hl hq
  have hlen := Memory.readBytes_length hq
  have hnext : NextBytes (s.len - s.pos + 8) bs s := ⟨hc, by rwa [Nat.min_eq_right (by omega)]⟩
  have hcheck := checkEndMarker_of_nextBytes hnext hlen (by omega)
  split_ifs at hcheck ⊢
  iterate 3 exact takesFault_of_checkEndMarker hp hm hcheck
  exact step_of_checkEndMarker_ok hp hm hcheck

/-! ### `TAIL` of encode -/

/-- Settles O38: eight bytes of room hold the end marker, which is appended whole. -/
theorem encodeTailAppendsEndMarker : Obligations.EncodeTailAppendsEndMarker := by
  unfold Obligations.EncodeTailAppendsEndMarker
  intro s hp hm hc hl
  have hstep : step s = .next (setPhase .done (appendBytes endBytes s)) := by
    rw [step_tail_enc hp hm, encTail_ok hc hl, settle_ok]
  exact ⟨_, hstep, appendsBytes_appendBytes endBytes s, rfl⟩

end Sys2Proof.Machine
end

section
/-! PROOFS. What one step of an encode pass does (43_encode.md R151 to R155, R164, R167): the pixel
fetched in `BODY` and what consuming it changes, the checks of `HEAD`, and the run. -/

namespace Sys2Proof.Machine

/-! ### The pixel fetched -/

theorem pixelByte_of_readBytes {s : State} {a n k : Nat} {bs : List Byte}
    (h : s.p.readBytes a n = some bs) (hk : k < bs.length) :
    pixelByte s (a + k) = .ok bs[k] := by
  obtain ⟨-, hread⟩ := (Memory.readBytes_eq_some _ _ _ _).mp h
  rw [pixelByte, hread k hk]

theorem fetchPixel_of_four {s : State} {r g b a : Byte} (h4 : s.channels = 4)
    (h : s.p.readBytes (s.pxi * 4) 4 = some [r, g, b, a]) : fetchPixel s = .ok ⟨r, g, b, a⟩ := by
  have hr : pixelByte s (s.pxi * 4) = .ok r := pixelByte_of_readBytes h (k := 0) (by simp)
  have hg : pixelByte s (s.pxi * 4 + 1) = .ok g := pixelByte_of_readBytes h (k := 1) (by simp)
  have hb : pixelByte s (s.pxi * 4 + 2) = .ok b := pixelByte_of_readBytes h (k := 2) (by simp)
  have ha : pixelByte s (s.pxi * 4 + 3) = .ok a := pixelByte_of_readBytes h (k := 3) (by simp)
  simp [fetchPixel, h4, hr, hg, hb, ha]

theorem fetchPixel_of_three {s : State} {r g b : Byte} (h3 : s.channels = 3)
    (h : s.p.readBytes (s.pxi * 3) 3 = some [r, g, b]) :
    fetchPixel s = .ok ⟨r, g, b, s.prev.a⟩ := by
  have hr : pixelByte s (s.pxi * 3) = .ok r := pixelByte_of_readBytes h (k := 0) (by simp)
  have hg : pixelByte s (s.pxi * 3 + 1) = .ok g := pixelByte_of_readBytes h (k := 1) (by simp)
  have hb : pixelByte s (s.pxi * 3 + 2) = .ok b := pixelByte_of_readBytes h (k := 2) (by simp)
  simp [fetchPixel, h3, hr, hg, hb]

/-- Settles O32: each layout reads its bytes in order, and the alpha of a three-channel pass is a part
of the invariant. -/
theorem pixelFetch : Obligations.PixelFetch := by
  unfold Obligations.PixelFetch
  intro s r g b a
  refine ⟨fetchPixel_of_four, fetchPixel_of_three, fun hs hp hm h3 => ?_⟩
  obtain ⟨-, henc⟩ := encInv_of_engineInv (loaded_body hp) hm hs
  exact henc.alpha hp h3

/-- A part of a readable buffer is readable. -/
theorem exists_readBytes_of_isSome {m : Memory} {n a k : Nat}
    (h : (m.readBytes 0 n).isSome = true) (hk : a + k ≤ n) :
    ∃ bs, m.readBytes a k = some bs := by
  refine Option.isSome_iff_exists.mp ((Memory.readBytes_isSome _ _ _).mpr fun j hj => ?_)
  have hall := (Memory.readBytes_isSome _ _ _).mp h (a + j) (by omega)
  rwa [Nat.zero_add] at hall

/-- While a pixel is owed, its bytes lie inside the input. -/
theorem exists_fetchPixel {s : State} (hl : LoadedInv s) (henc : EncInv s)
    (howed : s.pxi < s.pxn) : ∃ cur, fetchPixel s = .ok cur := by
  have hin : s.pxi * s.channels.toNat + s.channels.toNat ≤ s.pxn * s.channels.toNat := by
    rw [← Nat.succ_mul]
    exact Nat.mul_le_mul_right _ howed
  obtain ⟨bs, hbs⟩ := exists_readBytes_of_isSome henc.input hin
  have hlen := Memory.readBytes_length hbs
  rcases hl.channels_eq with h3 | h4
  · rw [h3] at hbs hlen
    match bs, hlen with
    | [r, g, b], _ => exact ⟨_, fetchPixel_of_three h3 hbs⟩
  · rw [h4] at hbs hlen
    match bs, hlen with
    | [r, g, b, a], _ => exact ⟨_, fetchPixel_of_four h4 hbs⟩

/-! ### A body step -/

/-- From `s` to `t` the pixel `cur` was encoded as the bytes `bs`, and `RUN` and the cache became
`run` and `cache`. -/
structure EncodesPixel (cur : Pixel) (bs : List Byte) (run : BitVec 6) (cache : Vector Pixel 64)
    (s t : State) : Prop where
  consumes : ConsumesPixel cur s t
  rest : EncKeepsTheRest s t
  pos_eq : t.pos = s.pos + bs.length
  q_eq : t.q = s.q.writeBytes s.pos bs
  run_eq : t.run = run
  cache_eq : t.cache = cache

section
variable {cur : Pixel} {bs : List Byte} {run : BitVec 6} {cache : Vector Pixel 64} {s : State}

theorem advance_encodesPixel (hp : s.phase = .body) :
    EncodesPixel cur bs run cache s
      (advance cur (appendBytes bs { s with run := run, cache := cache })) := by
  have hb : (appendBytes bs { s with run := run, cache := cache }).phase = .body := hp
  rw [advance_eq hb]
  exact ⟨⟨rfl, rfl, rfl⟩, rfl, rfl, rfl, rfl, rfl⟩

theorem EncodesPixel.appends {t : State} (h : EncodesPixel cur bs run cache s t) :
    AppendsBytes bs s t := by
  rw [AppendsBytes, h.q_eq, h.pos_eq]
  exact appendsBytes_appendBytes bs s

theorem step_body_of_emitFor (hp : s.phase = .body) (hm : s.mode = .enc) (howed : s.pxi < s.pxn)
    (hcur : fetchPixel s = .ok cur)
    (hemit : emitFor cur s = .ok (appendBytes bs { s with run := run, cache := cache })) :
    ∃ t, step s = .next t ∧ EncodesPixel cur bs run cache s t := by
  refine ⟨_, ?_, advance_encodesPixel hp⟩
  rw [step_body_enc hp hm, encBody_eq_encPixel howed, encPixel, hcur, ok_bind, hemit, ok_bind,
    pure_ok, settle_ok]

end

theorem ConsumesPixel.phase_ne_fault {cur : Pixel} {s t : State} (h : ConsumesPixel cur s t) :
    t.phase ≠ .fault := by
  obtain ⟨-, -, hphase⟩ := h
  rw [hphase]
  split <;> simp

/-- Settles O49: in `BODY` the pixel owed lies inside the input and the invariant keeps room for its
worst case, in `TAIL` it keeps room for the end marker, so that no write fails. -/
theorem encodeCannotFaultPastItsChecks : Obligations.EncodeCannotFaultPastItsChecks := by
  unfold Obligations.EncodeCannotFaultPastItsChecks
  rintro s hs hm (hp | hp)
  · obtain ⟨hl, henc⟩ := encInv_of_engineInv (loaded_body hp) hm hs
    have howed := hl.count.1 hp
    obtain ⟨cur, hcur⟩ := exists_fetchPixel hl henc howed
    obtain ⟨bs, run, cache, hemit, -⟩ := emitFor_keeps_room hl henc hp hm hcur
    obtain ⟨t, hstep, hpixel⟩ := step_body_of_emitFor hp hm howed hcur hemit
    exact ⟨t, hstep, hpixel.consumes.phase_ne_fault⟩
  · obtain ⟨hl, henc⟩ := encInv_of_engineInv (loaded_tail hp) hm hs
    refine ⟨setPhase .done (appendBytes endBytes s), ?_, by simp⟩
    rw [step_tail_enc hp hm, encTail_ok (hl.cmode_write hm) (henc.tailRoom hp), settle_ok]

/-! ### `HEAD` of encode -/

theorem require_eq_ite (ok : Bool) (c : ArgCause) :
    Machine.require ok c = if ok = false then .error (.raise (.invalidArgument c)) else .ok () := by
  cases ok <;> rfl

theorem checkLimit_eq_ite (impl : Impl) (n : Nat) :
    checkLimit impl n =
      if ∃ k, impl.maxPixels = some k ∧ k < n then .error (.refuse .overMaxPixels) else .ok () := by
  cases h : impl.maxPixels <;> simp [checkLimit, h]

theorem ite_error_bind {P : Prop} [Decidable P] (x : Stop) (f : Unit → Except Stop Unit) :
    ((if P then .error x else .ok () : Except Stop Unit) >>= f) =
      if P then .error x else f () := by
  split <;> rfl

/-- The checks of the operands as the chain of what they refuse (43_encode.md R151). -/
theorem checkArgs_eq_chain (impl : Impl) (a : Args) :
    checkArgs impl a =
      if a.width = 0 then .error (.raise (.invalidArgument .width))
      else if a.height = 0 then .error (.raise (.invalidArgument .height))
      else if a.channels ≠ 3 ∧ a.channels ≠ 4 then .error (.raise (.invalidArgument .channels))
      else if a.colorspace ≠ 0 ∧ a.colorspace ≠ 1 then
        .error (.raise (.invalidArgument .colorspace))
      else if ∃ k, impl.maxPixels = some k ∧ k < a.width.toNat * a.height.toNat then
        .error (.refuse .overMaxPixels)
      else if a.plen < a.width.toNat * a.height.toNat * a.channels.toNat then
        .error (.raise (.invalidArgument .pixbufShort))
      else .ok () := by
  have hch : legalChannels a.channels = false ↔ a.channels ≠ 3 ∧ a.channels ≠ 4 := by
    simp [legalChannels]
  have hcs : legalColorspace a.colorspace = false ↔ a.colorspace ≠ 0 ∧ a.colorspace ≠ 1 := by
    simp [legalColorspace]
  simp only [checkArgs, require_eq_ite, checkLimit_eq_ite, ite_error_bind, bne_eq_false_iff_eq,
    hch, hcs, decide_eq_false_iff_not, Nat.not_le]
  rfl

section
variable {s : State} (hp : s.phase = .head) (hm : s.mode = .enc)
include hp hm

theorem step_of_checkArgs_error {x : Stop} (h : checkArgs s.impl s.args = .error x) :
    step s = settle s (.error x) := by
  rw [step_head_enc hp hm, encHead, h, error_bind]

theorem takesFault_of_checkArgs {e : Err} (h : checkArgs s.impl s.args = .error (.raise e)) :
    TakesFault e s (step s) := by
  rw [step_of_checkArgs_error hp hm h]
  exact takesFault_takeFault e s

theorem step_of_checkArgs_ok (h : checkArgs s.impl s.args = .ok ()) :
    step s = .next (encStart s) := by
  rw [step_head_enc hp hm, encHead_of_checkArgs h, settle_ok]

end

/-- Settles O31: the operands are the chain of their checks, in which the first that fails decides, and
operands that pass it end in `encStart`. -/
theorem encodeArgumentsCheckedInOrder : Obligations.EncodeArgumentsCheckedInOrder := by
  unfold Obligations.EncodeArgumentsCheckedInOrder
  intro s hp hm
  have hargs := checkArgs_eq_chain s.impl s.args
  split_ifs at hargs ⊢ with hw hh hch hcs hover hshort
  iterate 4 exact takesFault_of_checkArgs hp hm hargs
  · exact step_of_checkArgs_error hp hm hargs
  · exact takesFault_of_checkArgs hp hm hargs
  · exact ⟨encStart s, step_of_checkArgs_ok hp hm hargs,
      Memory.readBytes_writeBytes [] 0 (headerBytes _ _ _ _), rfl⟩

/-! ### A pixel that joins the run -/

theorem run_succ_toNat {run : BitVec 6} (h : run.toNat ≤ 61) :
    (run + 1).toNat = run.toNat + 1 := by
  rw [BitVec.toNat_add]
  exact Nat.mod_eq_of_lt (by simp; omega)

theorem Encoding.owed {cur : Pixel} {n : Nat} {s : State} (h : Encoding cur n s) :
    s.pxi < s.pxn := by
  obtain ⟨-, -, -, howed, -, -⟩ := h
  exact howed

theorem Encoding.fetch {cur : Pixel} {n : Nat} {s : State} (h : Encoding cur n s) :
    fetchPixel s = .ok cur := by
  obtain ⟨-, -, -, -, hcur, -⟩ := h
  exact hcur

theorem emitFor_prev (s : State) : emitFor s.prev s = runPath s :=
  if_pos (joinsRun_eq_true.mpr rfl)

/-- The run is full or the image ends: it becomes a RUN op (43_encode.md R154, R155). -/
theorem step_run_flushed {n : Nat} {s : State} (h : Encoding s.prev n s) (hn : 1 ≤ n)
    (hr : s.run.toNat ≤ 61) (hf : s.run.toNat + 1 = 62 ∨ s.pxi + 1 = s.pxn) :
    ∃ t, step s = .next t ∧
      EncodesPixel s.prev (encode (.run (s.run.toNat + 1))) 0 s.cache s t := by
  obtain ⟨hp, hm, hc, howed, hcur, hl⟩ := h
  refine step_body_of_emitFor hp hm howed hcur ?_
  rw [← run_succ_toNat hr] at hf ⊢
  rw [emitFor_prev, runPath_of_mustFlush (mustFlush_eq_true.mpr hf) hc (by omega)]
  rfl

/-- The run goes on and nothing is written (43_encode.md R154). -/
theorem step_run_grown {n : Nat} {s : State} (h : Encoding s.prev n s) (hr : s.run.toNat ≤ 61)
    (hf : ¬ (s.run.toNat + 1 = 62 ∨ s.pxi + 1 = s.pxn)) :
    ∃ t, step s = .next t ∧ EncodesPixel s.prev [] (s.run + 1) s.cache s t := by
  obtain ⟨hp, hm, hc, howed, hcur, hl⟩ := h
  refine step_body_of_emitFor hp hm howed hcur ?_
  rw [← run_succ_toNat hr, ← mustFlush_eq_true] at hf
  rw [emitFor_prev, runPath_of_not_mustFlush hf]
  rfl

/-- Settles O33: the run is flushed where it is full or the pixel is the last, and grows elsewhere. -/
theorem encoderRunPixel : Obligations.EncoderRunPixel := by
  unfold Obligations.EncoderRunPixel
  intro s h hr
  have howed := h.owed
  split_ifs with hf
  · obtain ⟨t, hstep, hpixel⟩ := step_run_flushed h le_rfl hr (by omega)
    have hbytes := hpixel.appends
    rw [← run_succ_toNat hr, encode_run, run_succ_toNat hr] at hbytes
    exact ⟨t, hstep, hpixel.consumes, hpixel.cache_eq, hpixel.rest, hbytes, hpixel.run_eq⟩
  · obtain ⟨t, hstep, hpixel⟩ := step_run_grown h hr (by omega)
    exact ⟨t, hstep, hpixel.consumes, hpixel.cache_eq, hpixel.rest, hpixel.q_eq, hpixel.pos_eq,
      by rw [hpixel.run_eq, run_succ_toNat hr]⟩

end Sys2Proof.Machine
end

section
/-! PROOFS. The op that the encoder writes for a pixel outside the run, what that op can be, and how
many bytes any pixel gets (43_encode.md R156 to R169). -/

namespace Sys2Proof.Machine

/-! ### The op of a pixel outside the run -/

/-- With a byte for the pending run and the bytes of the op left, a pixel outside the run is written
whole. -/
theorem opPath_ok_of_room {cur : Pixel} {s : State} (hc : s.cmode = .write)
    (hl : s.pos + (1 + (firstFittingOp cur s.prev s.cache).length) ≤ s.len) :
    opPath cur s = .ok (appendBytes (pendingRun s ++ encode (firstFittingOp cur s.prev s.cache))
      { s with run := 0, cache := cacheAfter cur s.cache }) := by
  have hpend : (pendingRun s).length ≤ 1 := by rw [pendingRun_length]; split <;> omega
  have hroom : s.pos + (pendingRun s).length + (encode (firstFittingOp cur s.prev s.cache)).length ≤
      s.len := by rw [encode_length]; omega
  rw [opPath, flushPending_ok hc (by omega), ok_bind, putPixel_eq_putBytes,
    ← appendBytes_appendBytes]
  exact putBytes_eq_appendBytes _ hc hroom

theorem emitFor_of_ne {cur : Pixel} {s : State} (hne : cur ≠ s.prev) :
    emitFor cur s = opPath cur s :=
  if_neg (mt joinsRun_eq_true.mp hne)

/-- A pixel outside the run: the pending run and the first op that fits are written, and `RUN` is
cleared (43_encode.md R156). -/
theorem step_outside_run {cur : Pixel} {n : Nat} {s : State} (h : Encoding cur n s)
    (hne : cur ≠ s.prev) (hn : 1 + (firstFittingOp cur s.prev s.cache).length ≤ n) :
    ∃ t, step s = .next t ∧
      EncodesPixel cur (pendingRun s ++ encode (firstFittingOp cur s.prev s.cache)) 0
        (cacheAfter cur s.cache) s t := by
  obtain ⟨hp, hm, hc, howed, hcur, hl⟩ := h
  refine step_body_of_emitFor hp hm howed hcur ?_
  rw [emitFor_of_ne hne, opPath_ok_of_room hc (by omega)]

theorem cacheAfter_of_hit {cur : Pixel} {cache : Vector Pixel 64}
    (h : cache.get (hash cur) = cur) : cacheAfter cur cache = cache :=
  if_pos h

theorem EncodesPixel.writesSlot {cur : Pixel} {bs : List Byte} {run : BitVec 6} {s t : State}
    (h : EncodesPixel cur bs run (cacheAfter cur s.cache) s t)
    (hmiss : s.cache.get (hash cur) ≠ cur) : WritesSlot (hash cur) cur s t := by
  have hcache : t.cache = (store cur s).cache := h.cache_eq.trans (if_neg hmiss)
  rw [WritesSlot, hcache]
  exact ⟨store_cache_same cur s, fun j hj => store_cache_ne cur s hj⟩

/-! ### Which op fits first -/

section
variable {cur prev : Pixel} {cache : Vector Pixel 64} {dr dg db da : Int}

theorem firstFittingOp_of_hit (h : cache.get (hash cur) = cur) :
    firstFittingOp cur prev cache = .index (hash cur) :=
  if_pos h

theorem firstFittingOp_of_miss (hmiss : cache.get (hash cur) ≠ cur)
    (hd : delta cur prev = ⟨dr, dg, db, da⟩) :
    firstFittingOp cur prev cache =
      if da = 0 ∧ (-2 ≤ dr ∧ dr ≤ 1) ∧ (-2 ≤ dg ∧ dg ≤ 1) ∧ (-2 ≤ db ∧ db ≤ 1) then .diff dr dg db
      else if da = 0 ∧ (-32 ≤ dg ∧ dg ≤ 31) ∧ (-8 ≤ dr - dg ∧ dr - dg ≤ 7) ∧
          (-8 ≤ db - dg ∧ db - dg ≤ 7) then .luma dg (dr - dg) (db - dg)
      else if da = 0 then .rgb cur.r cur.g cur.b
      else .rgba cur.r cur.g cur.b cur.a := by
  rw [firstFittingOp, if_neg hmiss, hd]

end

/-! ### The bytes of the ops -/

theorem encode_index (slot : Fin 64) : encode (.index slot) = [BitVec.ofNat 8 slot.val] := by
  revert slot; decide

/-- A value in the range of its field is stored as a natural number below the field's size
(30_encoding.md R89). -/
theorem exists_toField_eq {n w : Nat} {b d : Int} (h0 : 0 ≤ d + b) (h1 : d + b < n) :
    ∃ k : Fin n, d + b = (k.val : Int) ∧ toField w b d = BitVec.ofNat w k.val := by
  obtain ⟨k, hk⟩ := Int.eq_ofNat_of_zero_le h0
  exact ⟨⟨k, by omega⟩, hk, by rw [toField, hk, BitVec.ofInt_natCast]⟩

theorem encode_diff {dr dg db : Int} (hr : -2 ≤ dr ∧ dr ≤ 1) (hg : -2 ≤ dg ∧ dg ≤ 1)
    (hb : -2 ≤ db ∧ db ≤ 1) :
    encode (.diff dr dg db) =
      [BitVec.ofInt 8 (0x40 + (dr + 2) * 16 + (dg + 2) * 4 + (db + 2))] := by
  obtain ⟨x, hx, hfx⟩ := exists_toField_eq (n := 4) (w := 2) (b := 2) (d := dr) (by omega) (by omega)
  obtain ⟨y, hy, hfy⟩ := exists_toField_eq (n := 4) (w := 2) (b := 2) (d := dg) (by omega) (by omega)
  obtain ⟨z, hz, hfz⟩ := exists_toField_eq (n := 4) (w := 2) (b := 2) (d := db) (by omega) (by omega)
  have hbyte : ∀ x y z : Fin 4,
      0b01#2 ++ BitVec.ofNat 2 x.val ++ BitVec.ofNat 2 y.val ++ BitVec.ofNat 2 z.val =
        BitVec.ofInt 8 (0x40 + (x.val : Int) * 16 + (y.val : Int) * 4 + (z.val : Int)) := by decide
  rw [encode, hfx, hfy, hfz, hx, hy, hz, hbyte]

theorem encode_luma {dg drg dbg : Int} (hg : -32 ≤ dg ∧ dg ≤ 31) (hrg : -8 ≤ drg ∧ drg ≤ 7)
    (hbg : -8 ≤ dbg ∧ dbg ≤ 7) :
    encode (.luma dg drg dbg) =
      [BitVec.ofInt 8 (0x80 + (dg + 32)), BitVec.ofInt 8 ((drg + 8) * 16 + (dbg + 8))] := by
  obtain ⟨x, hx, hfx⟩ :=
    exists_toField_eq (n := 64) (w := 6) (b := 32) (d := dg) (by omega) (by omega)
  obtain ⟨y, hy, hfy⟩ :=
    exists_toField_eq (n := 16) (w := 4) (b := 8) (d := drg) (by omega) (by omega)
  obtain ⟨z, hz, hfz⟩ :=
    exists_toField_eq (n := 16) (w := 4) (b := 8) (d := dbg) (by omega) (by omega)
  have hfirst : ∀ x : Fin 64,
      0b10#2 ++ BitVec.ofNat 6 x.val = BitVec.ofInt 8 (0x80 + (x.val : Int)) := by decide
  have hsecond : ∀ y z : Fin 16, BitVec.ofNat 4 y.val ++ BitVec.ofNat 4 z.val =
      BitVec.ofInt 8 ((y.val : Int) * 16 + (z.val : Int)) := by decide
  rw [encode, hfx, hfy, hfz, hx, hy, hz, hfirst, hsecond]

/-! ### The statements about single ops -/

/-- A miss whose first fitting op is `i`. -/
theorem step_miss {cur : Pixel} {n : Nat} {s : State} {i : Instr} (h : Encoding cur n s)
    (hne : cur ≠ s.prev) (hmiss : s.cache.get (hash cur) ≠ cur)
    (hop : firstFittingOp cur s.prev s.cache = i) (hn : 1 + i.length ≤ n) :
    ∃ t, step s = .next t ∧ ConsumesPixel cur s t ∧ EncKeepsTheRest s t ∧
      WritesSlot (hash cur) cur s t ∧ t.run = 0 ∧ AppendsBytes (pendingRun s ++ encode i) s t := by
  subst hop
  obtain ⟨t, hstep, hpixel⟩ := step_outside_run h hne hn
  exact ⟨t, hstep, hpixel.consumes, hpixel.rest, hpixel.writesSlot hmiss, hpixel.run_eq,
    hpixel.appends⟩

/-- Settles O40: six bytes of room hold the pending run and the longest op. -/
theorem encoderEmitsTheFirstFittingOp : Obligations.EncoderEmitsTheFirstFittingOp := by
  unfold Obligations.EncoderEmitsTheFirstFittingOp
  intro cur s h hne
  obtain ⟨t, hstep, hpixel⟩ :=
    step_outside_run h hne (Nat.add_le_add_left (instr_length_le_five _) 1)
  exact ⟨t, hstep, hpixel.consumes, hpixel.run_eq, hpixel.appends⟩

/-- Settles O34: a hit makes INDEX the first fitting op and leaves the cache. -/
theorem encoderIndexPixel : Obligations.EncoderIndexPixel := by
  unfold Obligations.EncoderIndexPixel
  intro cur s h hne hhit
  have hop := firstFittingOp_of_hit (prev := s.prev) hhit
  obtain ⟨t, hstep, hpixel⟩ := step_outside_run h hne (by rw [hop]; exact le_rfl)
  rw [hop, encode_index, cacheAfter_of_hit hhit] at hpixel
  exact ⟨t, hstep, hpixel.consumes, hpixel.rest, hpixel.cache_eq, hpixel.run_eq, hpixel.appends⟩

/-- Settles O35: DIFF is the first op that fits, and its fields hold the biased deltas. -/
theorem encoderDiffPixel : Obligations.EncoderDiffPixel := by
  unfold Obligations.EncoderDiffPixel
  intro cur s dr dg db h hne hmiss hd hr0 hr1 hg0 hg1 hb0 hb1
  have hop := (firstFittingOp_of_miss hmiss hd).trans
    (if_pos ⟨rfl, ⟨hr0, hr1⟩, ⟨hg0, hg1⟩, hb0, hb1⟩)
  rw [← encode_diff ⟨hr0, hr1⟩ ⟨hg0, hg1⟩ ⟨hb0, hb1⟩]
  exact step_miss h hne hmiss hop le_rfl

/-- Settles O36: LUMA is the first op that fits, and its fields hold the biased relative deltas. -/
theorem encoderLumaPixel : Obligations.EncoderLumaPixel := by
  unfold Obligations.EncoderLumaPixel
  intro cur s dr dg db h hne hmiss hd hdiff hg0 hg1 hrg0 hrg1 hbg0 hbg1
  have hop := firstFittingOp_of_miss hmiss hd
  rw [if_neg fun ⟨_, ⟨hr0, hr1⟩, ⟨hg0, hg1⟩, hb0, hb1⟩ => hdiff ⟨hr0, hr1, hg0, hg1, hb0, hb1⟩,
    if_pos ⟨rfl, ⟨hg0, hg1⟩, ⟨hrg0, hrg1⟩, hbg0, hbg1⟩] at hop
  rw [← encode_luma ⟨hg0, hg1⟩ ⟨hrg0, hrg1⟩ ⟨hbg0, hbg1⟩]
  exact step_miss h hne hmiss hop le_rfl

/-- Settles O37: neither DIFF nor LUMA fits, and the alpha delta chooses between the literals. -/
theorem encoderLiteralPixel : Obligations.EncoderLiteralPixel := by
  unfold Obligations.EncoderLiteralPixel
  intro cur s dr dg db da h hne hmiss hd hdiff hluma
  have hop := firstFittingOp_of_miss hmiss hd
  rw [if_neg fun ⟨ha, ⟨hr0, hr1⟩, ⟨hg0, hg1⟩, hb0, hb1⟩ =>
      hdiff ⟨ha, hr0, hr1, hg0, hg1, hb0, hb1⟩,
    if_neg fun ⟨ha, ⟨hg0, hg1⟩, ⟨hrg0, hrg1⟩, hbg0, hbg1⟩ =>
      hluma ⟨ha, hg0, hg1, hrg0, hrg1, hbg0, hbg1⟩] at hop
  split_ifs at hop ⊢
  · exact step_miss h hne hmiss hop (show 1 + 4 ≤ 6 by decide)
  · exact step_miss h hne hmiss hop (show 1 + 5 ≤ 6 by decide)

/-! ### What the op of a pixel outside the run can be -/

theorem eq_of_delta_eq_zero {cur prev : Pixel} (hr : (delta cur prev).dr = 0)
    (hg : (delta cur prev).dg = 0) (hb : (delta cur prev).db = 0)
    (ha : (delta cur prev).da = 0) : cur = prev := by
  have channel : ∀ x y : Byte, (x.toNat : Int) - y.toNat = 0 → x = y := fun x y h =>
    BitVec.eq_of_toNat_eq (by omega)
  have hr := channel _ _ hr
  have hg := channel _ _ hg
  have hb := channel _ _ hb
  have ha := channel _ _ ha
  cases cur
  cases prev
  simp_all

/-- The ops that the encoder may choose for `cur` after `prev`, each with the condition of its choice
that does not speak of the cache (43_encode.md R157 to R162). -/
inductive Fits (cur prev : Pixel) : Instr → Prop where
  | index (slot : Fin 64) : Fits cur prev (.index slot)
  | diff (h : diffFits (delta cur prev) = true) :
      Fits cur prev (.diff (delta cur prev).dr (delta cur prev).dg (delta cur prev).db)
  | luma (h : lumaFits (delta cur prev) = true) :
      Fits cur prev (.luma (delta cur prev).dg ((delta cur prev).dr - (delta cur prev).dg)
        ((delta cur prev).db - (delta cur prev).dg))
  | rgb : Fits cur prev (.rgb cur.r cur.g cur.b)
  | rgba (h : cur.a ≠ prev.a) : Fits cur prev (.rgba cur.r cur.g cur.b cur.a)

theorem firstFittingOp_fits (cur prev : Pixel) (cache : Vector Pixel 64) :
    Fits cur prev (firstFittingOp cur prev cache) := by
  simp only [firstFittingOp]
  split_ifs with hhit hdiff hluma ha
  · exact .index _
  · exact .diff (diffFits_eq_true.mpr hdiff)
  · exact .luma (lumaFits_eq_true.mpr hluma)
  · exact .rgb
  · exact .rgba (mt delta_da_eq_zero.mpr ha)

section
variable {cur prev : Pixel} {i : Instr}

theorem Fits.wellFormed (h : Fits cur prev i) : i.wellFormed = true := by
  cases h with
  | index | rgb | rgba => rfl
  | diff h =>
    obtain ⟨-, hr, hg, hb⟩ := diffFits_eq_true.mp h
    simp [Instr.wellFormed, inRange_eq_true, hr, hg, hb]
  | luma h =>
    obtain ⟨-, hg, hrg, hbg⟩ := lumaFits_eq_true.mp h
    simp only [Instr.wellFormed, Bool.and_eq_true, inRange_eq_true]
    exact ⟨⟨hg, hrg⟩, hbg⟩

theorem Fits.ne_run (h : Fits cur prev i) (n : Nat) : i ≠ .run n := by
  cases h <;> simp

theorem Fits.ne_diff_zero (h : Fits cur prev i) (hne : cur ≠ prev) : i ≠ .diff 0 0 0 := by
  cases h with
  | diff h =>
    intro hi
    obtain ⟨ha, -⟩ := diffFits_eq_true.mp h
    obtain ⟨hr, hg, hb⟩ := Instr.diff.inj hi
    exact hne (eq_of_delta_eq_zero hr hg hb ha)
  | index | luma | rgb | rgba => simp

theorem Fits.ne_luma_zero (h : Fits cur prev i) (hne : cur ≠ prev) : i ≠ .luma 0 0 0 := by
  cases h with
  | luma h =>
    intro hi
    obtain ⟨ha, -⟩ := lumaFits_eq_true.mp h
    obtain ⟨hg, hrg, hbg⟩ := Instr.luma.inj hi
    exact hne (eq_of_delta_eq_zero (by omega) hg (by omega) ha)
  | index | diff | rgb | rgba => simp

theorem Fits.ne_rgba (h : Fits cur prev i) (ha : cur.a = prev.a) (r g b a : Byte) :
    i ≠ .rgba r g b a := by
  cases h with
  | rgba h => exact absurd ha h
  | index | diff | luma | rgb => simp

end

/-- Settles O41: a pixel outside the run is a step of the first fitting op, whose deltas are not all
zero since the pixel differs from `PREV`. -/
theorem opOutsideARunIsNoRunNoZeroDeltaNoThreeChannelRgba :
    Obligations.OpOutsideARunIsNoRunNoZeroDeltaNoThreeChannelRgba := by
  unfold Obligations.OpOutsideARunIsNoRunNoZeroDeltaNoThreeChannelRgba
  intro cur s t h hne hstep
  obtain ⟨u, hstep', hpixel⟩ :=
    step_outside_run h hne (Nat.add_le_add_left (instr_length_le_five _) 1)
  obtain rfl := Host.Outcome.next.inj (hstep.symm.trans hstep')
  have hfits := firstFittingOp_fits cur s.prev s.cache
  exact ⟨_, hfits.wellFormed, hpixel.appends, hfits.ne_diff_zero hne, hfits.ne_luma_zero hne,
    hfits.ne_run, fun h3 => hfits.ne_rgba (fetchPixel_alpha h3 h.fetch)⟩

/-! ### What a body step of encode writes -/

theorem wellFormed_run {n : Nat} : (Instr.run n).wellFormed = true ↔ 1 ≤ n ∧ n ≤ 62 := by
  simp [Instr.wellFormed]

theorem ConsumesPixel.phase_eq_tail {cur : Pixel} {s t : State} (h : ConsumesPixel cur s t)
    (hlast : s.pxi + 1 = s.pxn) : t.phase = .tail := by
  obtain ⟨-, -, hphase⟩ := h
  rw [hphase, if_pos hlast]

/-- The pending run as ops: none, or one well-formed RUN. -/
theorem exists_pendingRun_ops {s : State} (hr : s.run.toNat ≤ 61) :
    pendingRun s = [] ∨ ∃ n, (Instr.run n).wellFormed = true ∧ pendingRun s = encode (.run n) := by
  unfold pendingRun
  by_cases h0 : s.run = 0
  · exact .inl (if_pos h0)
  · have hpos : s.run.toNat ≠ 0 := fun h => h0 (BitVec.eq_of_toNat_eq h)
    exact .inr ⟨s.run.toNat, wellFormed_run.mpr (by omega), by rw [if_neg h0, encode_run]⟩

/-- Settles O42: a pixel in the run writes nothing or one RUN, which is full or the last op; a pixel
outside it writes its own op, after the pending RUN where there is one. -/
theorem aRunShorterThan62IsFollowedByNoRun : Obligations.ARunShorterThan62IsFollowedByNoRun := by
  unfold Obligations.ARunShorterThan62IsFollowedByNoRun
  intro cur s t h hr hstep
  by_cases heq : cur = s.prev
  · subst heq
    by_cases hf : s.run.toNat + 1 = 62 ∨ s.pxi + 1 = s.pxn
    · obtain ⟨u, hstep', hpixel⟩ := step_run_flushed h (by decide) hr hf
      obtain rfl := Host.Outcome.next.inj (hstep.symm.trans hstep')
      have hwf : (Instr.run (s.run.toNat + 1)).wellFormed = true := wellFormed_run.mpr (by omega)
      refine ⟨[.run (s.run.toNat + 1)], by simpa using hwf, by simpa using hpixel.appends, ?_⟩
      rcases hf with hfull | hlast
      · exact .inr (.inl (by rw [hfull]))
      · exact .inr (.inr (.inl ⟨_, rfl, hpixel.consumes.phase_eq_tail hlast⟩))
    · obtain ⟨u, hstep', hpixel⟩ := step_run_grown h hr hf
      obtain rfl := Host.Outcome.next.inj (hstep.symm.trans hstep')
      exact ⟨[], by simp, hpixel.appends, .inl rfl⟩
  · obtain ⟨u, hstep', hpixel⟩ :=
      step_outside_run h heq (Nat.add_le_add_left (instr_length_le_five _) 1)
    obtain rfl := Host.Outcome.next.inj (hstep.symm.trans hstep')
    have hfits := firstFittingOp_fits cur s.prev s.cache
    have hbytes := hpixel.appends
    rcases exists_pendingRun_ops hr with hnone | ⟨n, hwf, hrun⟩
    · rw [hnone] at hbytes
      exact ⟨[_], by simpa using hfits.wellFormed, by simpa using hbytes,
        .inr (.inr (.inr ⟨_, hfits.ne_run, .inl rfl⟩))⟩
    · rw [hrun] at hbytes
      exact ⟨[.run n, _], by simpa using ⟨hwf, hfits.wellFormed⟩, by simpa using hbytes,
        .inr (.inr (.inr ⟨_, hfits.ne_run, .inr ⟨n, rfl⟩⟩))⟩

theorem runPath_length_of_ok {s t : State} (h : runPath s = .ok t) :
    ∃ bs run, bs.length ≤ 1 ∧ t = appendBytes bs (setRun run s) := by
  by_cases hf : mustFlush (s.run + 1) s.pxi s.pxn = true
  · exact ⟨_, 0, le_rfl, flush_of_ok (s := setRun (s.run + 1) s) ((if_pos hf).symm.trans h)⟩
  · rw [runPath_of_not_mustFlush hf] at h
    exact ⟨[], s.run + 1, by simp, (Except.ok.inj h).symm⟩

/-- Whatever the room, a pixel whose writes complete got at most one byte of a RUN and five of an op
(43_encode.md R169). -/
theorem emitFor_length_of_ok {cur : Pixel} {s t : State} (h : emitFor cur s = .ok t) :
    ∃ bs run cache, bs.length ≤ 6 ∧ t = appendBytes bs { s with run := run, cache := cache } := by
  by_cases heq : cur = s.prev
  · rw [heq, emitFor_prev] at h
    obtain ⟨bs, run, hlen, rfl⟩ := runPath_length_of_ok h
    exact ⟨bs, run, s.cache, by omega, rfl⟩
  · rw [emitFor_of_ne heq] at h
    refine ⟨_, 0, _, ?_, opPath_of_ok h⟩
    have hop := instr_length_le_five (firstFittingOp cur s.prev s.cache)
    rw [List.length_append, pendingRun_length, encode_length]
    split <;> omega

/-- Settles O39: a step that does not fault appends the bytes of one pixel and consumes it. -/
theorem encodeStepWritesAtMostSixBytes : Obligations.EncodeStepWritesAtMostSixBytes := by
  unfold Obligations.EncodeStepWritesAtMostSixBytes
  intro s t hp hm howed hstep ht
  rw [step_body_enc hp hm, encBody_eq_encPixel howed] at hstep
  obtain ⟨cur, -, hok⟩ := bind_eq_ok.mp (settle_eq_next_of_ne_fault hstep ht)
  obtain ⟨u, hu, hok⟩ := bind_eq_ok.mp hok
  obtain rfl := Except.ok.inj hok
  obtain ⟨bs, run, cache, hlen, rfl⟩ := emitFor_length_of_ok hu
  have hpixel : EncodesPixel cur bs run cache s _ := advance_encodesPixel hp
  obtain ⟨-, hpxi, -⟩ := hpixel.consumes
  obtain ⟨-, hpos, hframe⟩ := hpixel.appends
  rw [← hpos] at hframe
  exact ⟨by omega, by omega, hpxi, hframe⟩

end Sys2Proof.Machine
end

section
/-! PROOFS. The six ops of the decode pass (44_decode.md R182 to R190): `completeOp` says once what
an op that completes does, and `exec` is the consumption of its bytes, the test of the pixels owed
and `completeOp`. -/

namespace Sys2Proof.Machine

/-! ### What an op draws -/

/-- The pixel that an op emits, and leaves as the previous one (44_decode.md R184 to R189). -/
def opPixel (i : Instr) (prev : Pixel) (cache : Vector Pixel 64) : Pixel :=
  match i with
  | .index slot      => cache.get slot
  | .diff dr dg db   => addWrap prev dr dg db
  | .luma dg drg dbg => addWrap prev (dg + drg) dg (dg + dbg)
  | .run _           => prev
  | .rgb r g b       => ⟨r, g, b, prev.a⟩
  | .rgba r g b a    => ⟨r, g, b, a⟩

/-- INDEX and RUN write no slot (44_decode.md R186, R187). -/
def storesPixel : Instr → Bool
  | .index _ => false
  | .run _   => false
  | _        => true

/-- The cache with a pixel stored at its hash (10_state.md R26). -/
def cacheWith (px : Pixel) (cache : Vector Pixel 64) : Vector Pixel 64 :=
  cache.set (hash px).val px (hash px).isLt

/-- The cache that an op leaves. -/
def opCache (i : Instr) (prev : Pixel) (cache : Vector Pixel 64) : Vector Pixel 64 :=
  if storesPixel i then cacheWith (opPixel i prev cache) cache else cache

/-- The state after an op that completes. -/
def completeOp (i : Instr) (s : State) : State :=
  { s with
    prev := opPixel i s.prev s.cache, cache := opCache i s.prev s.cache
    pxi := s.pxi + pixelsOf i, pos := s.pos + i.length
    p := s.p.writeBytes (4 * s.pxi)
      ((List.replicate (pixelsOf i) (opPixel i s.prev s.cache)).flatMap Pixel.bytes) }

/-- How an op ends that wants more pixels than are owed (44_decode.md R187, R190). -/
def pastStop : Instr → Stop
  | .run _ => .raise (.formatError .runOverrun)
  | _      => .fault .pastImage

/-- An op as a computation: it consumes its bytes, the pixels it wants must be owed, and it
completes. -/
def opResult (i : Instr) (s : State) : Except Stop State :=
  consume i.length s >>= fun _ =>
    if s.pxi + pixelsOf i ≤ s.pxn then .ok (completeOp i s) else .error (pastStop i)

theorem emit_of_owed {px : Pixel} {s : State} (h : s.pxi + 1 ≤ s.pxn) :
    emit px s = .ok (setPxi (s.pxi + 1) (setP (s.p.writeBytes (4 * s.pxi) px.bytes) s)) :=
  if_pos h

theorem emit_of_past {px : Pixel} {s : State} (h : ¬ s.pxi + 1 ≤ s.pxn) :
    emit px s = .error (.fault .pastImage) :=
  if_neg h

theorem execRun_of_consume {n k : Nat} {s : State} (h : consume 1 s = .ok (setPos k s)) :
    execRun n s = settle s (if s.pxn < s.pxi + n then .error (.raise (.formatError .runOverrun))
      else emitMany s.prev n (setPos k s)) := by
  simp only [execRun, h]
  rfl

section
variable {i : Instr} {s : State} (hm : s.cmode = .read) (hl : s.pos + i.length ≤ s.len)
include hm hl

theorem consume_of_fits : consume i.length s = .ok (setPos (s.pos + i.length) s) :=
  consume_eq_ok.mpr ⟨hm, hl, rfl⟩

theorem exec_of_owed (hp : s.pxi + pixelsOf i ≤ s.pxn) :
    exec i s = .next (completeOp i s) := by
  have hconsume := consume_of_fits hm hl
  cases i with
  | run n =>
    have hemit := emitMany_eq_ok s.prev n (s := setPos (s.pos + 1) s) hp
    refine (execRun_of_consume hconsume).trans ?_
    refine (congrArg (settle s) ((if_neg (Nat.not_lt.mpr hp)).trans hemit)).trans ?_
    rw [settle_ok, ← List.map_replicate]
    rfl
  | index | diff | luma | rgb | rgba =>
    have hemit (px : Pixel) (k : Nat) := emit_of_owed (px := px) (s := setPos k s) hp
    rw [Instr.length] at hconsume
    simp only [exec, execIndex, execDiff, execLuma, execRgb, execRgba, produce, hconsume, hemit]
    rfl

theorem exec_of_past (hp : ¬ s.pxi + pixelsOf i ≤ s.pxn) :
    exec i s = settle s (.error (pastStop i)) := by
  have hconsume := consume_of_fits hm hl
  cases i with
  | run n =>
    refine (execRun_of_consume hconsume).trans ?_
    exact congrArg (settle s) (if_pos (Nat.not_le.mp hp))
  | index | diff | luma | rgb | rgba =>
    have hemit (px : Pixel) (k : Nat) := emit_of_past (px := px) (s := setPos k s) hp
    rw [Instr.length] at hconsume
    simp only [exec, execIndex, execDiff, execLuma, execRgb, execRgba, produce, hconsume, hemit]
    rfl

end

/-- Every op of the decode pass is `opResult`. -/
theorem exec_eq_settle (i : Instr) (s : State) : exec i s = settle s (opResult i s) := by
  cases hc : consume i.length s with
  | error x => rw [exec_of_consume_error hc, opResult, hc, error_bind]
  | ok t =>
    obtain ⟨hm, hl, -⟩ := consume_eq_ok.mp hc
    rw [opResult, hc, ok_bind]
    split_ifs with hp
    · exact exec_of_owed hm hl hp
    · exact exec_of_past hm hl hp

end Sys2Proof.Machine
end

section
/-! PROOFS. The statements about the six ops (44_decode.md R184 to R189): how each is read, and what
`completeOp` writes and leaves unchanged. -/

namespace Sys2Proof.Machine

/-! ### What a completed op writes -/

/-- A part of the bytes written reads back. -/
theorem readBytes_writeBytes_middle (m : Memory) (a : Nat) (xs bs ys : List Byte) :
    (m.writeBytes a (xs ++ (bs ++ ys))).readBytes (a + xs.length) bs.length = some bs := by
  rw [Memory.writeBytes_append, Memory.writeBytes_append]
  rw [← Memory.readBytes_writeBytes (m.writeBytes a xs) (a + xs.length) bs]
  exact Memory.readBytes_congr _ _ _ _ fun k hk =>
    Memory.read_writeBytes_outside _ _ _ _ (.inl (by omega))

theorem flatMap_bytes_length (px : List Pixel) :
    (px.flatMap Pixel.bytes).length = 4 * px.length := by
  simp [List.length_flatMap, Pixel.bytes, Nat.mul_comm]

/-- Pixel `j` of those written. -/
theorem pixelAt_writeBytes (m : Memory) (i : Nat) {px : List Pixel} {j : Nat} (hj : j < px.length) :
    pixelAt (m.writeBytes (4 * i) (px.flatMap Pixel.bytes)) (i + j) = some px[j].bytes := by
  have hsplit : px.flatMap Pixel.bytes = (px.take j).flatMap Pixel.bytes ++
      (px[j].bytes ++ (px.drop (j + 1)).flatMap Pixel.bytes) := by
    rw [← List.flatMap_cons, ← List.drop_eq_getElem_cons hj, ← List.flatMap_append,
      List.take_append_drop]
  have hread := readBytes_writeBytes_middle m (4 * i) ((px.take j).flatMap Pixel.bytes) px[j].bytes
    ((px.drop (j + 1)).flatMap Pixel.bytes)
  rw [flatMap_bytes_length, List.length_take_of_le (Nat.le_of_lt hj), ← Nat.mul_add] at hread
  rw [hsplit]
  exact hread

section
variable (i : Instr) (s : State)

theorem completeOp_writesPixels :
    WritesPixels (opPixel i s.prev s.cache) (pixelsOf i) s (completeOp i s) := by
  refine ⟨fun j hlo hhi => ?_, fun a ha => ?_⟩
  · obtain ⟨k, rfl⟩ := Nat.exists_eq_add_of_le hlo
    have hread := pixelAt_writeBytes s.p s.pxi (j := k)
      (px := List.replicate (pixelsOf i) (opPixel i s.prev s.cache))
      (by rw [List.length_replicate]; omega)
    rwa [List.getElem_replicate] at hread
  · refine Memory.read_writeBytes_outside _ _ _ _ ?_
    rw [flatMap_bytes_length, List.length_replicate]
    omega

theorem completeOp_keepsTheRest : KeepsTheRest s (completeOp i s) := rfl

theorem completeOp_produces (h : pixelsOf i = 1) :
    Produces i.length (opPixel i s.prev s.cache) s (completeOp i s) :=
  ⟨h ▸ completeOp_writesPixels i s, rfl, congrArg (s.pxi + ·) h, rfl, completeOp_keepsTheRest i s⟩

theorem completeOp_writesSlot (h : storesPixel i = true) :
    WritesSlot (hash (opPixel i s.prev s.cache)) (opPixel i s.prev s.cache) s (completeOp i s) := by
  have hcache : (completeOp i s).cache = (store (opPixel i s.prev s.cache) s).cache := if_pos h
  rw [WritesSlot, hcache]
  exact ⟨store_cache_same _ s, fun j hj => store_cache_ne _ s hj⟩

end

section
variable (i : Instr) (s : State)

/-- An op that produces one pixel, where its bytes are there and a pixel is owed. -/
theorem exec_of_ready (h1 : pixelsOf i = 1) (h : Ready i.length s) :
    exec i s = .next (completeOp i s) ∧
      Produces i.length (opPixel i s.prev s.cache) s (completeOp i s) := by
  obtain ⟨hm, hl, hp⟩ := h
  exact ⟨exec_of_owed hm hl (by omega), completeOp_produces i s h1⟩

/-- An op whose bytes run past the buffer (44_decode.md R193). -/
theorem exec_of_short (hm : s.cmode = .read) (hl : s.len < s.pos + i.length) :
    TakesFault (.formatError .truncated) s (exec i s) := by
  have hconsume : consume i.length s = .error truncatedStop := by
    rw [consume, checkRead_short hm hl]
    rfl
  rw [exec_of_consume_error hconsume]
  exact takesFault_takeFault _ s

end

/-- The colours of DIFF and LUMA, as numbers (41_pixelcolor.md R136). -/
theorem addWrap_toNat (p : Pixel) (dr dg db : Int) :
    ((addWrap p dr dg db).r.toNat : Int) = (p.r.toNat + dr) % 256 ∧
    ((addWrap p dr dg db).g.toNat : Int) = (p.g.toNat + dg) % 256 ∧
    ((addWrap p dr dg db).b.toNat : Int) = (p.b.toNat + db) % 256 ∧
    (addWrap p dr dg db).a = p.a :=
  ⟨addChannel_toNat _ _, addChannel_toNat _ _, addChannel_toNat _ _, rfl⟩

/-! ### The fields of a control byte, as numbers -/

theorem slotOf_val : ∀ c : Byte, c.toNat ≤ 0x3F → (slotOf c).val = c.toNat := by decide

theorem unbias_extractLsb' {w : Nat} (b : Int) (c : BitVec w) (k n : Nat) :
    unbias b (c.extractLsb' k n) = ((c.toNat / 2 ^ k % 2 ^ n : Nat) : Int) - b := by
  rw [unbias, BitVec.extractLsb'_toNat, Nat.shiftRight_eq_div_pow]

theorem readDiff_eq (c : Byte) :
    readDiff c = .diff ((c.toNat / 16 % 4 : Nat) - 2) ((c.toNat / 4 % 4 : Nat) - 2)
      ((c.toNat % 4 : Nat) - 2) := by
  simp only [readDiff, unbias_extractLsb', Nat.reducePow, Nat.div_one]

theorem readLuma_eq (c d : Byte) :
    readLuma c d = .luma ((c.toNat % 64 : Nat) - 32) ((d.toNat / 16 : Nat) - 8)
      ((d.toNat % 16 : Nat) - 8) := by
  have hd : d.toNat / 16 % 16 = d.toNat / 16 := Nat.mod_eq_of_lt (by have := d.isLt; omega)
  simp only [readLuma, unbias_extractLsb', Nat.reducePow, Nat.div_one, hd]

theorem readRun_eq (c : Byte) : readRun c = .run (c.toNat % 64 + 1) := by
  rw [readRun, BitVec.extractLsb'_toNat]
  rfl

/-! ### The statements -/

/-- Settles O6: INDEX emits what its slot holds and is one of the two ops that store nothing. -/
theorem indexEmitsTheSlot : Obligations.IndexEmitsTheSlot := by
  unfold Obligations.IndexEmitsTheSlot
  refine ⟨fun c rest hc => ?_, fun slot s => ⟨fun hready => ?_, exec_of_short (.index slot) s⟩⟩
  · exact ⟨slotOf c, decode_of_isIndex ((isIndex_eq_range c).trans (decide_eq_true hc)) rest,
      slotOf_val c hc⟩
  · obtain ⟨hexec, hproduces⟩ := exec_of_ready (.index slot) s rfl hready
    exact ⟨_, hexec, hproduces, rfl⟩

/-- Settles O7: the pixel is `addWrap` of the previous one and the deltas. -/
theorem diffAddsItsDeltas : Obligations.DiffAddsItsDeltas := by
  unfold Obligations.DiffAddsItsDeltas
  refine ⟨fun c rest hlo hhi => ?_,
    fun dr dg db s => ⟨fun hready => ?_, exec_of_short (.diff dr dg db) s⟩⟩
  · rw [← readDiff_eq]
    exact decode_of_isDiff ((isDiff_eq_range c).trans (decide_eq_true ⟨hlo, hhi⟩)) rest
  · obtain ⟨hexec, hproduces⟩ := exec_of_ready (.diff dr dg db) s rfl hready
    exact ⟨_, _, hexec, hproduces, completeOp_writesSlot (.diff dr dg db) s rfl,
      addWrap_toNat s.prev dr dg db⟩

/-- Settles O8: the pixel is `addWrap` of the previous one and the deltas, red and blue on top of
green. -/
theorem lumaAddsItsDeltas : Obligations.LumaAddsItsDeltas := by
  unfold Obligations.LumaAddsItsDeltas
  refine ⟨fun c d rest hlo hhi => ?_,
    fun dg drg dbg s => ⟨fun hready => ?_, exec_of_short (.luma dg drg dbg) s⟩⟩
  · rw [← readLuma_eq]
    exact decode_of_isLuma ((isLuma_eq_range c).trans (decide_eq_true ⟨hlo, hhi⟩)) d rest
  · obtain ⟨hexec, hproduces⟩ := exec_of_ready (.luma dg drg dbg) s rfl hready
    exact ⟨_, _, hexec, hproduces, completeOp_writesSlot (.luma dg drg dbg) s rfl,
      addWrap_toNat s.prev (dg + drg) dg (dg + dbg)⟩

/-- Settles O9: the pixels owed decide between completion and the overrun, once the byte is
there. -/
theorem runRepeatsPreviousOrOverruns : Obligations.RunRepeatsPreviousOrOverruns := by
  unfold Obligations.RunRepeatsPreviousOrOverruns
  refine ⟨fun c rest hlo hhi => ?_,
    fun n s => ⟨fun hm hl hfits => ?_, fun hm hl hover => ?_, exec_of_short (.run n) s⟩⟩
  · rw [← readRun_eq]
    exact decode_of_isRun ((isRun_eq_range c).trans (decide_eq_true ⟨hlo, hhi⟩)) rest
  · exact ⟨_, exec_of_owed (i := .run n) hm hl hfits, completeOp_writesPixels (.run n) s, rfl, rfl,
      rfl, rfl, completeOp_keepsTheRest (.run n) s⟩
  · rw [exec_of_past (i := .run n) hm hl (Nat.not_le.mpr hover)]
    exact takesFault_takeFault _ s

/-- Settles O10: the pixel takes its alpha from the previous one. -/
theorem rgbEmitsRawColour : Obligations.RgbEmitsRawColour := by
  unfold Obligations.RgbEmitsRawColour
  refine ⟨fun r g b => decode_of_reads (.rgb r g b),
    fun r g b s => ⟨fun hready => ?_, exec_of_short (.rgb r g b) s⟩⟩
  obtain ⟨hexec, hproduces⟩ := exec_of_ready (.rgb r g b) s rfl hready
  exact ⟨_, hexec, hproduces, completeOp_writesSlot (.rgb r g b) s rfl⟩

/-- Settles O11: the pixel is the payload. -/
theorem rgbaEmitsTheRawPixel : Obligations.RgbaEmitsTheRawPixel := by
  unfold Obligations.RgbaEmitsTheRawPixel
  refine ⟨fun r g b a => decode_of_reads (.rgba r g b a),
    fun r g b a s => ⟨fun hready => ?_, exec_of_short (.rgba r g b a) s⟩⟩
  obtain ⟨hexec, hproduces⟩ := exec_of_ready (.rgba r g b a) s rfl hready
  exact ⟨_, hexec, hproduces, completeOp_writesSlot (.rgba r g b a) s rfl⟩

end Sys2Proof.Machine
end

section
/-! PROOFS. The body step of the decode pass (44_decode.md R182, R183, R193, R198): the op fetched,
its execution, and the faults of a fetch that runs past the buffer. -/

namespace Sys2Proof.Machine

/-! ### The fetch -/

theorem wellFormed_of_decode {bs rest : List Byte} {i : Instr} (h : decode bs = .ok (i, rest)) :
    i.wellFormed = true := by
  cases bs with
  | nil => simp [decode] at h
  | cons c bs =>
    obtain ⟨payload, -, hread⟩ := decode_eq_ok.mp h
    exact reads_wellFormed hread

theorem fetchOp_wellFormed {s : State} {i : Instr} (h : fetchOp s = .ok i) :
    i.wellFormed = true := by
  unfold fetchOp at h
  split at h
  · simp at h
  · split at h
    · simp at h
    · split at h
      · next hd =>
        obtain rfl := Except.ok.inj h
        exact wellFormed_of_decode hd
      · simp at h

theorem peek8_of_readBytes {s : State} {n : Nat} {c : Byte} {bs : List Byte}
    (hm : s.cmode = .read) (hl : s.pos + 1 ≤ s.len)
    (hq : s.q.readBytes s.pos n = some (c :: bs)) : peek8 s = .ok c := by
  obtain ⟨-, hread⟩ := (Memory.readBytes_eq_some _ _ _ _).mp hq
  exact peek8_of_read hm hl (hread 0 (by simp))

/-- The bytes of one op and no more, at `POS` (40_bytecursor.md R120). -/
theorem fetchOp_of_readBytes {s : State} {bs : List Byte} {i : Instr} (hm : s.cmode = .read)
    (hl : s.pos + bs.length ≤ s.len) (hq : s.q.readBytes s.pos bs.length = some bs)
    (hd : decode bs = .ok (i, [])) : fetchOp s = .ok i := by
  cases bs with
  | nil => simp [decode] at hd
  | cons c bs =>
    obtain ⟨payload, hbs, hread⟩ := decode_eq_ok.mp hd
    obtain rfl : bs = payload := by simpa using hbs
    have hlen : opLength c = (c :: bs).length := by
      rw [← reads_length hread, ← encode_length, reads_encode hread]
    have hget : getBytes (opLength c) s = .ok (c :: bs, _) :=
      (getBytes_eq_ok _ (by rw [hlen]; simp)).mpr ⟨hm, by rwa [hlen], by rwa [hlen], rfl⟩
    rw [List.length_cons] at hl
    simp only [fetchOp, peek8_of_readBytes hm (by omega) hq, hget, hd]

theorem getBytes_of_short (n : Nat) :
    ∀ {bs : List Byte} {s : State}, NextBytes n bs s → bs.length < n →
      getBytes n s = .error truncatedStop := by
  induction n with
  | zero => intro bs s _ h; omega
  | succ n ih =>
    intro bs s hnext hshort
    have hget : get8 s = _ := hnext.get8 (k := 0) (by omega)
    cases bs with
    | nil => simp [getBytes, hget]
    | cons b bs => simp [getBytes, hget, ih hnext.tail (by simpa using hshort)]

/-- Bytes left that hold no whole op (44_decode.md R193). -/
theorem fetchOp_of_decode_error {s : State} {bs : List Byte} {e : Reject} (hm : s.cmode = .read)
    (hl : s.pos ≤ s.len) (hq : s.q.readBytes s.pos (s.len - s.pos) = some bs)
    (hd : decode bs = .error e) : fetchOp s = .error truncatedStop := by
  have hlen := Memory.readBytes_length hq
  cases bs with
  | nil =>
    have hpeek := peek8_of_checkRead_error
      (checkRead_short (n := 1) hm (by rw [List.length_nil] at hlen; omega))
    simp only [fetchOp, hpeek]
    rfl
  | cons c bs =>
    rw [List.length_cons] at hlen
    rcases decode_cases c bs with ⟨hshort, -⟩ | ⟨-, payload, rest, i, rfl, hread⟩
    · have hnext : NextBytes (opLength c) (c :: bs) s :=
        ⟨hm, by rwa [Nat.min_eq_right (by omega)]⟩
      simp only [fetchOp, peek8_of_readBytes hm (by omega) hq, getBytes_of_short _ hnext hshort]
    · simp [decode_of_reads hread] at hd

/-! ### The step -/

section
variable {s : State}

theorem Decoding.cmode_read (h : Decoding s) : s.cmode = .read := by
  obtain ⟨-, -, hm, -⟩ := h
  exact hm

theorem step_of_fetchOp {i : Instr} (h : Decoding s) (hf : fetchOp s = .ok i) :
    step s = afterOp (exec i s) := by
  obtain ⟨hp, hm, -, howed⟩ := h
  simp only [step_body_dec hp hm, decBody, if_pos howed, hf]

theorem step_of_fetchOp_error {x : Stop} (h : Decoding s) (hf : fetchOp s = .error x) :
    step s = settle s (.error x) := by
  obtain ⟨hp, hm, -, howed⟩ := h
  simp only [step_body_dec hp hm, decBody, if_pos howed, hf]

theorem opResult_eq_ok {i : Instr} {t : State} (h : opResult i s = .ok t) :
    s.pxi + pixelsOf i ≤ s.pxn ∧ t = completeOp i s := by
  obtain ⟨_, -, h⟩ := bind_eq_ok.mp h
  split_ifs at h with hp
  exact ⟨hp, (Except.ok.inj h).symm⟩

/-- The state after a body step that completes its op. -/
def stepOp (i : Instr) (s : State) : State :=
  setPhase (phaseAfter (s.pxi + pixelsOf i) s.pxn) (completeOp i s)

theorem enterTail_completeOp (i : Instr) (h : Decoding s) :
    enterTail (completeOp i s) = stepOp i s :=
  enterTail_eq_setPhase (s := completeOp i s) h.1

theorem step_eq_stepOp {i : Instr} (h : Decoding s) (hf : fetchOp s = .ok i)
    (hl : s.pos + i.length ≤ s.len) (hp : s.pxi + pixelsOf i ≤ s.pxn) :
    step s = .next (stepOp i s) := by
  rw [step_of_fetchOp h hf, exec_of_owed h.cmode_read hl hp, afterOp, enterTail_completeOp i h]

/-- A body step that does not fault completes the op it fetched. -/
theorem stepOp_of_step {t : State} (h : Decoding s) (hstep : step s = .next t)
    (ht : t.phase ≠ .fault) :
    ∃ i, fetchOp s = .ok i ∧ s.pxi + pixelsOf i ≤ s.pxn ∧ t = stepOp i s := by
  cases hf : fetchOp s with
  | error x =>
    rw [step_of_fetchOp_error h hf] at hstep
    have hok := settle_eq_next_of_ne_fault hstep ht
    simp at hok
  | ok i =>
    rw [step_of_fetchOp h hf] at hstep
    obtain ⟨u, hu, rfl⟩ := afterOp_eq_next hstep
    have hufault : u.phase ≠ .fault := fun hu => ht (by
      rw [enterTail_of_ne_body (by simp [hu]), hu])
    rw [exec_eq_settle] at hu
    obtain ⟨hp, rfl⟩ := opResult_eq_ok (settle_eq_next_of_ne_fault hu hufault)
    exact ⟨i, rfl, hp, enterTail_completeOp i h⟩

end

theorem pixelsOf_bounds {i : Instr} (h : i.wellFormed = true) :
    1 ≤ pixelsOf i ∧ pixelsOf i ≤ 62 := by
  cases i with
  | run n => exact wellFormed_run.mp h
  | index | diff | luma | rgb | rgba => exact ⟨le_rfl, show 1 ≤ 62 by omega⟩

/-! ### The statements -/

/-- Settles O15: the fetch reads the op of the bytes at `POS`, and `afterOp` is the transition to
`TAIL`. -/
theorem stepExecutesTheDecodedOp : Obligations.StepExecutesTheDecodedOp := by
  unfold Obligations.StepExecutesTheDecodedOp
  intro s bs i h hl hq hd
  rw [step_of_fetchOp h (fetchOp_of_readBytes h.cmode_read hl hq hd)]
  cases exec i s <;> rfl

/-- Settles O16: with no byte left the control byte is missing, and else the payload is. -/
theorem truncatedOpRaisesTruncated : Obligations.TruncatedOpRaisesTruncated := by
  unfold Obligations.TruncatedOpRaisesTruncated
  rintro s bs h hl hq ⟨e, hd⟩
  rw [step_of_fetchOp_error h (fetchOp_of_decode_error h.cmode_read hl hq hd)]
  exact takesFault_takeFault _ s

/-- Settles O17: the step completes a well-formed op, and such an op accounts for 1 to 62 pixels. -/
theorem decodeStepEmits1To62Pixels : Obligations.DecodeStepEmits1To62Pixels := by
  unfold Obligations.DecodeStepEmits1To62Pixels
  intro s t h hstep ht
  obtain ⟨i, hf, hp, rfl⟩ := stepOp_of_step h hstep ht
  obtain ⟨hmin, hmax⟩ := pixelsOf_bounds (fetchOp_wellFormed hf)
  exact ⟨Nat.add_le_add_left hmin _, Nat.add_le_add_left hmax _, hp, rfl⟩

end Sys2Proof.Machine
end

section
/-! PROOFS. `CHANNELS` does not steer the decoder (44_decode.md R194): every part of a body or tail
step of the decode pass commutes with a change of that register. -/

namespace Sys2Proof.Machine

/-- `s` with another channel count. -/
def withChannels (c : Byte) (s : State) : State := { s with channels := c }

section
variable (c : Byte)

/-! ### The cursor -/

theorem peek8_withChannels (s : State) : peek8 (withChannels c s) = peek8 s := rfl

theorem get8_withChannels (s : State) :
    get8 (withChannels c s) = (get8 s).map (Prod.map id (withChannels c)) := by
  simp only [get8, read8, peek8_withChannels]
  cases peek8 s <;> rfl

theorem getBytes_withChannels (n : Nat) :
    ∀ s : State, getBytes n (withChannels c s) =
      (getBytes n s).map (Prod.map id (withChannels c)) := by
  induction n with
  | zero => intro s; rfl
  | succ n ih =>
    intro s
    simp only [getBytes, get8_withChannels]
    cases get8 s with
    | error x => rfl
    | ok r =>
      simp only [Except.map, Prod.map, id, ih]
      cases getBytes n r.2 <;> rfl

theorem matchBytes_withChannels (vs : List Byte) :
    ∀ s : State, matchBytes vs (withChannels c s) = (matchBytes vs s).map (withChannels c) := by
  induction vs with
  | nil => intro s; rfl
  | cons v vs ih =>
    intro s
    simp only [matchBytes, get8_withChannels]
    cases get8 s with
    | error x => rfl
    | ok r =>
      simp only [Except.map, Prod.map, id, ih]
      split <;> rfl

theorem consume_withChannels (n : Nat) (s : State) :
    consume n (withChannels c s) = (consume n s).map (withChannels c) := by
  have hcheck : checkRead n (withChannels c s) = checkRead n s := rfl
  simp only [consume, hcheck]
  cases checkRead n s <;> rfl

/-! ### The parts of a step -/

theorem settle_withChannels {s t : State} {r r' : Except Stop State}
    (hr : r' = r.map (withChannels c)) (h : settle s r = .next t) :
    settle (withChannels c s) r' = .next (withChannels c t) := by
  subst hr
  rcases settle_eq_next h with rfl | ⟨e, rfl, rfl⟩
  · rfl
  · rw [Except.map, settle_raise]
    cases hm : s.mode <;> simp [takeFault, withChannels, hm]

theorem fetchOp_withChannels (s : State) : fetchOp (withChannels c s) = fetchOp s := by
  simp only [fetchOp, peek8_withChannels, getBytes_withChannels]
  cases peek8 s with
  | error e => rfl
  | ok b =>
    dsimp only
    cases getBytes (opLength b) s <;> rfl

theorem opResult_withChannels (i : Instr) (s : State) :
    opResult i (withChannels c s) = (opResult i s).map (withChannels c) := by
  simp only [opResult, consume_withChannels]
  cases consume i.length s with
  | error x => rfl
  | ok t =>
    rw [ok_bind, apply_ite (Except.map (withChannels c))]
    rfl

theorem enterTail_withChannels (s : State) :
    enterTail (withChannels c s) = withChannels c (enterTail s) := by
  unfold enterTail
  rw [apply_ite (withChannels c)]
  rfl

theorem decBody_withChannels {s t : State} (h : decBody s = .next t) :
    decBody (withChannels c s) = .next (withChannels c t) := by
  unfold decBody at h ⊢
  rw [fetchOp_withChannels]
  by_cases howed : s.pxi < s.pxn
  · rw [if_pos howed] at h
    refine (if_pos howed).trans ?_
    cases hf : fetchOp s with
    | ok i =>
      rw [hf] at h
      obtain ⟨u, hu, rfl⟩ := afterOp_eq_next h
      rw [exec_eq_settle] at hu
      have hexec := settle_withChannels c (opResult_withChannels c i s) hu
      simp only [exec_eq_settle, hexec, afterOp, enterTail_withChannels]
    | error x =>
      rw [hf] at h
      exact settle_withChannels c rfl h
  · rw [if_neg howed] at h
    obtain rfl := Host.Outcome.next.inj h
    exact if_neg howed

theorem checkEndMarker_withChannels (s : State) :
    checkEndMarker (withChannels c s) = (checkEndMarker s).map (withChannels c) := by
  simp only [checkEndMarker, matchBytes_withChannels]
  cases matchBytes endBytes s with
  | error x => rfl
  | ok t =>
    dsimp only
    rw [apply_ite (Except.map (withChannels c))]
    rfl

theorem decTail_withChannels (s : State) :
    decTail (withChannels c s) = (decTail s).map (withChannels c) := by
  simp only [decTail, checkEndMarker_withChannels]
  cases checkEndMarker s <;> rfl

end

/-- Settles O18: the step is built of parts that commute with the change of `CHANNELS`. -/
theorem channelsDoNotSteerTheDecoder : Obligations.ChannelsDoNotSteerTheDecoder := by
  unfold Obligations.ChannelsDoNotSteerTheDecoder
  rintro s t c hm (hp | hp) h
  · rw [step_body_dec hp hm] at h
    exact (step_body_dec (s := withChannels c s) hp hm).trans (decBody_withChannels c h)
  · rw [step_tail_dec hp hm] at h
    exact (step_tail_dec (s := withChannels c s) hp hm).trans
      (settle_withChannels c (decTail_withChannels c s) h)

end Sys2Proof.Machine
end

section
/-! PROOFS. The decoder follows the encoder (44_decode.md R196 (c)): the op that the encoder chooses
for a pixel draws that pixel and leaves the decoder's previous pixel and cache as the encoder's. -/

namespace Sys2Proof.Machine

section
variable {cur prev : Pixel} {cache : Vector Pixel 64}

theorem pixelsOf_firstFittingOp : pixelsOf (firstFittingOp cur prev cache) = 1 := by
  have hfits := firstFittingOp_fits cur prev cache
  generalize firstFittingOp cur prev cache = i at hfits
  cases hfits <;> rfl

/-- The deltas that the encoder writes for a pixel with the alpha of the previous one lead to it. -/
theorem addWrap_delta_of_da (ha : (delta cur prev).da = 0) :
    addWrap prev (delta cur prev).dr (delta cur prev).dg (delta cur prev).db = cur := by
  rw [addWrap_delta, ← delta_da_eq_zero.mp ha]

/-- The op chosen draws its pixel. -/
theorem opPixel_firstFittingOp :
    opPixel (firstFittingOp cur prev cache) prev cache = cur := by
  have hrel : ∀ x y : Int, y + (x - y) = x := fun x y => by omega
  simp only [firstFittingOp]
  split_ifs with hhit hdiff hluma ha
  · exact hhit
  · exact addWrap_delta_of_da hdiff.1
  · rw [opPixel, hrel, hrel]
    exact addWrap_delta_of_da hluma.1
  · rw [opPixel, ← delta_da_eq_zero.mp ha]
  · rfl

theorem storesPixel_firstFittingOp :
    storesPixel (firstFittingOp cur prev cache) = true ↔ cache.get (hash cur) ≠ cur := by
  simp only [firstFittingOp]
  split_ifs with hhit <;> simp [storesPixel, hhit]

/-- The op chosen stores its pixel where the encoder does: on a miss. -/
theorem opCache_firstFittingOp :
    opCache (firstFittingOp cur prev cache) prev cache = cacheAfter cur cache := by
  rw [opCache, opPixel_firstFittingOp, cacheAfter]
  by_cases hhit : cache.get (hash cur) = cur
  · rw [if_pos hhit, if_neg (mt storesPixel_firstFittingOp.mp (not_not.mpr hhit))]
  · rw [if_neg hhit, if_pos (storesPixel_firstFittingOp.mpr hhit), cacheWith]

end

/-- Settles O55: the encoder writes the first fitting op, which draws the pixel and stores it where
the encoder does. -/
theorem decoderFollowsTheEncoder : Obligations.DecoderFollowsTheEncoder := by
  unfold Obligations.DecoderFollowsTheEncoder
  rintro cur e e' d h hne hstep hprev hcache ⟨hm, hl, howed⟩
  obtain ⟨t, ht, hpixel⟩ :=
    step_outside_run h hne (Nat.add_le_add_left (instr_length_le_five _) 1)
  obtain rfl := Host.Outcome.next.inj (hstep.symm.trans ht)
  generalize hop : firstFittingOp cur e.prev e.cache = i at hpixel
  have hone : pixelsOf i = 1 := hop ▸ pixelsOf_firstFittingOp
  have hdraws : opPixel i d.prev d.cache = cur := by
    rw [← hop, hprev, hcache, opPixel_firstFittingOp]
  have hstores : opCache i d.prev d.cache = e'.cache := by
    rw [← hop, hprev, hcache, opCache_firstFittingOp, hpixel.cache_eq]
  have hlen := instr_length_le_five i
  obtain ⟨hexec, ⟨hwrites, -⟩, hprev', hpxi, -⟩ :=
    exec_of_ready i d hone ⟨hm, by omega, howed⟩
  have hconsumed : e'.prev = cur := hpixel.consumes.1
  rw [hdraws] at hwrites hprev'
  exact ⟨i, _, hop ▸ (firstFittingOp_fits cur e.prev e.cache).wellFormed, hpixel.appends, hexec,
    hwrites d.pxi le_rfl (Nat.lt_succ_self _), hpxi, hprev'.trans hconsumed.symm, hstores⟩

end Sys2Proof.Machine
end

section
/-! PROOFS. A whole decode pass over a stream of ops (44_decode.md R181, R182, R191, R195): the
state after any number of ops is given in closed form, by what the ops have drawn. -/

namespace Sys2Proof.Machine

/-! ### What a list of ops draws -/

/-- What a decode pass has made of its ops so far: the previous pixel, the cache, and the pixels
emitted. -/
structure Drawing where
  prev : Pixel
  cache : Vector Pixel 64
  pixels : List Pixel

/-- An op draws its pixels. -/
def Drawing.add (d : Drawing) (i : Instr) : Drawing where
  prev := opPixel i d.prev d.cache
  cache := opCache i d.prev d.cache
  pixels := d.pixels ++ List.replicate (pixelsOf i) (opPixel i d.prev d.cache)

theorem Drawing.add_pixels_length (d : Drawing) (i : Instr) :
    (d.add i).pixels.length = d.pixels.length + pixelsOf i := by
  rw [Drawing.add, List.length_append, List.length_replicate]

/-- What a list of ops draws from the start of a pass. -/
def draw (ops : List Instr) : Drawing := ops.foldl Drawing.add ⟨prevInit, cacheInit, []⟩

theorem draw_concat (ops : List Instr) (i : Instr) : draw (ops ++ [i]) = (draw ops).add i := by
  rw [draw, List.foldl_append]
  rfl

theorem draw_pixels_length (ops : List Instr) :
    (draw ops).pixels.length = (ops.map pixelsOf).sum := by
  induction ops using List.reverseRecOn with
  | nil => rfl
  | append_singleton ops i ih => simp [draw_concat, Drawing.add_pixels_length, ih]

/-! ### Runs -/

theorem run_succ {s t : State} (h : step s = .next t) (k : Nat) :
    Host.Core.run Sys2Proof.core (k + 1) s = Host.Core.run Sys2Proof.core k t := by
  have hstep : Host.Core.step Sys2Proof.core s = .next t := h
  simp only [Host.Core.run, hstep]

theorem run_add {j : Nat} : ∀ {s t : State} (k : Nat),
    Host.Core.run Sys2Proof.core j s = .next t →
      Host.Core.run Sys2Proof.core (j + k) s = Host.Core.run Sys2Proof.core k t := by
  induction j with
  | zero =>
    intro s t k h
    obtain rfl := Host.Outcome.next.inj h
    rw [Nat.zero_add]
  | succ j ih =>
    intro s t k h
    rw [Nat.add_right_comm]
    cases hstep : step s with
    | next u =>
      rw [run_succ hstep] at h ⊢
      exact ih k h
    | fault f | refused f =>
      have hstep' : Host.Core.step Sys2Proof.core s = _ := hstep
      simp [Host.Core.run, hstep'] at h

theorem run_concat {j : Nat} {s t u : State} (h : Host.Core.run Sys2Proof.core j s = .next t)
    (hstep : step t = .next u) : Host.Core.run Sys2Proof.core (j + 1) s = .next u := by
  rw [run_add 1 h, run_succ hstep]
  rfl

/-! ### The ops -/

/-- A decode pass over the header of `s` that stands at `pos` and has drawn `d`. -/
def hasDrawn (d : Drawing) (pos : Nat) (s : State) : State :=
  { s with
    prev := d.prev, cache := d.cache, pxi := d.pixels.length, pos := pos
    phase := phaseAfter d.pixels.length s.pxn
    p := Memory.writeBytes [] 0 (d.pixels.flatMap Pixel.bytes) }

theorem stepOp_hasDrawn (d : Drawing) (pos : Nat) (s : State) (i : Instr) :
    stepOp i (hasDrawn d pos s) = hasDrawn (d.add i) (pos + i.length) s := by
  have hp : (Memory.writeBytes [] 0 (d.pixels.flatMap Pixel.bytes)).writeBytes
      (4 * d.pixels.length)
      ((List.replicate (pixelsOf i) (opPixel i d.prev d.cache)).flatMap Pixel.bytes) =
        Memory.writeBytes [] 0 ((d.add i).pixels.flatMap Pixel.bytes) := by
    rw [Drawing.add, List.flatMap_append, Memory.writeBytes_append, Nat.zero_add,
      flatMap_bytes_length]
  simp only [hasDrawn, ← hp, Drawing.add_pixels_length]
  rfl

/-- The op whose encoding stands at `POS` is executed, where it fits the image
(44_decode.md R183). -/
theorem step_hasDrawn {d : Drawing} {pos : Nat} {s : State} {i : Instr} (hm : s.mode = .dec)
    (hc : s.cmode = .read) (hwf : i.wellFormed = true)
    (hfits : (d.add i).pixels.length ≤ s.pxn) (hl : pos + (encode i).length ≤ s.len)
    (hq : s.q.readBytes pos (encode i).length = some (encode i)) :
    step (hasDrawn d pos s) = .next (hasDrawn (d.add i) (pos + (encode i).length) s) := by
  rw [Drawing.add_pixels_length] at hfits
  have howed : d.pixels.length < s.pxn := by
    have := (pixelsOf_bounds hwf).1
    omega
  have hdec : Decoding (hasDrawn d pos s) :=
    ⟨phaseAfter_eq_body.mpr (Nat.ne_of_lt howed), hm, hc, howed⟩
  have hdecode : decode (encode i) = .ok (i, []) := by
    simpa using decodeOfEncodeGivesTheOp i [] hwf
  have hfetch : fetchOp (hasDrawn d pos s) = .ok i := fetchOp_of_readBytes hc hl hq hdecode
  rw [encode_length] at hl ⊢
  rw [step_eq_stepOp hdec hfetch hl hfits, stepOp_hasDrawn]

/-- Ops whose encodings stand at `POS` one after the other are executed one step each
(44_decode.md R195, R198). -/
theorem run_hasDrawn {s : State} (ops : List Instr) (hm : s.mode = .dec) (hc : s.cmode = .read)
    (hstart : s = hasDrawn (draw []) s.pos s) (hwf : ∀ i ∈ ops, i.wellFormed = true)
    (hfits : (draw ops).pixels.length ≤ s.pxn)
    (hl : s.pos + (ops.flatMap encode).length ≤ s.len)
    (hq : s.q.readBytes s.pos (ops.flatMap encode).length = some (ops.flatMap encode)) :
    Host.Core.run Sys2Proof.core ops.length s =
      .next (hasDrawn (draw ops) (s.pos + (ops.flatMap encode).length) s) := by
  induction ops using List.reverseRecOn with
  | nil => exact congrArg _ hstart
  | append_singleton ops i ih =>
    rw [List.flatMap_append, List.flatMap_singleton, List.length_append] at hl hq ⊢
    obtain ⟨hqops, hqi⟩ := (readBytes_append_iff rfl).mp hq
    rw [draw_concat] at hfits ⊢
    have hops := ih (fun j hj => hwf j (List.mem_append_left _ hj))
      (by rw [Drawing.add_pixels_length] at hfits; omega) (by omega) hqops
    rw [List.length_append, ← Nat.add_assoc]
    exact run_concat hops
      (step_hasDrawn hm hc (hwf i (by simp)) hfits (by omega) hqi)

/-! ### The pass -/

/-- A launch is taken where no pass runs (60_exceptions.md R223). -/
theorem step_of_launch {s t : State} {l : Launch} {ls : List Launch}
    (hp : startable s.phase = true) (hl : s.launches = l :: ls)
    (ht : start l { s with launches := ls } = .ok t) : step s = .next t := by
  rw [step_startable hp, idleStep]
  simp only [hl, ht, settle_ok]

theorem startDecode_ok {qoi : List Byte} {s : State} (hp : startable s.phase = true) :
    start (.startDecode qoi) s = .ok (startDecode qoi s) :=
  if_pos hp

theorem hasDrawn_nil_decStart {w h : Word} {ch cs : Byte} {s : State} (hpos : 0 < pixelCount w h) :
    decStart w h ch cs s =
      hasDrawn (draw []) (decStart w h ch cs s).pos (decStart w h ch cs s) := by
  have hphase : phaseAfter 0 (pixelCount w h) = .body :=
    phaseAfter_eq_body.mpr (Nat.ne_of_lt hpos)
  have hdraw : (draw []).pixels.length = 0 := rfl
  rw [hasDrawn, hdraw]
  simp only [decStart, setPhase, initWork, setP, loadHeader, setPos, openRead, hphase]
  rfl

/-- A buffer the host supplies, read in parts. -/
theorem readBytes_ofBytes_append {bs cs : List Byte} :
    (Memory.ofBytes 0 (bs ++ cs)).readBytes 0 bs.length = some bs ∧
      (Memory.ofBytes 0 (bs ++ cs)).readBytes bs.length cs.length = some cs := by
  have hall := Memory.readBytes_ofBytes (bs ++ cs)
  rw [List.length_append, readBytes_append_iff rfl, Nat.zero_add] at hall
  exact hall

/-- The end marker is the last of the buffer: whatever `TRAILING_BYTES` says, the pass is `DONE`
(44_decode.md R191). -/
theorem step_tail_done {s : State} (hp : s.phase = .tail) (hm : s.mode = .dec)
    (hc : s.cmode = .read) (hl : s.pos + 8 = s.len)
    (hq : s.q.readBytes s.pos 8 = some endBytes) :
    step s = .next (setPhase .done (setPos s.len s)) := by
  have hmatch : matchBytes endBytes s = .ok (setPos (s.pos + 8) s) :=
    (matchBytes_eq_ok endBytes (by simp [endBytes])).mpr ⟨hc, Nat.le_of_eq hl, hq, rfl⟩
  refine step_of_checkEndMarker_ok hp hm ?_
  rw [checkEndMarker, hmatch, hl]
  exact if_neg fun h => h.1 rfl

/-- `HEAD` over a legal header. -/
theorem step_head_decStart {s : State} {w h : Word} {ch cs : Byte} (hp : s.phase = .head)
    (hm : s.mode = .dec) (hlegal : LegalHeader s.impl w h ch cs) (hlen : 14 ≤ s.args.qlen)
    (hq : s.q.readBytes 0 14 = some (headerBytes w h ch cs)) :
    step s = .next (decStart w h ch cs s) := by
  rw [step_head_dec hp hm, decHead_eq_ok.mpr ⟨w, h, ch, cs, hlegal, hlen, hq, rfl⟩, settle_ok]

/-- `BODY` and `TAIL` over ops that draw exactly the image and the end marker. -/
theorem run_body_tail {s : State} {ops : List Instr} (hm : s.mode = .dec) (hc : s.cmode = .read)
    (hstart : s = hasDrawn (draw []) s.pos s) (hwf : ∀ i ∈ ops, i.wellFormed = true)
    (hsize : (draw ops).pixels.length = s.pxn)
    (hl : s.pos + ((ops.flatMap encode).length + 8) = s.len)
    (hq : s.q.readBytes s.pos ((ops.flatMap encode).length + 8) =
      some (ops.flatMap encode ++ endBytes)) :
    ∃ t, Host.Core.run Sys2Proof.core (ops.length + 1) s = .next t ∧ t.phase = .done ∧
      result t = some (.decoded ((draw ops).pixels.flatMap Pixel.bytes) s.width s.height
        s.channels s.colorspace) := by
  obtain ⟨hqops, hqend⟩ := (readBytes_append_iff rfl).mp hq
  have hbody := run_hasDrawn ops hm hc hstart hwf (Nat.le_of_eq hsize) (by omega) hqops
  have htail := step_tail_done (s := hasDrawn (draw ops) (s.pos + (ops.flatMap encode).length) s)
    (phaseAfter_eq_tail.mpr hsize) hm hc ((Nat.add_assoc _ _ _).trans hl) hqend
  refine ⟨_, run_concat hbody htail, rfl, result_of_readBytes rfl hm ?_⟩
  have hread := Memory.readBytes_writeBytes [] 0 ((draw ops).pixels.flatMap Pixel.bytes)
  rw [flatMap_bytes_length, hsize] at hread
  exact hread

/-- A stream of a legal header, well-formed ops that draw exactly the image, and the end marker
decodes to what the ops draw. -/
theorem run_decode {s : State} {ops : List Instr} {w h : Word} {ch cs : Byte}
    (hp : startable s.phase = true)
    (hlaunch : s.launches =
      [.startDecode (headerBytes w h ch cs ++ ops.flatMap encode ++ endBytes)])
    (hlegal : LegalHeader s.impl w h ch cs) (hwf : ∀ i ∈ ops, i.wellFormed = true)
    (hsize : (draw ops).pixels.length = w.toNat * h.toNat) :
    ∃ t, Host.Core.run Sys2Proof.core (ops.length + 3) s = .next t ∧ t.phase = .done ∧
      result t = some (.decoded ((draw ops).pixels.flatMap Pixel.bytes) w h ch cs) := by
  rw [List.append_assoc] at hlaunch
  have hlen : (headerBytes w h ch cs ++ (ops.flatMap encode ++ endBytes)).length =
      14 + ((ops.flatMap encode).length + 8) := by
    rw [List.length_append, List.length_append]
    rfl
  obtain ⟨hqhead, hqrest⟩ := readBytes_ofBytes_append (bs := headerBytes w h ch cs)
    (cs := ops.flatMap encode ++ endBytes)
  have hstart := step_of_launch hp hlaunch (startDecode_ok hp)
  have h14 := Nat.le_add_right 14 ((ops.flatMap encode).length + 8)
  rw [← hlen] at h14
  have hhead := step_head_decStart (w := w) (h := h) (ch := ch) (cs := cs)
    (s := startDecode (headerBytes w h ch cs ++ (ops.flatMap encode ++ endBytes))
      { s with launches := [] }) rfl rfl hlegal h14 hqhead
  rw [run_succ hstart, run_succ hhead]
  rw [List.length_append] at hqrest
  exact run_body_tail rfl rfl (hasDrawn_nil_decStart hlegal.pixelCount_pos) hwf hsize hlen.symm
    hqrest

/-- Settles O57: the pass is the launch, `HEAD`, one step for each op and `TAIL`, and what it draws
are the pixels that the ops account for. -/
theorem anyOpStreamOfTheRightSizeDecodes : Obligations.AnyOpStreamOfTheRightSizeDecodes := by
  unfold Obligations.AnyOpStreamOfTheRightSizeDecodes
  intro s ops w h ch cs hp hlaunch hw hh hch hcs hlimit hwf hsum
  have hsize := (draw_pixels_length ops).trans hsum
  obtain ⟨t, hrun, hdone, hresult⟩ :=
    run_decode hp hlaunch ⟨hw, hh, hch, hcs, hlimit⟩ hwf hsize
  exact ⟨t, _, hrun, hdone, hresult, by rw [flatMap_bytes_length, hsize, Nat.mul_comm]⟩

end Sys2Proof.Machine
end

section
/-! PROOFS. A whole encode pass, and the round trip (44_decode.md R196 (a)): the encoder's registers
and its stream are at every pixel those of a decoder that has executed the ops written so far, and the
pixels drawn, with the pending run, are those consumed. -/

namespace Sys2Proof.Machine

/-! ### The pixels of the input -/

theorem expand_three (r g b : Byte) (xs : List Byte) :
    expand 3 (r :: g :: b :: xs) = r :: g :: b :: 255 :: expand 3 xs := by
  cases xs <;> rfl

theorem expand_four (r g b a : Byte) (xs : List Byte) :
    expand 4 (r :: g :: b :: a :: xs) = r :: g :: b :: a :: expand 4 xs := rfl

/-- Whole pixels expand on their own. -/
theorem expand_append {ch : Byte} (hch : ch = 3 ∨ ch = 4) (k : Nat) :
    ∀ xs ys : List Byte, xs.length = k * ch.toNat →
      expand ch (xs ++ ys) = expand ch xs ++ expand ch ys := by
  induction k with
  | zero =>
    intro xs ys hl
    obtain rfl : xs = [] := by simpa using hl
    rfl
  | succ k ih =>
    intro xs ys hl
    rw [Nat.succ_mul] at hl
    rcases hch with rfl | rfl
    · match xs, hl with
      | r :: g :: b :: xs, hl =>
        have hxs : xs.length = k * (3 : Byte).toNat := by simpa using hl
        simp only [List.cons_append, expand_three, ih xs ys hxs]
    · match xs, hl with
      | r :: g :: b :: a :: xs, hl =>
        have hxs : xs.length = k * (4 : Byte).toNat := by simpa using hl
        simp only [List.cons_append, expand_four, ih xs ys hxs]

/-- A part of a buffer the host supplies. -/
theorem readBytes_ofBytes_take_drop {bs : List Byte} {a n : Nat} (h : a + n ≤ bs.length) :
    (Memory.ofBytes 0 bs).readBytes a n = some ((bs.drop a).take n) := by
  refine (Memory.readBytes_eq_some _ _ _ _).mpr ⟨by simp; omega, fun k hk => ?_⟩
  rw [List.getElem_take, List.getElem_drop, ← List.getElem?_eq_getElem,
    ← Memory.read_ofBytes bs 0, Nat.zero_add]

/-- The pixel fetched is the next one of the input, expanded. -/
theorem expand_fetched {s : State} {cur : Pixel} {pix : List Byte}
    (hch : s.channels = 3 ∨ s.channels = 4) (hp : s.p = Memory.ofBytes 0 pix)
    (hl : (s.pxi + 1) * s.channels.toNat ≤ pix.length)
    (halpha : s.channels = 3 → cur.a = 255) (h : fetchPixel s = .ok cur) :
    expand s.channels ((pix.drop (s.pxi * s.channels.toNat)).take s.channels.toNat) =
      cur.bytes := by
  rw [Nat.succ_mul] at hl
  have hread := readBytes_ofBytes_take_drop hl
  rw [← hp] at hread
  have hlen := Memory.readBytes_length hread
  generalize (pix.drop (s.pxi * s.channels.toNat)).take s.channels.toNat = bs at hread hlen
  rcases hch with h3 | h4
  · rw [h3] at hread hlen ⊢
    match bs, hlen with
    | [r, g, b], _ =>
      obtain rfl := Except.ok.inj ((fetchPixel_of_three h3 hread).symm.trans h)
      have ha : s.prev.a = 255 := halpha h3
      simp [expand, Pixel.bytes, ha]
  · rw [h4] at hread hlen ⊢
    match bs, hlen with
    | [r, g, b, a], _ =>
      obtain rfl := Except.ok.inj ((fetchPixel_of_four h4 hread).symm.trans h)
      simp [expand, Pixel.bytes]

/-! ### The ops written and the pending run -/

/-- A decoder of the ops `ops` has the encoder's previous pixel and cache, and what it has drawn,
followed by the encoder's pending run, are the pixels `px`. -/
structure Draws (ops : List Instr) (px : List Pixel) (s : State) : Prop where
  wellFormed : ∀ i ∈ ops, i.wellFormed = true
  prev : (draw ops).prev = s.prev
  cache : (draw ops).cache = s.cache
  pixels : (draw ops).pixels ++ List.replicate s.run.toNat s.prev = px

/-- The pending run as ops. -/
def pendingOps (s : State) : List Instr := if s.run = 0 then [] else [.run s.run.toNat]

theorem flatMap_encode_pendingOps (s : State) : (pendingOps s).flatMap encode = pendingRun s := by
  unfold pendingOps pendingRun
  split
  · rfl
  · rw [List.flatMap_singleton, encode_run]

theorem forall_mem_concat {ops : List Instr} {i : Instr} (h : ∀ j ∈ ops, j.wellFormed = true)
    (hi : i.wellFormed = true) : ∀ j ∈ ops ++ [i], j.wellFormed = true :=
  List.forall_mem_append.mpr ⟨h, List.forall_mem_singleton.mpr hi⟩

section
variable {ops : List Instr} {px : List Pixel} {cur : Pixel} {bs : List Byte} {s t : State}

/-- With the pending run written, nothing is pending. -/
theorem Draws.flush (h : Draws ops px s) (hr : s.run.toNat ≤ 61) :
    Draws (ops ++ pendingOps s) px (setRun 0 s) := by
  unfold pendingOps
  by_cases h0 : s.run = 0
  · rw [if_pos h0, List.append_nil, setRun_eq_self h0]
    exact h
  · have hpos : s.run.toNat ≠ 0 := fun hz => h0 (BitVec.eq_of_toNat_eq hz)
    rw [if_neg h0]
    refine ⟨forall_mem_concat h.wellFormed (wellFormed_run.mpr (by omega)), ?_, ?_, ?_⟩ <;>
      rw [draw_concat]
    · exact h.prev
    · exact h.cache
    · rw [← h.pixels, ← h.prev]
      exact List.append_nil _

theorem Draws.run_grown (h : Draws ops px s) (hr : s.run.toNat ≤ 61)
    (hpixel : EncodesPixel s.prev [] (s.run + 1) s.cache s t) :
    Draws ops (px ++ [s.prev]) t := by
  obtain ⟨hprev, -, -⟩ := hpixel.consumes
  refine ⟨h.wellFormed, h.prev.trans hprev.symm, h.cache.trans hpixel.cache_eq.symm, ?_⟩
  rw [hpixel.run_eq, run_succ_toNat hr, hprev, List.replicate_succ', ← List.append_assoc, h.pixels]

theorem Draws.run_flushed (h : Draws ops px s) (hr : s.run.toNat ≤ 61)
    (hpixel : EncodesPixel s.prev bs 0 s.cache s t) :
    Draws (ops ++ [.run (s.run.toNat + 1)]) (px ++ [s.prev]) t := by
  obtain ⟨hprev, -, -⟩ := hpixel.consumes
  refine ⟨forall_mem_concat h.wellFormed (wellFormed_run.mpr (by omega)), ?_, ?_, ?_⟩ <;>
    rw [draw_concat]
  · exact h.prev.trans hprev.symm
  · exact h.cache.trans hpixel.cache_eq.symm
  · rw [← h.pixels, hpixel.run_eq, List.append_assoc, ← List.replicate_succ', ← h.prev]
    exact List.append_nil _

theorem Draws.outside_run (h : Draws ops px s) (hr : s.run.toNat ≤ 61)
    (hpixel : EncodesPixel cur bs 0 (cacheAfter cur s.cache) s t) :
    Draws (ops ++ pendingOps s ++ [firstFittingOp cur s.prev s.cache]) (px ++ [cur]) t := by
  obtain ⟨hprev, -, -⟩ := hpixel.consumes
  have hf := h.flush hr
  refine ⟨forall_mem_concat hf.wellFormed (firstFittingOp_fits cur s.prev s.cache).wellFormed,
    ?_, ?_, ?_⟩ <;> rw [draw_concat, Drawing.add, hf.prev, hf.cache, setRun_prev, setRun_cache]
  · rw [opPixel_firstFittingOp, hprev]
  · rw [opCache_firstFittingOp, hpixel.cache_eq]
  · have hpx : (draw (ops ++ pendingOps s)).pixels = px := by simpa using hf.pixels
    rw [opPixel_firstFittingOp, pixelsOf_firstFittingOp, hpixel.run_eq, hpx]
    exact List.append_nil _

end

/-! ### One pixel -/

/-- One step writes the ops of one pixel, and the decoder still follows. -/
theorem Draws.step {ops : List Instr} {px : List Pixel} {cur : Pixel} {s : State}
    (h : Draws ops px s) (hr : s.run.toNat ≤ 61) (henc : Encoding cur 6 s) :
    ∃ t more run cache, Machine.step s = .next t ∧
      EncodesPixel cur (List.flatMap encode more) run cache s t ∧
      Draws (ops ++ more) (px ++ [cur]) t := by
  by_cases heq : cur = s.prev
  · subst heq
    by_cases hf : s.run.toNat + 1 = 62 ∨ s.pxi + 1 = s.pxn
    · obtain ⟨t, hstep, hpixel⟩ := step_run_flushed henc (by decide) hr hf
      exact ⟨t, [.run (s.run.toNat + 1)], 0, s.cache, hstep, hpixel, h.run_flushed hr hpixel⟩
    · obtain ⟨t, hstep, hpixel⟩ := step_run_grown henc hr hf
      exact ⟨t, [], _, _, hstep, hpixel, by simpa using h.run_grown hr hpixel⟩
  · obtain ⟨t, hstep, hpixel⟩ :=
      step_outside_run henc heq (Nat.add_le_add_left (instr_length_le_five _) 1)
    have hdraws := h.outside_run hr hpixel
    rw [List.append_assoc] at hdraws
    refine ⟨t, _, 0, cacheAfter cur s.cache, hstep, ?_, hdraws⟩
    rwa [List.flatMap_append, flatMap_encode_pendingOps, List.flatMap_singleton]

/-- In `BODY` the invariant gives the next pixel, and room for its longest encoding. -/
theorem exists_encoding {s : State} (hs : EngineInv s) (hp : s.phase = .body) (hm : s.mode = .enc) :
    ∃ cur, Encoding cur 6 s ∧ (s.channels = 3 → cur.a = 255) := by
  obtain ⟨hl, henc⟩ := encInv_of_engineInv (loaded_body hp) hm hs
  have howed := hl.count.1 hp
  obtain ⟨cur, hcur⟩ := exists_fetchPixel hl henc howed
  have hroom := henc.room hp
  rw [Config.endSize] at hroom
  exact ⟨cur, ⟨hp, hm, hl.cmode_write hm, howed, hcur, by omega⟩,
    fun h3 => (fetchPixel_alpha h3 hcur).trans (henc.alpha hp h3)⟩

/-! ### The pass -/

theorem EncKeepsTheRest.trans {s t u : State} (h : EncKeepsTheRest s t)
    (h' : EncKeepsTheRest t u) : EncKeepsTheRest s u := by
  unfold EncKeepsTheRest at h h' ⊢
  rw [h] at h'
  exact h'

theorem EncKeepsTheRest.setup {s t : State} (h : EncKeepsTheRest s t) :
    t.mode = s.mode ∧ t.p = s.p ∧ t.channels = s.channels ∧ t.pxn = s.pxn := by
  rw [EncKeepsTheRest] at h
  rw [h]
  exact ⟨rfl, rfl, rfl, rfl⟩

/-- The encode pass over the input `pix` that entered `BODY` in `s₀` has consumed the pixels `px`
and written the ops `ops` when it is in `t`. -/
structure Encoded (pix : List Byte) (s₀ : State) (ops : List Instr) (px : List Pixel)
    (t : State) : Prop where
  inv : EngineInv t
  keeps : EncKeepsTheRest s₀ t
  pxi : t.pxi = px.length
  phase : t.phase = phaseAfter px.length s₀.pxn
  draws : Draws ops px t
  q : t.q = s₀.q.writeBytes s₀.pos (ops.flatMap encode)
  pos : t.pos = s₀.pos + (ops.flatMap encode).length
  image : px.flatMap Pixel.bytes =
    expand s₀.channels (pix.take (px.length * s₀.channels.toNat))

section
variable {pix : List Byte} {s₀ : State} (hm : s₀.mode = .enc) (hp : s₀.p = Memory.ofBytes 0 pix)
  (hl : s₀.pxn * s₀.channels.toNat ≤ pix.length)
include hm hp hl

theorem Encoded.step {ops : List Instr} {px : List Pixel} {t : State}
    (h : Encoded pix s₀ ops px t) (howed : px.length < s₀.pxn) :
    ∃ u more cur, Machine.step t = .next u ∧
      Encoded pix s₀ (ops ++ more) (px ++ [cur]) u := by
  obtain ⟨hmode, hin, hchannels, hpxn⟩ := h.keeps.setup
  have hbody : t.phase = .body := h.phase.trans (phaseAfter_eq_body.mpr (Nat.ne_of_lt howed))
  obtain ⟨hloaded, hencInv⟩ := encInv_of_engineInv (loaded_body hbody) (hmode.trans hm) h.inv
  obtain ⟨cur, henc, halpha⟩ := exists_encoding h.inv hbody (hmode.trans hm)
  obtain ⟨u, more, run, cache, hstep, hpixel, hdraws⟩ := h.draws.step hencInv.run_le henc
  obtain ⟨-, hpxi, hphase⟩ := hpixel.consumes
  have hlen : (px ++ [cur]).length = px.length + 1 := List.length_append
  have hfetched := expand_fetched hloaded.channels_eq (hin.trans hp)
    (by rw [h.pxi, hchannels]; exact (Nat.mul_le_mul_right _ howed).trans hl) halpha henc.fetch
  rw [h.pxi, hchannels] at hfetched
  refine ⟨u, more, cur, hstep, everyStepKeepsTheInvariant t u h.inv hstep,
    h.keeps.trans hpixel.rest, ?_, ?_, hdraws, ?_, ?_, ?_⟩
  · rw [hpxi, h.pxi, hlen]
  · rw [hphase, h.pxi, hpxn, hlen, phaseAfter]
  · rw [hpixel.q_eq, h.q, h.pos, List.flatMap_append, Memory.writeBytes_append]
  · rw [hpixel.pos_eq, h.pos, List.flatMap_append, List.length_append, Nat.add_assoc]
  · have hk : (pix.take (px.length * s₀.channels.toNat)).length =
        px.length * s₀.channels.toNat := List.length_take_of_le
          ((Nat.mul_le_mul_right _ (Nat.le_of_lt howed)).trans hl)
    rw [hlen, Nat.succ_mul, List.take_add,
      expand_append (hchannels ▸ hloaded.channels_eq) _ _ _ hk, hfetched, ← h.image,
      List.flatMap_append, List.flatMap_singleton]

theorem run_encoded (h : Encoded pix s₀ [] [] s₀) (n : Nat) (hn : n ≤ s₀.pxn) :
    ∃ t ops px, Host.Core.run Sys2Proof.core n s₀ = .next t ∧ px.length = n ∧
      Encoded pix s₀ ops px t := by
  induction n with
  | zero => exact ⟨s₀, [], [], rfl, rfl, h⟩
  | succ n ih =>
    obtain ⟨t, ops, px, hrun, hlen, henc⟩ := ih (Nat.le_of_succ_le hn)
    obtain ⟨u, more, cur, hstep, henc'⟩ := henc.step hm hp hl (by omega)
    exact ⟨u, _, _, run_concat hrun hstep, by simp [hlen], henc'⟩

end

/-- `TAIL` of encode: no run is pending, and the end marker completes the stream
(43_encode.md R165). -/
theorem Encoded.finish {pix header : List Byte} {ops : List Instr} {px : List Pixel} {s₀ t : State}
    (hm : s₀.mode = .enc) (h : Encoded pix s₀ ops px t) (hall : px.length = s₀.pxn)
    (hq : s₀.q = Memory.writeBytes [] 0 header) (hpos : s₀.pos = header.length) :
    (draw ops).pixels = px ∧ ∃ u, Machine.step t = .next u ∧ u.phase = .done ∧
      result u = some (.encoded (header ++ List.flatMap encode ops ++ endBytes)) := by
  obtain ⟨hmode, -, -, -⟩ := h.keeps.setup
  have htail : t.phase = .tail := h.phase.trans (phaseAfter_eq_tail.mpr hall)
  obtain ⟨hloaded, hencInv⟩ := encInv_of_engineInv (loaded_tail htail) (hmode.trans hm) h.inv
  have hc := hloaded.cmode_write (hmode.trans hm)
  have hstep : Machine.step t = .next (setPhase .done (appendBytes endBytes t)) := by
    rw [step_tail_enc htail (hmode.trans hm), encTail_ok hc (hencInv.tailRoom htail), settle_ok]
  have hstream : (appendBytes endBytes t).q.readBytes 0 (appendBytes endBytes t).pos =
      some (header ++ List.flatMap encode ops ++ endBytes) := by
    have hq' : (appendBytes endBytes t).q =
        Memory.writeBytes [] 0 (header ++ List.flatMap encode ops ++ endBytes) := by
      simp only [appendBytes, h.q, h.pos, hq, hpos, Memory.writeBytes_append, Nat.zero_add,
        List.length_append]
    have hpos' : (appendBytes endBytes t).pos =
        (header ++ List.flatMap encode ops ++ endBytes).length := by
      simp only [appendBytes, h.pos, hpos, List.length_append]
    rw [hq', hpos']
    exact Memory.readBytes_writeBytes _ _ _
  refine ⟨?_, _, hstep, rfl,
    result_of_toOutput rfl (hmode.trans hm) (toOutput_of_readBytes hc hstream)⟩
  have hnone : t.run = 0 := hencInv.run_eq (by simp [htail])
  simpa [hnone] using h.draws.pixels

theorem startEncode_ok {pix : List Byte} {w h : Word} {ch cs : Byte} {s : State}
    (hp : startable s.phase = true) :
    start (.startEncode pix w h ch cs) s = .ok (startEncode pix w h ch cs s) :=
  if_pos hp

/-- `BODY` of encode begins with nothing written but the header, whatever the machine held
before. -/
theorem encoded_encStart {pix : List Byte} {w h : Word} {ch cs : Byte} {s : State}
    (hargs : checkArgs s.impl ⟨w, h, ch, cs, pix.length, s.args.qlen⟩ = .ok ()) :
    Encoded pix (encStart (startEncode pix w h ch cs s)) [] []
      (encStart (startEncode pix w h ch cs s)) := by
  have hhead : EngineInv (setQ [] (startEncode pix w h ch cs s)) :=
    engineInv_of_not_loaded rfl ⟨rfl, Memory.ofBytes_wf _ _⟩ ⟨by simp [startEncode], rfl⟩
      (fun _ _ => by simp [startEncode, Memory.readBytes_ofBytes]) (by simp [startEncode])
  have hinv := encStart_inv hhead rfl rfl hargs
  have hpos : 0 < pixelCount w h := (checkArgs_eq_ok.mp hargs).1.pixelCount_pos
  exact {
    inv := hinv
    keeps := rfl
    pxi := rfl
    phase := (phaseAfter_eq_body.mpr (Nat.ne_of_lt hpos)).symm
    draws := ⟨by simp, rfl, rfl, rfl⟩
    q := rfl
    pos := rfl
    image := by simp [expand] }

/-- An encode pass over valid operands ends with the stream of ops that draw its pixels. -/
theorem run_encode {s : State} {pix : List Byte} {w h : Word} {ch cs : Byte}
    (hp : startable s.phase = true) (hlaunch : s.launches = [.startEncode pix w h ch cs])
    (hlegal : LegalHeader s.impl w h ch cs) (hplen : pixelCount w h * ch.toNat ≤ pix.length) :
    ∃ n t ops, Host.Core.run Sys2Proof.core n s = .next t ∧ t.phase = .done ∧
      result t =
        some (.encoded (headerBytes w h ch cs ++ List.flatMap encode ops ++ endBytes)) ∧
      (∀ i ∈ ops, i.wellFormed = true) ∧ (draw ops).pixels.length = pixelCount w h ∧
      (draw ops).pixels.flatMap Pixel.bytes =
        expand ch (pix.take (pixelCount w h * ch.toNat)) := by
  have hstart := step_of_launch hp hlaunch (startEncode_ok hp)
  have hargs : checkArgs s.impl ⟨w, h, ch, cs, pix.length, s.args.qlen⟩ = .ok () :=
    checkArgs_eq_ok.mpr ⟨hlegal, hplen⟩
  have hhead := step_of_checkArgs_ok (s := startEncode pix w h ch cs { s with launches := [] })
    rfl rfl hargs
  have hbegun := encoded_encStart (s := { s with launches := [] }) hargs
  obtain ⟨t, ops, px, hrun, hlen, henc⟩ := run_encoded rfl rfl hplen hbegun _ le_rfl
  obtain ⟨hpx, u, htail, hdone, hresult⟩ :=
    henc.finish (header := headerBytes w h ch cs) rfl hlen rfl rfl
  subst hpx
  refine ⟨_, u, ops, (run_succ hstart _).trans ((run_succ hhead _).trans (run_concat hrun htail)),
    hdone, hresult, henc.draws.wellFormed, hlen, ?_⟩
  rw [henc.image, hlen]
  rfl

/-- Settles O56: the stream is the header, ops that draw the pixels of the input, and the end
marker, and a decode pass over such a stream gives what its ops draw. -/
theorem decodeInvertsEncode : Obligations.DecodeInvertsEncode := by
  unfold Obligations.DecodeInvertsEncode
  intro s pix w h ch cs hp hlaunch hw hh hch hcs hlimit hplen
  have hlegal : LegalHeader s.impl w h ch cs := ⟨hw, hh, hch, hcs, hlimit⟩
  obtain ⟨n, t, ops, hrun, hdone, hresult, hwf, hsize, himage⟩ :=
    run_encode hp hlaunch hlegal hplen
  refine ⟨n, t, _, hrun, hdone, hresult, fun u hpu hlaunchu himpl => ?_⟩
  obtain ⟨v, hrunv, hdonev, hresultv⟩ := run_decode hpu hlaunchu (himpl ▸ hlegal) hwf hsize
  rw [himage] at hresultv
  exact ⟨_, v, hrunv, hdonev, hresultv⟩

end Sys2Proof.Machine
end

section
/-! PROOFS. The host's START (60_exceptions.md R223), the codes of the faults (R214), and that a step is
enabled while a pass runs (R224): its checks raise faults of the spec, and its input has a value at every
address it reads. -/

namespace Sys2Proof.Machine

/-! ### The host -/

theorem startable_iff {ph : Phase} :
    startable ph = true ↔ ph = .idle ∨ ph = .done ∨ ph = .fault := by
  cases ph <;> simp [startable]

/-- Settles O27: each code is read off its table. -/
theorem faultCodes : Obligations.FaultCodes := by
  unfold Obligations.FaultCodes
  refine ⟨rfl, rfl, fun _ => rfl, fun _ => rfl, fun _ => rfl, ?_⟩
  decide

/-- Settles O43: the oldest launch is taken, and the buffer it places reads as the bytes given. -/
theorem startBeginsAPass : Obligations.StartBeginsAPass := by
  unfold Obligations.StartBeginsAPass
  intro s l ls hp hl
  have hstart := startable_iff.mpr hp
  cases l with
  | startEncode pix w h ch cs =>
    exact ⟨step_of_launch hstart hl (startEncode_ok hstart), Memory.readBytes_ofBytes pix⟩
  | startDecode qoi =>
    exact ⟨step_of_launch hstart hl (startDecode_ok hstart), Memory.readBytes_ofBytes qoi⟩

/-! ### Steps that answer -/

/-- The step from `s` answers a next state. -/
def Enabled (s : State) : Prop := ∃ t, step s = .next t

/-- The step from `s` refuses an image that exceeds `MAX_PIXELS` (60_exceptions.md R226). -/
def RefusesTooLarge (s : State) : Prop :=
  step s = .refused .overMaxPixels ∧
    ∃ (w h : Word) (limit : Nat), LaunchedSize w h s ∧ s.impl.maxPixels = some limit ∧
      limit < w.toNat * h.toNat

/-- Taking a fault is a next state (60_exceptions.md R217). -/
theorem TakesFault.enabled {e : Err} {s : State} (h : TakesFault e s (step s)) : Enabled s := by
  obtain ⟨_, henc, hdec⟩ := h
  cases hm : s.mode with
  | enc => exact ⟨_, henc hm⟩
  | dec => exact ⟨_, hdec hm⟩

/-! ### `HEAD` -/

theorem enabled_head_enc {s : State} (hp : s.phase = .head) (hm : s.mode = .enc) :
    Enabled s ∨ RefusesTooLarge s := by
  have hstep := encodeArgumentsCheckedInOrder s hp hm
  split_ifs at hstep with _ _ _ _ hover
  iterate 4 exact .inl hstep.enabled
  · obtain ⟨limit, hlimit, hlt⟩ := hover
    exact .inr ⟨hstep, _, _, limit, ⟨fun _ => ⟨rfl, rfl⟩, by simp [hm]⟩, hlimit, hlt⟩
  · exact .inl hstep.enabled
  · obtain ⟨t, ht, -⟩ := hstep
    exact .inl ⟨t, ht⟩

/-- Fourteen bytes are three words and two bytes (42_container.md R140). -/
theorem exists_header_fields {bs : List Byte} (hlen : bs.length = 14) :
    ∃ m w h ch cs, bs = bytesBe32 m ++ bytesBe32 w ++ bytesBe32 h ++ [ch, cs] := by
  match bs, hlen with
  | [m0, m1, m2, m3, w0, w1, w2, w3, h0, h1, h2, h3, ch, cs], _ =>
    exact ⟨be32 m0 m1 m2 m3, be32 w0 w1 w2 w3, be32 h0 h1 h2 h3, ch, cs,
      by simp only [bytesBe32_be32]; rfl⟩

/-- The size of the image stands in bytes 4 to 11 of the header. -/
theorem launchedSize_of_header {s : State} {m w h : Word} {ch cs : Byte} (hm : s.mode = .dec)
    (hq : s.q.readBytes 0 14 = some (bytesBe32 m ++ bytesBe32 w ++ bytesBe32 h ++ [ch, cs])) :
    LaunchedSize w h s := by
  obtain ⟨hwords, -⟩ := (readBytes_append_iff (n := 12) (k := 2) rfl).mp hq
  rw [List.append_assoc] at hwords
  obtain ⟨-, hsize⟩ := (readBytes_append_iff (n := 4) (k := 8) rfl).mp hwords
  exact ⟨by simp [hm], fun _ => hsize⟩

theorem enabled_head_dec_short {s : State} (hp : s.phase = .head) (hm : s.mode = .dec)
    (hin : (s.q.readBytes 0 s.args.qlen).isSome = true) (hshort : s.args.qlen < 14) :
    Enabled s := by
  obtain ⟨bs, hq⟩ := Option.isSome_iff_exists.mp hin
  have hlen := Memory.readBytes_length hq
  have hstep := shortHeaderFaultsInOrder s bs hp hm hlen (hlen ▸ hshort) hq
  split_ifs at hstep <;> exact hstep.enabled

theorem enabled_head_dec_long {s : State} (hp : s.phase = .head) (hm : s.mode = .dec)
    (hin : (s.q.readBytes 0 s.args.qlen).isSome = true) (hlong : 14 ≤ s.args.qlen) :
    Enabled s ∨ RefusesTooLarge s := by
  obtain ⟨bs, hq⟩ := exists_readBytes_of_isSome hin ((Nat.zero_add 14).trans_le hlong)
  obtain ⟨m, w, h, ch, cs, rfl⟩ := exists_header_fields (Memory.readBytes_length hq)
  have hstep := decodeHeaderChecksInOrder s m w h ch cs hp hm hlong hq
  split_ifs at hstep with _ _ _ _ _ hover
  iterate 5 exact .inl hstep.enabled
  · obtain ⟨limit, hlimit, hlt⟩ := hover
    exact .inr ⟨hstep, w, h, limit, launchedSize_of_header hm hq, hlimit, hlt⟩
  · exact .inl ⟨_, hstep⟩

theorem enabled_head {s : State} (hs : EngineInv s) (hp : s.phase = .head) :
    Enabled s ∨ RefusesTooLarge s := by
  obtain ⟨-, -, -, -, -, ⟨-, -, hin, -⟩, -⟩ := hs
  cases hm : s.mode with
  | enc => exact enabled_head_enc hp hm
  | dec =>
    by_cases hshort : s.args.qlen < 14
    · exact .inl (enabled_head_dec_short hp hm (hin hm hp) hshort)
    · exact enabled_head_dec_long hp hm (hin hm hp) (Nat.not_lt.mp hshort)

/-! ### `BODY` and `TAIL` of decode -/

/-- While a pixel is owed, an op completes or raises a fault of the spec: only an op of one pixel could
stop the machine, and it has its pixel (44_decode.md R190). -/
theorem exists_exec_eq_next {s : State} (howed : s.pxi < s.pxn) (i : Instr) :
    ∃ t, exec i s = .next t := by
  cases hc : consume i.length s with
  | error x =>
    obtain ⟨e, rfl, -⟩ := consume_eq_error hc
    exact ⟨_, exec_of_consume_error hc⟩
  | ok u =>
    obtain ⟨hm, hl, -⟩ := consume_eq_ok.mp hc
    by_cases hp : s.pxi + pixelsOf i ≤ s.pxn
    · exact ⟨_, exec_of_owed hm hl hp⟩
    · cases i with
      | run n => exact ⟨_, exec_of_past hm hl hp⟩
      | index | diff | luma | rgb | rgba => exact absurd howed hp

/-- Where the bytes left begin with an op, it is the op fetched (44_decode.md R183). -/
theorem fetchOp_of_decode_ok {s : State} {bs rest : List Byte} {i : Instr} (hm : s.cmode = .read)
    (hl : s.pos ≤ s.len) (hq : s.q.readBytes s.pos (s.len - s.pos) = some bs)
    (hd : decode bs = .ok (i, rest)) : fetchOp s = .ok i := by
  cases bs with
  | nil => simp [decode] at hd
  | cons c bs =>
    obtain ⟨payload, rfl, hread⟩ := decode_eq_ok.mp hd
    have hlen := Memory.readBytes_length hq
    rw [← List.cons_append, List.length_append] at hlen
    rw [← List.cons_append, ← hlen] at hq
    obtain ⟨hop, -⟩ := (readBytes_append_iff rfl).mp hq
    exact fetchOp_of_readBytes hm (by omega) hop (decode_eq_ok.mpr ⟨payload, by simp, hread⟩)

theorem enabled_body_dec {s : State} {bs : List Byte} (h : Decoding s) (hl : s.pos ≤ s.len)
    (hq : s.q.readBytes s.pos (s.len - s.pos) = some bs) : Enabled s := by
  cases hd : decode bs with
  | error e => exact (truncatedOpRaisesTruncated s bs h hl hq ⟨e, hd⟩).enabled
  | ok r =>
    obtain ⟨i, rest⟩ := r
    have hfetch := fetchOp_of_decode_ok h.cmode_read hl hq hd
    have ⟨_, _, _, howed⟩ := h
    obtain ⟨t, ht⟩ := exists_exec_eq_next howed i
    exact ⟨enterTail t, by rw [step_of_fetchOp h hfetch, ht, afterOp]⟩

theorem enabled_tail_dec {s : State} {bs : List Byte} (hp : s.phase = .tail) (hm : s.mode = .dec)
    (hc : s.cmode = .read) (hl : s.pos ≤ s.len)
    (hq : s.q.readBytes s.pos (s.len - s.pos) = some bs) : Enabled s := by
  have hstep := endMarkerIsVerified s bs hp hm hc hl hq
  split_ifs at hstep
  iterate 3 exact hstep.enabled
  exact ⟨_, hstep⟩

/-! ### Any running pass -/

theorem enabled_loaded {s : State} (hs : EngineInv s) (hp : s.phase = .body ∨ s.phase = .tail) :
    Enabled s := by
  cases hm : s.mode with
  | enc =>
    obtain ⟨t, ht, -⟩ := encodeCannotFaultPastItsChecks s hs hm hp
    exact ⟨t, ht⟩
  | dec =>
    have hloaded : loaded s.phase = true := hp.elim loaded_body loaded_tail
    obtain ⟨hl, hdec⟩ := decInv_of_engineInv hloaded hm hs
    have hc := hl.cmode_read hm
    obtain ⟨bs, hq⟩ := exists_readBytes_of_isSome hdec.input
      (Nat.le_of_eq (Nat.add_sub_cancel' hl.pos_le))
    rcases hp with hp | hp
    · exact enabled_body_dec ⟨hp, hm, hc, hl.count.1 hp⟩ hl.pos_le hq
    · exact enabled_tail_dec hp hm hc hl.pos_le hq

theorem running_iff {ph : Phase} :
    running ph = true ↔ ph = .head ∨ ph = .body ∨ ph = .tail := by
  cases ph <;> simp [running]

/-- Settles O50: in `HEAD` every check raises a fault of the spec but the limit, which refuses; in `BODY`
and `TAIL` encode completes and decode completes or faults, since the bytes up to `LEN` have values and a
pixel is owed in `BODY`. -/
theorem aStepIsEnabledDuringAPass : Obligations.AStepIsEnabledDuringAPass := by
  unfold Obligations.AStepIsEnabledDuringAPass
  intro s hs hrun
  rcases running_iff.mp hrun with hp | hp
  · rcases enabled_head hs hp with h | ⟨hstep, hsize⟩
    · exact .inl h
    · exact .inr ⟨hp, hstep, hsize⟩
  · exact .inl (enabled_loaded hs hp)

end Sys2Proof.Machine
end

section
/-! PROOFS. The engine at power-on (70_reset_and_hazards.md R241), and that every pass ends (R250): a body
step that does not fault leaves fewer pixels owed, and the step of `TAIL` ends the pass. -/

namespace Sys2Proof.Machine

/-! ### Power-on -/

/-- Settles O47: at power-on no header is loaded, both spaces are empty and no fault is held. -/
theorem powerOn : Obligations.PowerOn := by
  unfold Obligations.PowerOn
  refine ⟨rfl, rfl, engineInv_of_not_loaded rfl ⟨rfl, rfl⟩ ⟨?_, rfl⟩ ?_ ?_⟩
  · exact iff_of_true rfl (by decide)
  · exact fun _ hp => absurd hp (by decide)
  · exact fun _ hp => absurd hp (by decide)

/-! ### The step of `TAIL` -/

/-- The step of `TAIL` is the last of its pass (43_encode.md R165, 44_decode.md R191). -/
theorem step_tail_phase {s t : State} (hp : s.phase = .tail) (h : step s = .next t) :
    t.phase = .done ∨ t.phase = .fault := by
  refine or_iff_not_imp_right.mpr fun hne => ?_
  cases hm : s.mode with
  | enc =>
    rw [step_tail_enc hp hm] at h
    obtain ⟨u, -, hu⟩ := bind_eq_ok.mp (settle_eq_next_of_ne_fault h hne)
    obtain rfl := Except.ok.inj hu
    rfl
  | dec =>
    rw [step_tail_dec hp hm] at h
    obtain rfl := decTail_of_ok (settle_eq_next_of_ne_fault h hne)
    rfl

/-! ### The body step -/

theorem phaseAfter_body_or_tail (pxi pxn : Nat) :
    phaseAfter pxi pxn = .body ∨ phaseAfter pxi pxn = .tail :=
  (ne_or_eq pxi pxn).imp phaseAfter_eq_body.mpr phaseAfter_eq_tail.mpr

/-- From `s` to `t` the pass went on in `BODY` or into `TAIL`, with at least one pixel fewer owed, and
in encode exactly one fewer. -/
structure Advances (s t : State) : Prop where
  mode : t.mode = s.mode
  pxn : t.pxn = s.pxn
  pxi_lt : s.pxi < t.pxi
  pxi_enc : s.mode = .enc → t.pxi = s.pxi + 1
  phase : t.phase = .body ∨ t.phase = .tail

theorem Advances.owed_lt {s t : State} (h : Advances s t) (howed : s.pxi < s.pxn) :
    t.pxn - t.pxi < s.pxn - s.pxi := by
  rw [h.pxn]
  exact Nat.sub_lt_sub_left howed h.pxi_lt

theorem Advances.owed_enc {s t : State} (h : Advances s t) (howed : s.pxi < s.pxn)
    (hm : s.mode = .enc) : s.pxn - s.pxi = t.pxn - t.pxi + 1 := by
  rw [h.pxn, h.pxi_enc hm]
  omega

theorem Encoding.mono {cur : Pixel} {k n : Nat} {s : State} (h : Encoding cur n s) (hk : k ≤ n) :
    Encoding cur k s := by
  obtain ⟨hp, hm, hc, howed, hcur, hroom⟩ := h
  exact ⟨hp, hm, hc, howed, hcur, (Nat.add_le_add_left hk _).trans hroom⟩

/-- In `BODY` of encode the step consumes the next pixel, within the run or outside it
(43_encode.md R154, R156). -/
theorem exists_step_consumesPixel {s : State} (hs : EngineInv s) (hp : s.phase = .body)
    (hm : s.mode = .enc) : ∃ cur t, step s = .next t ∧ ConsumesPixel cur s t := by
  obtain ⟨-, hencInv⟩ := encInv_of_engineInv (loaded_body hp) hm hs
  obtain ⟨cur, henc, -⟩ := exists_encoding hs hp hm
  by_cases hrun : cur = s.prev
  · subst hrun
    obtain ⟨t, hstep, hpixel, -⟩ := encoderRunPixel s (henc.mono (by decide)) hencInv.run_le
    exact ⟨_, t, hstep, hpixel⟩
  · obtain ⟨t, hstep, hpixel, -⟩ := encoderEmitsTheFirstFittingOp cur s henc hrun
    exact ⟨cur, t, hstep, hpixel⟩

theorem advances_of_step_enc {s t : State} (hs : EngineInv s) (hp : s.phase = .body)
    (hm : s.mode = .enc) (h : step s = .next t) : Advances s t := by
  obtain ⟨cur, u, hstep, -, hpxi, hphase⟩ := exists_step_consumesPixel hs hp hm
  obtain rfl := Host.Outcome.next.inj (hstep.symm.trans h)
  have hkeeps := step_body_keepsCursor hp h
  refine ⟨hkeeps.mode, hkeeps.pxn, by omega, fun _ => hpxi, ?_⟩
  rw [hphase]
  exact phaseAfter_body_or_tail _ _

theorem advances_of_step_dec {s t : State} (hs : EngineInv s) (hp : s.phase = .body)
    (hm : s.mode = .dec) (h : step s = .next t) (hne : t.phase ≠ .fault) : Advances s t := by
  obtain ⟨hl, -⟩ := decInv_of_engineInv (loaded_body hp) hm hs
  have hdec : Decoding s := ⟨hp, hm, hl.cmode_read hm, hl.count.1 hp⟩
  obtain ⟨hpxi, -, -, hphase⟩ := decodeStepEmits1To62Pixels s t hdec h hne
  have hkeeps := step_body_keepsCursor hp h
  refine ⟨hkeeps.mode, hkeeps.pxn, hpxi, by simp [hm], ?_⟩
  rw [hphase]
  exact phaseAfter_body_or_tail _ _

/-- A body step advances the pass, or is a fault of decode (43_encode.md R167, 44_decode.md R182). -/
theorem step_body_fault_or_advances {s t : State} (hs : EngineInv s) (hp : s.phase = .body)
    (h : step s = .next t) : (s.mode = .dec ∧ t.phase = .fault) ∨ Advances s t := by
  cases hm : s.mode with
  | enc => exact .inr (advances_of_step_enc hs hp hm h)
  | dec =>
    by_cases hfault : t.phase = .fault
    · exact .inl ⟨rfl, hfault⟩
    · exact .inr (advances_of_step_dec hs hp hm h hfault)

/-! ### The pass -/

/-- The pass of `s` is in `DONE` or `FAULT` after at most `n` steps, and an encode pass is in `DONE` after
exactly `n`. -/
def EndsWithin (n : Nat) (s : State) : Prop :=
  ∃ k t, k ≤ n ∧ Host.Core.run Sys2Proof.core k s = .next t ∧
    (t.phase = .done ∨ t.phase = .fault) ∧ (s.mode = .enc → k = n ∧ t.phase = .done)

/-- A step that ends the pass, of an encode pass in `DONE`. -/
theorem endsWithin_of_last_step {s t : State} {n : Nat} (h : step s = .next t)
    (ht : t.phase = .done ∨ t.phase = .fault)
    (henc : s.mode = .enc → n = 0 ∧ t.phase = .done) : EndsWithin (n + 1) s := by
  refine ⟨1, t, Nat.le_add_left 1 n, run_succ h 0, ht, fun hm => ?_⟩
  obtain ⟨rfl, hdone⟩ := henc hm
  exact ⟨rfl, hdone⟩

/-- A step that goes on with the pass, before an end in fewer steps. -/
theorem EndsWithin.of_step {s t : State} {m n : Nat} (h : step s = .next t)
    (hmode : t.mode = s.mode) (hlt : m < n) (henc : s.mode = .enc → n = m + 1)
    (ht : EndsWithin m t) : EndsWithin n s := by
  obtain ⟨k, u, hk, hrun, hu, hdone⟩ := ht
  refine ⟨k + 1, u, Nat.lt_of_le_of_lt hk hlt, (run_succ h k).trans hrun, hu, fun hm => ?_⟩
  obtain ⟨rfl, hphase⟩ := hdone (hmode.trans hm)
  exact ⟨(henc hm).symm, hphase⟩

theorem endsWithin_tail {s : State} (hs : EngineInv s) (hp : s.phase = .tail) :
    EndsWithin (s.pxn - s.pxi + 1) s := by
  obtain ⟨t, h⟩ := enabled_loaded hs (.inr hp)
  have ⟨_, _, _, ⟨_, hall⟩, _⟩ := hs
  have hend := step_tail_phase hp h
  refine endsWithin_of_last_step h hend fun hm => ⟨by rw [hall (.inl hp), Nat.sub_self], ?_⟩
  obtain ⟨u, hu, hne⟩ := encodeCannotFaultPastItsChecks s hs hm (.inr hp)
  obtain rfl := Host.Outcome.next.inj (hu.symm.trans h)
  exact hend.resolve_right hne

/-- By induction on the pixels owed: a body step leaves fewer, and with none owed the pass is in
`TAIL`. -/
theorem endsWithin_owed {n : Nat} : ∀ {s : State}, EngineInv s →
    (s.phase = .body ∨ s.phase = .tail) → s.pxn - s.pxi = n → EndsWithin (n + 1) s := by
  induction n using Nat.strong_induction_on with
  | _ n ih =>
    rintro s hs (hp | hp) rfl
    · obtain ⟨t, h⟩ := enabled_loaded hs (.inl hp)
      have ht := everyStepKeepsTheInvariant s t hs h
      have ⟨_, _, _, ⟨howed, _⟩, _⟩ := hs
      rcases step_body_fault_or_advances hs hp h with ⟨hm, hfault⟩ | hadv
      · exact endsWithin_of_last_step h (.inr hfault) (by simp [hm])
      · have hfewer := hadv.owed_lt (howed hp)
        exact .of_step h hadv.mode (Nat.succ_lt_succ hfewer)
          (fun hm => congrArg (· + 1) (hadv.owed_enc (howed hp) hm)) (ih _ hfewer ht hadv.phase rfl)
    · exact endsWithin_tail hs hp

/-- Settles O51: in `BODY` the pass ends within the pixels owed and the step of `TAIL`. -/
theorem everyPassEnds : Obligations.EveryPassEnds := by
  unfold Obligations.EveryPassEnds
  intro s hs hp
  obtain ⟨k, t, hk, hrun, hend, henc⟩ := endsWithin_owed hs (.inl hp) rfl
  refine ⟨⟨k, t, hk, hrun, hend⟩, fun hm => ?_⟩
  obtain ⟨rfl, hdone⟩ := henc hm
  exact ⟨t, hrun, hdone⟩

end Sys2Proof.Machine
end

section
/-! PROOFS. What has no meaning or no way on: a one-pixel op past the image (44_decode.md R190), the
taking of a fault (60_exceptions.md R217), a step without a pass (R224), a START during a pass and
`toOutput` on a read cursor (93_implementation_defined.md U15, U16). -/

namespace Sys2Proof.Machine

/-! ### A one-pixel op -/

theorem pixelsOf_eq_one {i : Instr} (h : ∀ n, i ≠ .run n) : pixelsOf i = 1 := by
  cases i with
  | run n => exact absurd rfl (h n)
  | index | diff | luma | rgb | rgba => rfl

theorem pastStop_eq_pastImage {i : Instr} (h : ∀ n, i ≠ .run n) : pastStop i = .fault .pastImage := by
  cases i with
  | run n => exact absurd rfl (h n)
  | index | diff | luma | rgb | rgba => rfl

/-- Settles O14: the op wants one pixel and none is owed. -/
theorem onePixelOpPastTheImageStops : Obligations.OnePixelOpPastTheImageStops := by
  unfold Obligations.OnePixelOpPastTheImageStops
  intro i s hrun hm hl hpast
  have hnone : ¬ s.pxi + pixelsOf i ≤ s.pxn := by rw [pixelsOf_eq_one hrun]; omega
  rw [exec_of_past hm hl hnone, pastStop_eq_pastImage hrun, settle_fault]

/-! ### Taking a fault -/

theorem takeFault_of_enc (e : Err) {s : State} (hm : s.mode = .enc) :
    takeFault e s = { s with phase := .fault, err := e, q := [] } := by
  rw [takeFault, hm]

theorem takeFault_of_dec (e : Err) {s : State} (hm : s.mode = .dec) :
    takeFault e s = { s with phase := .fault, err := e, p := [] } := by
  rw [takeFault, hm]

/-- Settles O26: there is no result because the phase is not `DONE`. -/
theorem takingAFault : Obligations.TakingAFault := by
  unfold Obligations.TakingAFault
  intro e s
  have hnotDone : (takeFault e s).phase ≠ .done := by simp
  exact ⟨takeFault_phase e s, takeFault_err e s, result_of_ne_done hnotDone, takeFault_of_enc e,
    takeFault_of_dec e⟩

/-! ### No pass -/

theorem idleStep_of_no_launch {s : State} (hl : s.launches = []) : idleStep s = .fault .noStep := by
  rw [idleStep, hl]

/-- Settles O44: where a START is accepted the step is the host's, and nothing is launched. -/
theorem noStepWithoutAPass : Obligations.NoStepWithoutAPass := by
  unfold Obligations.NoStepWithoutAPass
  intro s hp hl
  rw [step_startable (startable_iff.mpr hp), idleStep_of_no_launch hl]

/-! ### Moves without a meaning -/

theorem not_startable_of_running {ph : Phase} (h : running ph = true) : ¬ startable ph = true := by
  rcases running_iff.mp h with rfl | rfl | rfl <;> decide

theorem start_of_running {s : State} (l : Launch) (h : running s.phase = true) :
    start l s = .error (.refuse .startDuringPass) :=
  if_neg (not_startable_of_running h)

theorem toOutput_of_read {s : State} (hm : s.cmode = .read) :
    toOutput s = .error (.refuse .toOutputOnReadCursor) :=
  if_pos (by simp [hm])

/-- Settles O45: no phase of a pass accepts a START, and `toOutput` checks the cursor's mode first. -/
theorem movesWithoutAMeaningAreRefused : Obligations.MovesWithoutAMeaningAreRefused := by
  unfold Obligations.MovesWithoutAMeaningAreRefused
  exact fun s l => ⟨fun hp => start_of_running l (running_iff.mpr hp), toOutput_of_read⟩

end Sys2Proof.Machine
end
